-- ==== Sys2Proof/Word.lean ====
section
/-!
DEFINITION. The two word types of the block: bytes of the stream (20_memory.md R41) and the 16-bit
values of fields, checksum and lengths (10_state.md R11, R15).
-/
namespace Sys2Proof

/-- One byte of the stream. -/
abbrev Byte := BitVec 8

/-- One 16-bit unsigned value. -/
abbrev Word := BitVec 16

end Sys2Proof
end

