-- ==== Sys2Proof/Config.lean ====
section
/-!
DEFINITION. The parameters of 00_scope.md R6, each named once (decision D29), and the free values: constants with
no body, so that nothing can be proved of what they are.
-/
namespace Sys2Proof

/-- First signature byte (R6). -/
def Config.sig1 : Byte := 0x42#8
/-- Second signature byte (R6). -/
def Config.sig2 : Byte := 0x4D#8
/-- The header, SIG1 * 256 + SIG2 (R6). -/
def Config.sig : Word := Config.sig1 ++ Config.sig2
/-- Number of field registers (R6). -/
abbrev Config.maxFields : Nat := 17
/-- Number of output slots (R6). -/
abbrev Config.nSlots : Nat := 4
/-- SIZE and NF of BASE (R6). -/
def Config.sizeBase : Nat := 32
def Config.nfBase : Nat := 13
/-- SIZE and NF of COUNT_EXT (R6). -/
def Config.sizeCountExt : Nat := 32
def Config.nfCountExt : Nat := 13
/-- SIZE and NF of ENV_EXT (R6). -/
def Config.sizeEnvExt : Nat := 40
def Config.nfEnvExt : Nat := 17
/-- SIZE and NF of REDUCED (R6, 90_conflicts.md C1). -/
def Config.sizeReduced : Nat := 24
def Config.nfReduced : Nat := 9
/-- Declared length = SIZE - HDR_OVERHEAD (R6). -/
def Config.hdrOverhead : Nat := 4
/-- hasCounts and hasEnv of BASE (R6, 40_variant_catalog.md R101). -/
def Config.capCountsBase : Bool := false
def Config.capEnvBase : Bool := false
/-- hasCounts and hasEnv of COUNT_EXT (R6, R101). -/
def Config.capCountsCountExt : Bool := true
def Config.capEnvCountExt : Bool := false
/-- hasCounts of ENV_EXT: the open parameter CAP_COUNTS_ENV_EXT at its default
(R101; DESIGN CHOICE, unsafe, log entry 13). -/
def Config.capCountsEnvExt : Bool := true
/-- hasEnv of ENV_EXT (R6, R101). -/
def Config.capEnvEnvExt : Bool := true
/-- hasCounts and hasEnv of REDUCED (R6, R101). -/
def Config.capCountsReduced : Bool := false
def Config.capEnvReduced : Bool := false
/-- The command codes CMD[15:12] (R6, 30_encoding.md R80). -/
def Config.cmdInit : BitVec 4 := 0x1
def Config.cmdConfig : BitVec 4 := 0x2
def Config.cmdFrameReady : BitVec 4 := 0x3
def Config.cmdDecode : BitVec 4 := 0x4
def Config.cmdProject : BitVec 4 := 0x5
def Config.cmdCheckClear : BitVec 4 := 0x6
def Config.cmdFlush : BitVec 4 := 0x7
def Config.cmdPoll : BitVec 4 := 0x8
/-- The reserved command codes 0x0 and 0x9, the upper three bits of 0xA and 0xB, the upper two of 0xC to 0xF (R86). -/
def Config.cmdReserved0 : BitVec 4 := 0x0
def Config.cmdReserved9 : BitVec 4 := 0x9
def Config.cmdReservedAB : BitVec 3 := 0b101
def Config.cmdReservedCF : BitVec 2 := 0b11
/-- The codes of the variants (R6, 10_state.md R19). -/
def Config.codeBase : BitVec 4 := 0
def Config.codeCountExt : BitVec 4 := 1
def Config.codeEnvExt : BitVec 4 := 2
def Config.codeReduced : BitVec 4 := 3
/-- The codes of the projections (R6, 10_state.md R20). -/
def Config.codeMass : BitVec 2 := 0
def Config.codeEnv : BitVec 2 := 1
def Config.codeCount : BitVec 2 := 2
/-- The codes of the event modes other than none (R6, 10_state.md R21). -/
def Config.codeBasic : BitVec 2 := 1
def Config.codeBasicCounts : BitVec 2 := 2
/-- The codes of the results (R6, 30_encoding.md R84). -/
def Config.codeOk : BitVec 3 := 0
def Config.codeNotInitialized : BitVec 3 := 1
def Config.codeNotReady : BitVec 3 := 2
def Config.codeFramingMismatch : BitVec 3 := 3
def Config.codeInvalidLength : BitVec 3 := 4
def Config.codeChecksumMismatch : BitVec 3 := 5
def Config.codeCallerError : BitVec 3 := 6
/-- Field indices of the atmospheric PM1.0, PM2.5 and PM10 readings (R74). -/
def Config.idxPm1 : Fin Config.maxFields := 3
def Config.idxPm25 : Fin Config.maxFields := 4
def Config.idxPm10 : Fin Config.maxFields := 5
/-- Field indices of formaldehyde, temperature and humidity (R74). -/
def Config.idxHcho : Fin Config.maxFields := 12
def Config.idxTemp : Fin Config.maxFields := 13
def Config.idxHum : Fin Config.maxFields := 14
/-- First and last of the six particle-count fields (R74). -/
def Config.idxCountFirst : Nat := 6
def Config.idxCountLast : Nat := 11
/-- COUNT_IDX: the count fields of the four slots of the COUNT projection
(R164; PRESUMED, unsafe, log entry 12). -/
def Config.countIdx : Vector (Fin Config.maxFields) Config.nSlots := #v[8, 9, 10, 11]
/-- The least FCOUNT that the ENV projection needs (R160, R166). -/
def Config.envFieldCount : Nat := 15
/-- The two divisors other than 1 (R79, R83). -/
def Config.divisorTen : Nat := 10
def Config.divisorThousand : Nat := 1000

/-- FREE VALUE: what field register `i` holds after the reset event numbered `n`
(10_state.md R35 'unspecified', U4; log entry 7). -/
opaque Config.resetField : (n i : Nat) → Word

/-- FREE VALUE: how many more bytes RX holds after the overrun numbered `n` than before it, cut off at the room there is
(93_implementation_defined.md U3, 20_memory.md R47, R48; log entry 10). -/
opaque Config.overrunGrowth : (n : Nat) → Nat

/-- FREE VALUE: byte `k` of RX after the overrun numbered `n` (93_implementation_defined.md U3; log entry 10). -/
opaque Config.overrunByte : (n k : Nat) → Byte

/-- FREE VALUE: what a peek of an empty RX returns (93_implementation_defined.md U1; log entry 11). -/
opaque Config.emptyPeek : (n : Nat) → Byte

/-- FREE VALUE: the open parameter EVENT_SET (D23): whether the notification of field `i` belongs to the set of
this projection code, event mode code and variant code on this validated frame (R170; log entry 14). The
constraints of R171 are imposed on top of it by `Machine.eventSet`. -/
opaque Config.eventSelects : (proj mode : BitVec 2) → (variant : BitVec 4) → (frame : List Word) → (i : Nat) → Bool

end Sys2Proof
end

