-- ==== Sys2Proof/Syntax.lean ====
section
/-!
DEFINITION. The instructions: one constructor for each row of spec/opcode_table.json.
-/
namespace Sys2Proof

/-- The ten operations of 00_scope.md R3, the four ranges of reserved command codes (30_encoding.md R86) and the
three wire frames (30_encoding.md R71). -/
inductive Instr where
  /-- INIT, command 0x1 (R180). -/
  | init
  /-- CONFIG, command 0x2, with the four codes of its operand (R81, R183). -/
  | config (variant : BitVec 4) (proj : BitVec 2) (evmode : BitVec 2) (even : Bool)
  /-- FRAME_READY, command 0x3 (R120). -/
  | frameReady
  /-- DECODE, command 0x4 (R135). -/
  | decode
  /-- PROJECT, command 0x5 (R160). -/
  | project
  /-- CHECK_CLEAR, command 0x6 (R186). -/
  | checkClear
  /-- FLUSH, command 0x7 (R188). -/
  | flush
  /-- POLL, command 0x8 (R190). -/
  | poll
  /-- The reserved command code 0x0 (R86). -/
  | reserved0
  /-- The reserved command code 0x9 (R86). -/
  | reserved9
  /-- The reserved command codes 0xA and 0xB: 0xA + `lo` (R86). -/
  | reservedAB (lo : BitVec 1)
  /-- The reserved command codes 0xC to 0xF: 0xC + `lo` (R86). -/
  | reservedCF (lo : BitVec 2)
  /-- The internal lookup CATALOG (R100); no command code. -/
  | catalog (v : BitVec 4)
  /-- The internal primitive READ_U16 (R110); no command code. -/
  | readU16 (acc : Bool)
  /-- A 32-byte frame on the wire: its 13 fields and its checksum field (R71). -/
  | frame32 (fields : List Word) (checksum : Word)
  /-- A 40-byte frame on the wire: its 17 fields and its checksum field (R71). -/
  | frame40 (fields : List Word) (checksum : Word)
  /-- A 24-byte frame on the wire: its 9 fields and its checksum field (R71). -/
  | frame24 (fields : List Word) (checksum : Word)
  deriving DecidableEq, Repr

end Sys2Proof
end

