-- ==== Sys2Proof/WellFormed.lean ====
section
/-!
DEFINITION. Which instructions are well formed. The widths of all other operands are in their types, and every
value of them is legal (30_encoding.md R75, R81, R85).
-/
namespace Sys2Proof

/-- A frame has exactly the number of fields of its format (30_encoding.md R71). -/
def Instr.wellFormed : Instr → Bool
  | .frame32 fields _ => fields.length == Config.nfBase
  | .frame40 fields _ => fields.length == Config.nfEnvExt
  | .frame24 fields _ => fields.length == Config.nfReduced
  | .init | .config _ _ _ _ | .frameReady | .decode | .project | .checkClear | .flush | .poll => true
  | .reserved0 | .reserved9 | .reservedAB _ | .reservedCF _ => true
  | .catalog _ | .readU16 _ => true

/-- The number of bytes of an instruction as it is encoded: 2 for a command word (R80), SIZE for a frame (R71),
0 for the two internal operations, which have no encoding (R80). -/
def Instr.sizeBytes : Instr → Nat
  | .frame32 _ _ => Config.sizeBase
  | .frame40 _ _ => Config.sizeEnvExt
  | .frame24 _ _ => Config.sizeReduced
  | .init | .config _ _ _ _ | .frameReady | .decode | .project | .checkClear | .flush | .poll => 2
  | .reserved0 | .reserved9 | .reservedAB _ | .reservedCF _ => 2
  | .catalog _ | .readU16 _ => 0

end Sys2Proof
end

