-- ==== Sys2Proof/Decode.lean ====
section
/-!
DEFINITION. Decoding of command words and of wire frames (30_encoding.md), total and rejecting by name, and the
encoder written from the same tables.
-/
namespace Sys2Proof

/-- The two encoded things of 30_encoding.md: a command word of the host, a chunk of the byte stream. -/
inductive Encoding where
  | cmd (w : Word)
  | stream (bytes : List Byte)
  deriving DecidableEq, Repr

/-- Why a chunk of the stream is not exactly one frame. Nothing of the stream is illegal (R85): such a chunk is
still received as plain bytes. -/
inductive Reject where
  /-- fewer than the four bytes a frame is recognised by (R76) -/
  | tooShort
  /-- bytes 0 and 1 are not 0x42, 0x4D (R76) -/
  | badSignature
  /-- bytes 2 and 3 are the declared length of no format (R72) -/
  | unknownLength
  /-- the chunk ends before the frame does (R71) -/
  | truncated
  /-- bytes follow the frame -/
  | trailingBytes
  deriving DecidableEq, Repr

/-- Big-endian assembly: the byte read first is the high one (R49, R78). -/
def u16 (hi lo : Byte) : Word := hi ++ lo

/-- The two bytes of a 16-bit value, high byte first (R49). -/
def be16 (v : Word) : List Byte := [v.extractLsb' 8 8, v.extractLsb' 0 8]

/-- The declared length of a frame of `size` bytes (R72). -/
def lengthField (size : Nat) : Word := BitVec.ofNat 16 (size - Config.hdrOverhead)

/-- CMD[15:12] (R80). -/
def opcode (w : Word) : BitVec 4 := w.extractLsb' 12 4

/-- The operand of CONFIG, CMD[11:3] (R81). -/
def decodeConfig (w : Word) : Instr :=
  .config (w.extractLsb' 8 4) (w.extractLsb' 6 2) (w.extractLsb' 4 2) (w.getLsbD 3)

/-- The command word by its opcode (R80); every word is some operation's or reserved (R86). -/
def decodeCommand (w : Word) : Instr :=
  let op := opcode w
  if op = Config.cmdInit then .init
  else if op = Config.cmdConfig then decodeConfig w
  else if op = Config.cmdFrameReady then .frameReady
  else if op = Config.cmdDecode then .decode
  else if op = Config.cmdProject then .project
  else if op = Config.cmdCheckClear then .checkClear
  else if op = Config.cmdFlush then .flush
  else if op = Config.cmdPoll then .poll
  else if op = Config.cmdReserved0 then .reserved0
  else if op = Config.cmdReserved9 then .reserved9
  else if op.extractLsb' 1 3 = Config.cmdReservedAB then .reservedAB (op.extractLsb' 0 1)
  else .reservedCF (op.extractLsb' 0 2)

/-- `n` big-endian 16-bit values from the head of the stream, and the rest. -/
def takeWords : Nat → List Byte → Option (List Word × List Byte)
  | 0, bs => some ([], bs)
  | n + 1, hi :: lo :: bs =>
    match takeWords n bs with
    | some (ws, rest) => some (u16 hi lo :: ws, rest)
    | none => none
  | _ + 1, _ => none

/-- The body of a frame with `nf` fields: the fields and the checksum (R70). -/
def decodeBody (nf : Nat) (mk : List Word → Word → Instr) (bs : List Byte) : Except Reject (Instr × List Byte) :=
  match takeWords nf bs with
  | some (fields, hi :: lo :: rest) => .ok (mk fields (u16 hi lo), rest)
  | _ => .error .truncated

/-- A frame at the head of a stream, recognised by its first four bytes (R76), and the bytes behind it. -/
def decodeFrame (bs : List Byte) : Except Reject (Instr × List Byte) :=
  match bs with
  | b0 :: b1 :: b2 :: b3 :: rest =>
    if u16 b0 b1 ≠ Config.sig then .error .badSignature
    else if u16 b2 b3 = lengthField Config.sizeBase then decodeBody Config.nfBase .frame32 rest
    else if u16 b2 b3 = lengthField Config.sizeEnvExt then decodeBody Config.nfEnvExt .frame40 rest
    else if u16 b2 b3 = lengthField Config.sizeReduced then decodeBody Config.nfReduced .frame24 rest
    else .error .unknownLength
  | _ => .error .tooShort

/-- The decoder: a command word always decodes; a chunk of the stream decodes when it is exactly one frame. -/
def decode : Encoding → Except Reject Instr
  | .cmd w => .ok (decodeCommand w)
  | .stream bs =>
    match decodeFrame bs with
    | .ok (i, []) => .ok i
    | .ok (_, _ :: _) => .error .trailingBytes
    | .error e => .error e

/-- The bytes of a frame of the format with `size` bytes (R70). -/
def frameBytes (size : Nat) (fields : List Word) (checksum : Word) : List Byte :=
  be16 Config.sig ++ be16 (lengthField size) ++ fields.flatMap be16 ++ be16 checksum

/-- The sum of bytes modulo 2^16 (R73). -/
def byteSum (bs : List Byte) : Word := bs.foldl (fun a b => a + b.setWidth 16) 0

/-- The checksum that makes a frame well formed on the wire: the sum of all bytes before it (R73). -/
def frameChecksum (size : Nat) (fields : List Word) : Word :=
  byteSum (be16 Config.sig ++ be16 (lengthField size) ++ fields.flatMap be16)

/-- A command word from its opcode and operand bits (R80). -/
def commandWord (op : BitVec 4) (operand : BitVec 12) : Encoding := .cmd (op ++ operand)

/-- The operand of CONFIG; CMD[2:0] are written 0 (R81). -/
def configOperand (variant : BitVec 4) (proj evmode : BitVec 2) (even : Bool) : BitVec 12 :=
  variant ++ proj ++ evmode ++ BitVec.ofBool even ++ 0#3

/-- The encoding of an instruction; the two internal operations have none (R80). Ignored bits are written 0. -/
def encode : Instr → Option Encoding
  | .reserved0 => some (commandWord Config.cmdReserved0 0)
  | .init => some (commandWord Config.cmdInit 0)
  | .config variant proj evmode even => some (commandWord Config.cmdConfig (configOperand variant proj evmode even))
  | .frameReady => some (commandWord Config.cmdFrameReady 0)
  | .decode => some (commandWord Config.cmdDecode 0)
  | .project => some (commandWord Config.cmdProject 0)
  | .checkClear => some (commandWord Config.cmdCheckClear 0)
  | .flush => some (commandWord Config.cmdFlush 0)
  | .poll => some (commandWord Config.cmdPoll 0)
  | .reserved9 => some (commandWord Config.cmdReserved9 0)
  | .reservedAB lo => some (commandWord (Config.cmdReservedAB ++ lo) 0)
  | .reservedCF lo => some (commandWord (Config.cmdReservedCF ++ lo) 0)
  | .catalog _ => none
  | .readU16 _ => none
  | .frame32 fields checksum => some (.stream (frameBytes Config.sizeBase fields checksum))
  | .frame40 fields checksum => some (.stream (frameBytes Config.sizeEnvExt fields checksum))
  | .frame24 fields checksum => some (.stream (frameBytes Config.sizeReduced fields checksum))

/-- The number of bytes of an encoding. -/
def Encoding.sizeBytes : Encoding → Nat
  | .cmd _ => 2
  | .stream bs => bs.length

/-- The four bytes of a frame row of the opcode table, read as one big-endian 32-bit value (R76), and zeros up to the
number of bytes that its declared length announces, at most the longest frame. -/
def tableFrameBytes (w : Nat) : List Byte :=
  let v := BitVec.ofNat 32 w
  let head := [v.extractLsb' 24 8, v.extractLsb' 16 8, v.extractLsb' 8 8, v.extractLsb' 0 8]
  (head ++ List.replicate (Config.sizeEnvExt - 4) 0).take ((v.extractLsb' 0 16).toNat + Config.hdrOverhead)

/-- The encoding that a row of spec/opcode_table.json numbers as `w` in `nbits` bits: 16 bits are a command word, 32
bits the first four bytes of a frame. -/
def tableEncoding (nbits w : Nat) : Option Encoding :=
  if nbits = 16 then some (.cmd (BitVec.ofNat 16 w))
  else if nbits = 32 then some (.stream (tableFrameBytes w))
  else none

/-- What the decoder reads from an instruction numbered as the opcode table numbers it. -/
def decodeTableWord (nbits w : Nat) : Option Instr :=
  match tableEncoding nbits w with
  | some e =>
    match decode e with
    | .ok i => some i
    | .error _ => none
  | none => none

end Sys2Proof
end

