-- ==== Sys2Proof/Machine/State.lean ====
section
/-!
DEFINITION. The state of one instance of the block and of its environment (10_state.md R10), plain data, and the
state after reset (R35, R230).
-/
namespace Sys2Proof.Machine

/-- RESULT (30_encoding.md R84); code 7 is never produced and has no constructor (log entry 18). -/
inductive ResultCode where
  | ok | notInitialized | notReady | framingMismatch | invalidLength | checksumMismatch | callerError
  deriving DecidableEq, Repr

/-- SCALE of a slot (30_encoding.md R83); code 3 is never written and has no constructor (log entry 18). -/
inductive Scale where
  | by1 | by10 | by1000
  deriving DecidableEq, Repr

/-- One output slot (10_state.md R14). -/
structure Slot where
  raw : Word
  scale : Scale
  deriving DecidableEq, Repr

/-- The sequencer position (10_state.md R30). -/
inductive Phase where
  | idle | sync | hdr | len | field | csum | flushing | cmp | proj
  deriving DecidableEq, Repr

/-- Which operation the sequencer is in the middle of (log entry 3): only an operation that can wait inside `RxRead` is
ever seen here between steps (20_memory.md R44). -/
inductive Job where
  | none | decode | poll | readU16 (acc : Bool)
  deriving DecidableEq, Repr

/-- An entry of the Variant Catalog (40_variant_catalog.md R100). -/
structure CatalogEntry where
  size : Nat
  nf : Nat
  hasCounts : Bool
  hasEnv : Bool
  deriving DecidableEq, Repr

/-- What an operation that returns a value delivered (log entry 5). -/
inductive Returned where
  /-- the bit `ready` of FRAME_READY (R120) -/
  | ready (b : Bool)
  /-- the bit of CHECK_CLEAR (R186) -/
  | received (b : Bool)
  /-- the tuple of CATALOG (R100) -/
  | entry (e : CatalogEntry)
  /-- the value of READ_U16 (R110) -/
  | value (v : Word)
  deriving DecidableEq, Repr

/-- A notification of the event qualifier (44_field_multiplexer.md R170): which field, and its value as a slot would
hold it (R171 (d)). -/
structure Notification where
  field : Nat
  value : Slot
  deriving DecidableEq, Repr

/-- What the environment does in one gap between two transport primitives of an operation (20_memory.md R46,
70_reset_and_hazards.md R231; log entry 2). `recv []` is a gap in which nothing happens. -/
inductive Gap where
  | recv (bytes : List Byte)
  | reset
  deriving DecidableEq, Repr

/-- An event between steps: the host presents a command word (30_encoding.md R80), the receiver appends bytes (R46,
R87 RECV), or the block is reset (R230). -/
inductive Input where
  | cmd (w : Word)
  | recv (bytes : List Byte)
  | reset
  deriving DecidableEq, Repr

/-- The state of one instance. -/
structure State where
  /-- F[0..16] (R11) -/
  f : Vector Word Config.maxFields
  /-- FVALID (R12) -/
  fvalid : Bool
  /-- FCOUNT (R12) -/
  fcount : BitVec 5
  /-- OUT[0..3] (R14) -/
  out : Vector Slot Config.nSlots
  /-- SUM (R15) -/
  sum : Word
  /-- SUMRX (R16) -/
  sumRx : Word
  /-- INIT (R17) -/
  init : Bool
  /-- INITDONE (R17) -/
  initDone : Bool
  /-- VALRCV (R18) -/
  valRcv : Bool
  /-- CFG_VARIANT (R19) -/
  cfgVariant : BitVec 4
  /-- CFG_PROJ (R20) -/
  cfgProj : BitVec 2
  /-- CFG_EVMODE (R21) -/
  cfgEvMode : BitVec 2
  /-- CFG_EVEN (R21) -/
  cfgEvEn : Bool
  /-- RESULT (R23) -/
  result : ResultCode
  /-- DIAG_LEN (R24) -/
  diagLen : Word
  /-- PHASE (R30) -/
  phase : Phase
  /-- IDX (R30) -/
  idx : BitVec 5
  /-- the operation in progress (model's own, log entry 3) -/
  job : Job
  /-- the first byte of a READ_U16 that waits for its second (R115; model's own, log entry 3) -/
  latch : Option Byte
  /-- RX, head first (R28); environment -/
  rx : List Byte
  /-- TRANSPORT_PRESENT (R29); environment -/
  transportPresent : Bool
  /-- RX_CAPACITY, `none` for unbounded (R48); environment -/
  rxCapacity : Option Nat
  /-- the events still to come, oldest first (model's own, log entry 1) -/
  script : List Input
  /-- what the environment does in the coming gaps inside operations (model's own, log entry 2) -/
  live : List Gap
  /-- the value last delivered to the host (model's own, log entry 5) -/
  ret : Option Returned
  /-- the notifications emitted so far, oldest first (R170; model's own, log entry 14) -/
  events : List Notification
  /-- how many fresh free values have been taken (model's own, log entry 11) -/
  fresh : Nat
  deriving DecidableEq, Repr

/-- Why a step stops. -/
inductive Fault where
  /-- Raised by every operation of the host, and by READ_U16, when another operation is still in progress. The host never
  does this (00_scope.md R8), and the spec gives no behaviour for it (R192 duty 1, column 'if broken' is empty). Safe: the
  model stops (log entry 4). -/
  | operationRunning
  deriving DecidableEq, Repr

/-- Why a step has no meaning. -/
inductive Refusal where
  /-- Raised by an arm of `exec` whose instruction has no meaning yet; no arm does. Safe. -/
  | notModelled (mnemonic : String)
  deriving DecidableEq, Repr

/-- The state after reset (10_state.md R35, 70_reset_and_hazards.md R230). The fields the spec leaves unspecified or does
not name are chosen in log entries 1 to 3, 5, 6, 8 to 11 and 14. -/
def State.reset : State where
  f := Vector.replicate Config.maxFields 0
  fvalid := false
  fcount := 0
  out := Vector.replicate Config.nSlots ⟨0, .by1⟩
  sum := 0
  sumRx := 0
  init := false
  initDone := false
  valRcv := false
  cfgVariant := 0
  cfgProj := 0
  cfgEvMode := 0
  cfgEvEn := false
  result := .ok
  diagLen := 0
  phase := .idle
  idx := 0
  job := .none
  latch := none
  rx := []
  transportPresent := true
  rxCapacity := none
  script := []
  live := []
  ret := none
  events := []
  fresh := 0

end Sys2Proof.Machine
end

