-- ==== Sys2Proof/Machine/Ops.lean ====
section
/-!
DEFINITION. The shared operations: the end of an operation (60_exceptions.md R217, this block's counterpart of taking an
exception), the receiver, reset, the four transport primitives (20_memory.md R41) and READ_U16 (41_byte_reader.md R110).
-/
namespace Sys2Proof.Machine

abbrev Outcome := Host.Outcome State Fault Refusal

/-- `raise <Code>` and `return` of the pseudocode: RESULT <- code, PHASE <- IDLE, the operation is over
(00_scope.md notation, R217). Nothing is saved, and there is no return from it (R219). -/
def finish (r : ResultCode) (s : State) : State :=
  { s with result := r, phase := .idle, idx := 0, job := .none, latch := none }

/-- How an operation of the host starts: only when no other is in progress (R8; log entry 4). -/
def command (s : State) (run : State → State) : Outcome :=
  if s.job = .none then .next (run s) else .fault .operationRunning

/-- Whether RX has room for these bytes (R48). -/
def hasRoom (bs : List Byte) (s : State) : Bool :=
  match s.rxCapacity with
  | none => true
  | some c => bs.isEmpty || decide (s.rx.length + bs.length ≤ c)

/-- How many bytes RX has room for; only asked where it has a capacity (R48). -/
def room (s : State) : Nat := s.rxCapacity.getD 0 - s.rx.length

/-- RX after an overrun: free bytes, and a free number of them, but no fewer than before (R47) and none beyond the room
there was (R48, U3; log entry 10). -/
def overrunRx (s : State) : List Byte :=
  (List.range (s.rx.length + min (Config.overrunGrowth s.fresh) (room s))).map (Config.overrunByte s.fresh)

/-- The receiver appends bytes to the tail of RX (R46); where they do not fit, what RX holds is free (R48, U3). -/
def receive (bs : List Byte) (s : State) : State :=
  if hasRoom bs s then { s with rx := s.rx ++ bs }
  else { s with rx := overrunRx s, fresh := s.fresh + 1 }

/-- Reset of the block at any time (R230, R231): every block register takes its reset value, F is free (R35, U4; log
entry 7), an operation in progress is over, RX and the rest of the environment stay. -/
def blockReset (s : State) : State :=
  { s with
    f := Vector.ofFn (fun i => Config.resetField s.fresh i.val)
    fvalid := false, fcount := 0, out := Vector.replicate Config.nSlots ⟨0, .by1⟩
    sum := 0, sumRx := 0, init := false, initDone := false, valRcv := false
    cfgVariant := 0, cfgProj := 0, cfgEvMode := 0, cfgEvEn := false
    result := .ok, diagLen := 0, phase := .idle, idx := 0
    job := .none, latch := none, fresh := s.fresh + 1 }

/-- How an access of the transport ends. -/
inductive Access (α : Type) where
  /-- it completes with a value -/
  | done (a : α) (s : State)
  /-- it waits on an empty RX (R44) -/
  | hold (s : State)
  /-- the block was reset before it (R231) -/
  | aborted (s : State)

/-- Two accesses in sequence. -/
def Access.bind {α β : Type} (m : Access α) (k : α → State → Access β) : Access β :=
  match m with
  | .done a s => k a s
  | .hold s => .hold s
  | .aborted s => .aborted s

/-- The rest of an operation after an access; an operation that waits or was aborted goes no further. -/
def Access.andThen {α : Type} (m : Access α) (k : α → State → State) : State :=
  match m with
  | .done a s => k a s
  | .hold s => s
  | .aborted s => s

/-- The gap before a transport primitive: the receiver may append (R46), the block may be reset (R231). -/
def gap (s : State) : Access Unit :=
  match s.live with
  | [] => .done () s
  | .recv bs :: rest => .done () (receive bs { s with live := rest })
  | .reset :: rest => .aborted (blockReset { s with live := rest })

/-- `RxAvail()` (R41). -/
def rxAvail (s : State) : Access Nat :=
  (gap s).bind fun _ s => .done s.rx.length s

/-- `RxPeek()` (R41); only called on a non-empty RX (R42), otherwise a free value (U1; log entry 11). -/
def rxPeek (s : State) : Access Byte :=
  (gap s).bind fun _ s =>
    match s.rx with
    | b :: _ => .done b s
    | [] => .done (Config.emptyPeek s.fresh) { s with fresh := s.fresh + 1 }

/-- The wait inside `RxRead()`: the head byte if there is one, else whatever the receiver does next (R44). -/
def rxReadWait : List Gap → State → Access Byte
  | [], s =>
    match s.rx with
    | b :: rest => .done b { s with rx := rest }
    | [] => .hold s
  | .reset :: live, s => .aborted (blockReset { s with live := live })
  | .recv bs :: live, s =>
    let s1 := receive bs { s with live := live }
    match s1.rx with
    | b :: rest => .done b { s1 with rx := rest }
    | [] => rxReadWait live s1

/-- `RxRead()` (R41, R43, R44). -/
def rxRead (s : State) : Access Byte := rxReadWait s.live s

/-- `RxFlush()` (R41, R45): removes exactly the bytes present at that instant. -/
def rxFlush (s : State) : Access Unit :=
  (gap s).bind fun _ s => .done () { s with rx := [] }

/-- The second half of READ_U16: the low byte, then the accumulation of both bytes (R110, R115). -/
def readLow (acc : Bool) (hi : Byte) (s : State) : Access Word :=
  (rxRead s).bind fun lo s =>
    .done (u16 hi lo)
      { s with
        latch := none
        sum := if acc then s.sum + hi.setWidth 16 + lo.setWidth 16 else s.sum }

/-- READ_U16(acc) (R110); taken up again at its second read if it was waiting there (R115). -/
def readU16 (acc : Bool) (s : State) : Access Word :=
  match s.latch with
  | some hi => readLow acc hi s
  | none => (rxRead s).bind fun hi s => readLow acc hi { s with latch := some hi }

end Sys2Proof.Machine
end

