-- ==== Sys2Proof/Machine/Catalog.lean ====
section
/-!
DEFINITION. The Variant Catalog, operation CATALOG (40_variant_catalog.md).
-/
namespace Sys2Proof.Machine

/-- The zero-size sentinel (R102). -/
def catalogSentinel : CatalogEntry := ⟨0, 0, false, false⟩

/-- CATALOG(v) (R100, R101): variant codes 0 BASE, 1 COUNT_EXT, 2 ENV_EXT, 3 REDUCED (R19). -/
def catalog (v : BitVec 4) : CatalogEntry :=
  if v = Config.codeBase then ⟨Config.sizeBase, Config.nfBase, Config.capCountsBase, Config.capEnvBase⟩
  else if v = Config.codeCountExt then
    ⟨Config.sizeCountExt, Config.nfCountExt, Config.capCountsCountExt, Config.capEnvCountExt⟩
  else if v = Config.codeEnvExt then ⟨Config.sizeEnvExt, Config.nfEnvExt, Config.capCountsEnvExt, Config.capEnvEnvExt⟩
  else if v = Config.codeReduced then
    ⟨Config.sizeReduced, Config.nfReduced, Config.capCountsReduced, Config.capEnvReduced⟩
  else catalogSentinel

/-- CATALOG(CFG_VARIANT), the lookup every operation makes (R104). -/
def configured (s : State) : CatalogEntry := catalog s.cfgVariant

/-- CATALOG as an instruction: a pure lookup that delivers its tuple and changes nothing else (R100; log entry 16). -/
def execCatalog (v : BitVec 4) (s : State) : Outcome :=
  .next { s with ret := some (.entry (catalog v)) }

end Sys2Proof.Machine
end

