-- ==== Sys2Proof/Machine/Operands.lean ====
section
/-!
DEFINITION. The enumerations behind the configuration codes (30_encoding.md R82), the values of slots (R79, R83), and
which field goes where (30_encoding.md R74).
-/
namespace Sys2Proof.Machine

/-- The output projections (10_state.md R20). -/
inductive Projection where
  | mass | env | count
  deriving DecidableEq, Repr

/-- CFG_PROJ: 0 MASS, 1 ENV, 2 COUNT, 3 reserved (R20). -/
def projectionOf (code : BitVec 2) : Option Projection :=
  if code = Config.codeMass then some .mass
  else if code = Config.codeEnv then some .env
  else if code = Config.codeCount then some .count
  else none

/-- The event modes (10_state.md R21). -/
inductive EventMode where
  | off | basic | basicCounts
  deriving DecidableEq, Repr

/-- CFG_EVMODE: 0 none, 1 basic, 2 basic+counts, 3 read as none (R21). -/
def eventModeOf (code : BitVec 2) : EventMode :=
  if code = Config.codeBasic then .basic
  else if code = Config.codeBasicCounts then .basicCounts
  else .off

/-- The 2-bit code of a scale (R83). -/
def scaleCode : Scale → BitVec 2
  | .by1 => 0
  | .by10 => 1
  | .by1000 => 2

/-- The divisor a scale names (R83). -/
def divisor : Scale → Nat
  | .by1 => 1
  | .by10 => Config.divisorTen
  | .by1000 => Config.divisorThousand

/-- The value of a slot, the exact rational RAW / divisor(SCALE) (R161). -/
def slotValue (x : Slot) : ℚ := (x.raw.toNat : ℚ) / (divisor x.scale : ℚ)

/-- The declared length DECODE expects: SIZE - 4 of the configured variant (R72). -/
def expectedLength (s : State) : Word := lengthField (configured s).size

/-- Field register `i` as the multiplexer reads it (R11). -/
def field (s : State) (i : Fin Config.maxFields) : Word := s.f.get i

/-- The greatest of the four count indices, max(COUNT_IDX) (R160). -/
def maxCountIdx : Nat := (Config.countIdx.toList.map Fin.val).foldl max 0

/-- The field of slot `k` in the COUNT projection (R164). -/
def countField (s : State) (k : Fin Config.nSlots) : Word := field s (Config.countIdx.get k)

/-- Whether a field is a particle count (R74). -/
def isCountField (i : Nat) : Bool := Config.idxCountFirst ≤ i && i ≤ Config.idxCountLast

/-- Whether a field is formaldehyde, temperature or humidity (R74). -/
def isEnvField (i : Nat) : Bool := i == Config.idxHcho || i == Config.idxTemp || i == Config.idxHum

/-- Whether a field has a meaning under a variant: the table of R74. -/
def hasMeaning (e : CatalogEntry) (i : Nat) : Bool :=
  i ≤ Config.idxPm10 || (isCountField i && e.hasCounts) || (isEnvField i && e.hasEnv)

/-- The scale of a field's value (R79). -/
def fieldScale (i : Nat) : Scale :=
  if i = Config.idxHcho then .by1000
  else if i = Config.idxTemp ∨ i = Config.idxHum then .by10
  else .by1

end Sys2Proof.Machine
end

