-- ==== Sys2Proof/Machine/Flags.lean ====
section
/-!
DEFINITION. The result codes as the host reads them (30_encoding.md R84) and the read-only view STATUS (10_state.md
R22). The block has no arithmetic flags (10_state.md R18): the comparisons of DECODE go straight into RESULT.
-/
namespace Sys2Proof.Machine

/-- The 3-bit code of RESULT (R84). -/
def resultCode : ResultCode → BitVec 3
  | .ok => Config.codeOk
  | .notInitialized => Config.codeNotInitialized
  | .notReady => Config.codeNotReady
  | .framingMismatch => Config.codeFramingMismatch
  | .invalidLength => Config.codeInvalidLength
  | .checksumMismatch => Config.codeChecksumMismatch
  | .callerError => Config.codeCallerError

/-- STATUS[0] = INIT, [1] = VALRCV, [2] = FVALID, [5:3] = RESULT, [7:6] = 0 (R22). -/
def status (s : State) : BitVec 8 :=
  0#2 ++ resultCode s.result ++ BitVec.ofBool s.fvalid ++ BitVec.ofBool s.valRcv ++ BitVec.ofBool s.init

/-- A slot, a pair of 16 and 2 bits (R14), as one value of 18 bits. That RAW lies above SCALE in it is the model's choice:
the spec gives no packing (DESIGN CHOICE, log entry 25). -/
def slotBits (x : Slot) : BitVec 18 := x.raw ++ scaleCode x.scale

end Sys2Proof.Machine
end

