-- ==== Sys2Proof/Machine/Synchronizer.lean ====
section
/-!
DEFINITION. The Frame Synchronizer, operation FRAME_READY (42_frame_synchronizer.md).
-/
namespace Sys2Proof.Machine

/-- How many bytes a gap can bring. -/
def gapSize : Gap → Nat
  | .recv bs => bs.length
  | .reset => 0

/-- How many bytes the discard loop can meet at most: those in RX and those still to arrive in gaps (R129). -/
def pending (s : State) : Nat := s.rx.length + (s.live.map gapSize).sum

/-- Step 2, the discard loop: availability first, then the head, then the removal of exactly that byte (R122). The count
bounds the iterations; `pending s + 1` always suffices (R129). -/
def discard : Nat → State → Access Unit
  | 0, s => .done () s
  | n + 1, s =>
    (rxAvail s).bind fun k s =>
      if k = 0 then .done () s
      else (rxPeek s).bind fun b s =>
        if b = Config.sig1 then .done () s
        else (rxRead s).bind fun _ s => discard n s

/-- Steps 1 to 4 for a frame of `size` bytes (R120 to R124): OK for ready, else NotReady. Ready means that RX holds `size`
bytes and that its head is 0x42 (R124). After the loop the head can be another byte only where the loop emptied RX and bytes
came before the count of step 3, or where RX overran; it is not ready there (DEDUCED, log entry 17). -/
def sync (size : Nat) (s : State) : Access ResultCode :=
  (rxAvail s).bind fun k s =>
    if k = 0 then .done .notReady s
    else (discard (pending s + 1) s).bind fun _ s =>
      (rxAvail s).bind fun k s =>
        if k < size ∨ s.rx.head? ≠ some Config.sig1 then .done .notReady s else .done .ok s

/-- FRAME_READY up to its answer (R120): the two tests that touch nothing (R103, R127), then the scan. -/
def frameReady (s : State) : Access ResultCode :=
  if s.init = false then .done .notInitialized s
  else if (configured s).size = 0 then .done .callerError s
  else sync (configured s).size { s with phase := .sync }

/-- FRAME_READY as an operation of its own: it delivers the bit ready and the result code (R120). -/
def opFrameReady (s : State) : State :=
  (frameReady s).andThen fun r s => finish r { s with ret := some (.ready (decide (r = .ok))) }

/-- FRAME_READY (R120). -/
def execFrameReady (s : State) : Outcome := command s opFrameReady

end Sys2Proof.Machine
end

