-- ==== Sys2Proof/Machine/Multiplexer.lean ====
section
/-!
DEFINITION. The field multiplexer, operation PROJECT, and the event qualifier (44_field_multiplexer.md).
-/
namespace Sys2Proof.Machine

/-- The four slots PROJECT writes, or none where it refuses (R160, R162 to R166). -/
def projected (s : State) : Option (Vector Slot Config.nSlots) :=
  let e := configured s
  if e.size = 0 ∨ s.fvalid = false then none
  else match projectionOf s.cfgProj with
    | some .mass =>
      some #v[⟨field s Config.idxPm1, .by1⟩, ⟨field s Config.idxPm25, .by1⟩, ⟨field s Config.idxPm10, .by1⟩, ⟨0, .by1⟩]
    | some .env =>
      if e.hasEnv = false ∨ s.fcount.toNat < Config.envFieldCount then none
      else some #v[⟨field s Config.idxPm25, .by1⟩, ⟨field s Config.idxTemp, .by10⟩, ⟨field s Config.idxHum, .by10⟩,
        ⟨field s Config.idxHcho, .by1000⟩]
    | some .count =>
      if e.hasCounts = false ∨ s.fcount.toNat ≤ maxCountIdx then none
      else some #v[⟨countField s 0, .by1⟩, ⟨countField s 1, .by1⟩, ⟨countField s 2, .by1⟩, ⟨countField s 3, .by1⟩]
    | none => none

/-- The validated frame, F[0..FCOUNT-1] (R13). -/
def validFrame (s : State) : List Word := s.f.toList.take s.fcount.toNat

/-- Whether a notification of field `i` is allowed (R171 (b), (c), R13): the field exists in the validated frame and has a
meaning under the variant, and a count only in mode basic+counts. -/
def eventAllowed (s : State) (i : Nat) : Bool :=
  decide (i < s.fcount.toNat) && hasMeaning (configured s) i &&
    (!isCountField i || decide (eventModeOf s.cfgEvMode = .basicCounts))

/-- The notifications of one projection (R170 to R173): none unless enabled and validated (R171 (a), (e)); of the allowed
ones those that the open set EVENT_SET selects (D23); each with the value a slot would hold (R171 (d)). -/
def eventSet (s : State) : List Notification :=
  if s.cfgEvEn = false ∨ eventModeOf s.cfgEvMode = .off ∨ s.fvalid = false then []
  else
    (((List.finRange Config.maxFields).filter (fun i => eventAllowed s i.val)).filter
      (fun i => Config.eventSelects s.cfgProj s.cfgEvMode s.cfgVariant (validFrame s) i.val)).map
      (fun i => ⟨i.val, ⟨field s i, fieldScale i.val⟩⟩)

/-- PROJECT (R160): all four slots and the notifications, or nothing but RESULT (R165). -/
def project (s : State) : State :=
  if s.init = false then finish .notInitialized s
  else
    let s := { s with phase := .proj }
    match projected s with
    | some slots => finish .ok { s with out := slots, events := s.events ++ eventSet s }
    | none => finish .callerError s

/-- PROJECT as an operation of the host (R160). -/
def execProject (s : State) : Outcome := command s project

end Sys2Proof.Machine
end

