-- ==== Sys2Proof/Machine/Decoder.lean ====
section
/-!
DEFINITION. The Frame Decoder, operation DECODE (43_frame_decoder.md), the end of POLL that follows it
(45_host_operations.md R190, R191), and how an operation that waits for a byte goes on (20_memory.md R44).
-/
namespace Sys2Proof.Machine

/-- What POLL does after its DECODE (R190): flush after InvalidLength (R191), project after OK. -/
def pollEnd (r : ResultCode) (s : State) : State :=
  match r with
  | .ok => project s
  | .invalidLength => (rxFlush { s with phase := .flushing }).andThen fun _ s => finish .invalidLength s
  | r => finish r s

/-- The end of DECODE: it returns to the host, or to the POLL it is part of (R190). -/
def decodeEnd (r : ResultCode) (s : State) : State :=
  match s.job with
  | .poll => pollEnd r s
  | _ => finish r s

/-- Step 6, the comparison (R141, R142). -/
def decodeCompare (s : State) : State :=
  if s.sum = s.sumRx then
    decodeEnd .ok { s with fvalid := true, fcount := BitVec.ofNat 5 (configured s).nf, valRcv := true }
  else decodeEnd .checksumMismatch s

/-- Steps 4 and 5: the checksum field, not accumulated (R140), and the unconditional flush (R141, R56). -/
def decodeChecksum (s : State) : State :=
  (readU16 false s).andThen fun v s =>
    (rxFlush { s with sumRx := v, phase := .flushing }).andThen fun _ s =>
      decodeCompare { s with phase := .cmp }

/-- Step 3: the fields still to be read, in ascending order from IDX (R139). -/
def decodeFields : Nat → State → State
  | 0, s => decodeChecksum { s with phase := .csum, idx := 0 }
  | n + 1, s =>
    (readU16 true s).andThen fun v s =>
      decodeFields n { s with f := s.f.setIfInBounds s.idx.toNat v, idx := s.idx + 1 }

/-- Step 2, the declared length (R138). -/
def decodeLength (s : State) : State :=
  (readU16 true s).andThen fun v s =>
    if v = expectedLength s then decodeFields (configured s).nf { s with phase := .field, idx := 0 }
    else decodeEnd .invalidLength { s with diagLen := v }

/-- Step 1, the header (R137). -/
def decodeHeader (s : State) : State :=
  (readU16 true s).andThen fun v s =>
    if v = Config.sig then decodeLength { s with phase := .len }
    else decodeEnd .framingMismatch s

/-- DECODE (R135): the two tests that touch nothing (R144), the clearing (R143), then the frame. -/
def decodeFrom (s : State) : State :=
  if s.init = false then decodeEnd .notInitialized s
  else if (configured s).size = 0 then decodeEnd .callerError s
  else decodeHeader { s with sum := 0, fvalid := false, phase := .hdr, idx := 0, latch := none }

/-- DECODE as an operation of its own (R135). -/
def opDecode (s : State) : State := decodeFrom { s with job := .decode }

/-- DECODE (R135). -/
def execDecode (s : State) : Outcome := command s opDecode

/-- READ_U16 started on its own, and its end: the value is delivered, nothing else of the block changes (R110; log entry
16). -/
def byteReader (acc : Bool) (s : State) : State :=
  (readU16 acc s).andThen fun v s => { s with job := .none, ret := some (.value v) }

/-- READ_U16 as an instruction (R110; log entry 16). -/
def execReadU16 (acc : Bool) (s : State) : Outcome :=
  command s fun s => byteReader acc { s with job := .readU16 acc, latch := none }

/-- The operation in progress goes on from where it waits: inside the READ_U16 of its PHASE (R30, R44). In the phases in
which no operation can wait, and with no operation in progress, nothing happens. -/
def resume (s : State) : State :=
  match s.job with
  | .none => s
  | .readU16 acc => byteReader acc s
  | .decode | .poll =>
    match s.phase with
    | .hdr => decodeHeader s
    | .len => decodeLength s
    | .field => decodeFields ((configured s).nf - s.idx.toNat) s
    | .csum => decodeChecksum s
    | .idle | .sync | .flushing | .cmp | .proj => s

/-- Bytes arrive from the receiver: they join RX (R46), and an operation that waits for them goes on (R44). -/
def deliver (bs : List Byte) (s : State) : State := resume (receive bs s)

end Sys2Proof.Machine
end

