-- ==== Sys2Proof/Machine/HostOps.lean ====
section
/-!
DEFINITION. The host operations INIT, CONFIG, CHECK_CLEAR, FLUSH, POLL (45_host_operations.md) and the reserved command
codes (30_encoding.md R86).
-/
namespace Sys2Proof.Machine

/-- INIT (R180): the outcome of the first one after reset is final (R181); the transport is not touched (R182). -/
def opInit (s : State) : State :=
  if s.initDone then finish (if s.init then .ok else .notInitialized) s
  else if s.transportPresent then finish .ok { s with initDone := true, init := true }
  else finish .notInitialized { s with initDone := true, init := false }

/-- INIT (R180). -/
def execInit (s : State) : Outcome := command s opInit

/-- CONFIG (R183): every code is stored as it is, whatever INIT is (R184). -/
def execConfig (variant : BitVec 4) (proj evmode : BitVec 2) (even : Bool) (s : State) : Outcome :=
  command s fun s =>
    finish .ok { s with cfgVariant := variant, cfgProj := proj, cfgEvMode := evmode, cfgEvEn := even }

/-- CHECK_CLEAR (R186): reads and clears VALRCV in one indivisible step. -/
def opCheckClear (s : State) : State :=
  if s.init = false then finish .notInitialized { s with ret := some (.received false) }
  else finish .ok { s with ret := some (.received s.valRcv), valRcv := false }

/-- CHECK_CLEAR (R186). -/
def execCheckClear (s : State) : Outcome := command s opCheckClear

/-- FLUSH (R188). -/
def opFlush (s : State) : State :=
  if s.init = false then finish .notInitialized s
  else (rxFlush { s with phase := .flushing }).andThen fun _ s => finish .ok s

/-- FLUSH (R188). -/
def execFlush (s : State) : Outcome := command s opFlush

/-- POLL (R190): FRAME_READY; if ready DECODE, and what `pollEnd` says after it. -/
def opPoll (s : State) : State :=
  (frameReady s).andThen fun r s =>
    if r = .ok then decodeFrom { s with job := .poll } else finish r s

/-- POLL (R190). -/
def execPoll (s : State) : Outcome := command s opPoll

/-- A reserved command code: RESULT <- CallerError and nothing else; INIT is not tested (R86, R216). -/
def reservedCode (s : State) : State := finish .callerError s

/-- The reserved code 0x0 (R86). -/
def execReserved0 (s : State) : Outcome := command s reservedCode

/-- The reserved code 0x9 (R86). -/
def execReserved9 (s : State) : Outcome := command s reservedCode

/-- The reserved codes 0xA and 0xB (R86). -/
def execReservedAB (_lo : BitVec 1) (s : State) : Outcome := command s reservedCode

/-- The reserved codes 0xC to 0xF (R86). -/
def execReservedCF (_lo : BitVec 2) (s : State) : Outcome := command s reservedCode

end Sys2Proof.Machine
end

