-- ==== Sys2Proof/Machine/Wire.lean ====
section
/-!
DEFINITION. The wire frames (30_encoding.md R70, R71) as what the receiver brings: a frame is appended to RX byte by byte
(20_memory.md R46), and a DECODE that waits for it goes on with it (R44). Whether it is accepted is DECODE's to say
(30_encoding.md R76, R85; log entry 15).
-/
namespace Sys2Proof.Machine

/-- A 32-byte frame arrives (R71). -/
def execFrame32 (fields : List Word) (checksum : Word) (s : State) : Outcome :=
  .next (deliver (frameBytes Config.sizeBase fields checksum) s)

/-- A 40-byte frame arrives (R71). -/
def execFrame40 (fields : List Word) (checksum : Word) (s : State) : Outcome :=
  .next (deliver (frameBytes Config.sizeEnvExt fields checksum) s)

/-- A 24-byte frame arrives (R71). -/
def execFrame24 (fields : List Word) (checksum : Word) (s : State) : Outcome :=
  .next (deliver (frameBytes Config.sizeReduced fields checksum) s)

end Sys2Proof.Machine
end

