-- ==== Sys2Proof/Machine/Dispatch.lean ====
section
/-!
DEFINITION. exec: one arm per instruction, each one direct call of its meaning.
-/
namespace Sys2Proof.Machine

def exec (i : Instr) (s : State) : Host.Outcome State Fault Refusal :=
  match i with
  | .init => Sys2Proof.Machine.execInit s
  | .config variant proj evmode even => Sys2Proof.Machine.execConfig variant proj evmode even s
  | .frameReady => Sys2Proof.Machine.execFrameReady s
  | .decode => Sys2Proof.Machine.execDecode s
  | .project => Sys2Proof.Machine.execProject s
  | .checkClear => Sys2Proof.Machine.execCheckClear s
  | .flush => Sys2Proof.Machine.execFlush s
  | .poll => Sys2Proof.Machine.execPoll s
  | .reserved0 => Sys2Proof.Machine.execReserved0 s
  | .reserved9 => Sys2Proof.Machine.execReserved9 s
  | .reservedAB lo => Sys2Proof.Machine.execReservedAB lo s
  | .reservedCF lo => Sys2Proof.Machine.execReservedCF lo s
  | .catalog v => Sys2Proof.Machine.execCatalog v s
  | .readU16 acc => Sys2Proof.Machine.execReadU16 acc s
  | .frame32 fields checksum => Sys2Proof.Machine.execFrame32 fields checksum s
  | .frame40 fields checksum => Sys2Proof.Machine.execFrame40 fields checksum s
  | .frame24 fields checksum => Sys2Proof.Machine.execFrame24 fields checksum s

end Sys2Proof.Machine
end

