-- ==== Sys2Proof/Machine/Fetch.lean ====
section
/-!
DEFINITION. What happens next: the script's oldest event, decoded (log entry 1).
-/
namespace Sys2Proof.Machine

/-- The next event as the step acts on it. -/
inductive Fetched where
  /-- nothing is scripted -/
  | nothing
  /-- an instruction: a command word (R80), or a chunk of the stream that is exactly one frame (R71) -/
  | instr (i : Instr) (s : State)
  /-- any other chunk of the stream (R85) -/
  | bytes (bs : List Byte) (s : State)
  /-- a reset (R230) -/
  | reset (s : State)

/-- Takes one encoded event. -/
def fetchEncoded (e : Encoding) (s : State) : Fetched :=
  match decode e with
  | .ok i => .instr i s
  | .error _ =>
    match e with
    | .cmd _ => .nothing
    | .stream bs => .bytes bs s

/-- Takes the oldest event off the script. -/
def fetch (s : State) : Fetched :=
  match s.script with
  | [] => .nothing
  | .cmd w :: rest => fetchEncoded (.cmd w) { s with script := rest }
  | .recv bs :: rest => fetchEncoded (.stream bs) { s with script := rest }
  | .reset :: rest => .reset { s with script := rest }

/-- The event that presents an encoding. -/
def eventOf : Encoding → Input
  | .cmd w => .cmd w
  | .stream bs => .recv bs

/-- An encoding placed where the next step takes its event from. -/
def place (e : Encoding) (s : State) : State := { s with script := eventOf e :: s.script }

/-- The opcode table's instruction `w` of `nbits` bits placed so. -/
def placeTableWord (s : State) (nbits w : Nat) : State :=
  match tableEncoding nbits w with
  | some e => place e s
  | none => s

end Sys2Proof.Machine
end

