-- ==== Sys2Proof/Machine/Step.lean ====
section
/-!
DEFINITION. One step: the next event of the script. A command word or a whole frame runs as its instruction; other bytes
are received; a reset resets. With nothing scripted, an operation in progress looks again for its byte and otherwise
nothing happens (70_reset_and_hazards.md R256).
-/
namespace Sys2Proof.Machine

def step (s : State) : Host.Outcome State Fault Refusal :=
  match fetch s with
  | .nothing => .next (resume s)
  | .instr i s => exec i s
  | .bytes bs s => .next (deliver bs s)
  | .reset s => .next (blockReset s)

/-- `s` with the opcode table's instruction `w` of `nbits` bits as its next event (log entry 1). -/
def State.withFetchWord (s : State) (nbits w : Nat) : State := placeTableWord s nbits w

end Sys2Proof.Machine
end

