-- ==== Sys2Proof/Safety.lean ====
section
/-!
DEFINITION. The terms that claims about the machine are stated in: premises on the environment, and the invariants of
states that runs reach.
-/
namespace Sys2Proof.Machine

/-- Between operations: no operation in progress, PHASE = IDLE, IDX = 0 (10_state.md R30). -/
abbrev State.Idle (s : State) : Prop :=
  s.job = .none ∧ s.phase = .idle ∧ s.idx = 0 ∧ s.latch = none

/-- The premise 'no byte arrives during an operation' (20_memory.md R46), and no reset in one either. -/
abbrev State.Quiet (s : State) : Prop := s.live = []

/-- The block is not reset in the middle of an operation (70_reset_and_hazards.md R231). -/
abbrev State.NoReset (s : State) : Prop := Gap.reset ∉ s.live

/-- RX takes whatever the receiver brings (20_memory.md R48: a model may take it unbounded). -/
abbrev State.Unbounded (s : State) : Prop := s.rxCapacity = none

/-- The block operates: INIT = 1 and the configured variant is supported (40_variant_catalog.md R102). -/
abbrev State.Operates (s : State) : Prop := s.init = true ∧ (configured s).size ≠ 0

/-- The bytes one gap brings. -/
def gapBytes : Gap → List Byte
  | .recv bs => bs
  | .reset => []

/-- The bytes that are still to arrive in gaps. -/
def toCome (s : State) : List Byte := s.live.flatMap gapBytes

/-- The sequencer is where an operation can be (10_state.md R30, R31): idle, or waiting in a READ_U16 of a DECODE that has
passed its first two tests. -/
def State.SequencerOk (s : State) : Prop :=
  match s.job with
  | .none => s.phase = .idle ∧ s.idx = 0 ∧ s.latch = none
  | .readU16 _ => s.phase = .idle ∧ s.idx = 0
  | .decode | .poll =>
    s.Operates ∧ s.fvalid = false ∧
      (((s.phase = .hdr ∨ s.phase = .len ∨ s.phase = .csum) ∧ s.idx = 0) ∨
        (s.phase = .field ∧ s.idx.toNat < (configured s).nf))

/-- A valid frame has the field count of a variant (10_state.md R12), and comes from an initialised block. -/
def State.FrameOk (s : State) : Prop :=
  s.fvalid = true → s.init = true ∧
    s.fcount.toNat ∈ [Config.nfBase, Config.nfCountExt, Config.nfEnvExt, Config.nfReduced]

/-- The life state (60_exceptions.md R220): INIT = 1 only after an INIT, and no new measurement without it (R187 (d)). -/
def State.LifeOk (s : State) : Prop :=
  (s.init = true → s.initDone = true) ∧ (s.valRcv = true → s.init = true)

/-- RX holds at most its capacity (20_memory.md R48), and an operation waits only on an empty RX with nothing more to
come in this operation (R44). -/
def State.QueueOk (s : State) : Prop :=
  (∀ c, s.rxCapacity = some c → s.rx.length ≤ c) ∧ (s.job ≠ .none → s.rx = [] ∧ s.live = [])

/-- The invariant of the machine. -/
def State.Inv (s : State) : Prop := s.SequencerOk ∧ s.FrameOk ∧ s.LifeOk ∧ s.QueueOk

/-- The greatest value of a byte. -/
def maxByte : Nat := 255

/-- The most that SUM can reach: the greatest bytes in the longest frame, its checksum field left out (R113). -/
def maxSum : Nat := (Config.sizeEnvExt - 2) * maxByte

/-- The most that SUM can be after `n` READ_U16s, of two bytes each (R111). -/
def maxSumAfter (n : Nat) : Nat := n * (2 * maxByte)

/-- How large SUM can be at each point of a DECODE (41_byte_reader.md R113): two bytes for each READ_U16 done so far, at
most `maxSum` at the end of a frame. -/
def State.SumOk (s : State) : Prop :=
  (∀ acc, s.job ≠ .readU16 acc) ∧ s.sum.toNat ≤ maxSum ∧
    (s.job ≠ .none → s.Operates ∧
      ((s.phase = .hdr ∧ s.sum = 0) ∨ (s.phase = .len ∧ s.sum.toNat ≤ maxSumAfter 1) ∨
        (s.phase = .field ∧ s.idx.toNat < (configured s).nf ∧ s.sum.toNat ≤ maxSumAfter (2 + s.idx.toNat)) ∨
        s.phase = .csum))

/-- The field registers that some operation may still read (10_state.md R13): those of the validated frame, and those that
the DECODE in progress has already written. -/
def State.Exposed (s : State) (j : Nat) : Prop :=
  (s.fvalid = true ∧ j < s.fcount.toNat) ∨
    (s.job ≠ .none ∧ ((s.phase = .field ∧ j < s.idx.toNat) ∨ (s.phase = .csum ∧ j < (configured s).nf)))

/-- Two states that differ at most in field registers that hold no value (10_state.md R13, R250). -/
def State.SameButHidden (s t : State) : Prop :=
  t = { s with f := t.f } ∧ ∀ j : Fin Config.maxFields, s.Exposed j.val → t.f.get j = s.f.get j

/-- `t` is `s` after a reset that fell into an operation (70_reset_and_hazards.md R231): every block register but F at its
reset value, RX as given, the gaps `later` still to come, everything outside the block as it was (log entry 21). -/
def State.ResetTo (s t : State) (rx : List Byte) (later : List Gap) : Prop :=
  ∃ f fresh, t = { State.reset with
    f := f, fresh := fresh, script := s.script, rx := rx, live := later, ret := s.ret, events := s.events
    transportPresent := s.transportPresent, rxCapacity := s.rxCapacity }

/-- `n` gaps in which nothing happens and then one in which the block is reset, before `later` (log entry 2). -/
abbrev State.ResetAfter (s : State) (n : Nat) (later : List Gap) : Prop :=
  s.live = List.replicate n (.recv []) ++ .reset :: later

end Sys2Proof.Machine
end

