-- ==== Sys2Proof/Certificates/Slice0/Obligations.lean ====
section
/-!
DEFINITION. The statements for the provers, each from a rule of spec/. 'The model's choice' in a docstring names what is
not the spec's own word, by log entry (notes/assumptions/<n>.md).
-/
open Sys2Proof Sys2Proof.Machine

section encoding

/-- 30_encoding.md R80, R81, R87, and the frame B1 of 95_test_vectors.md: a few words and what they decode to. -/
def Obligations.SampleWordsDecode : Prop :=
  decode (.cmd 0x1000#16) = .ok .init ∧
  decode (.cmd 0x2240#16) = .ok (.config 2 1 0 false) ∧
  decode (.cmd 0x2268#16) = .ok (.config 2 1 2 true) ∧
  decode (.cmd 0x8ABC#16) = .ok .poll ∧
  decode (.cmd 0xA123#16) = .ok (.reservedAB 0) ∧
  decode (.cmd 0xFFFF#16) = .ok (.reservedCF 3) ∧
  decode (.stream [0x42, 0x4D, 0x00, 0x1C, 0, 0, 0, 0, 0, 0, 0x00, 0x05, 0x00, 0x0A, 0x00, 0x14,
      0, 0, 0, 0, 0, 0, 0, 0, 0, 0, 0, 0, 0, 0, 0x00, 0xCE]) =
    .ok (.frame32 [0, 0, 0, 5, 10, 20, 0, 0, 0, 0, 0, 0, 0] 0xCE)

/-- 30_encoding.md sections 1 and 5: decoding what a well-formed instruction is encoded as gives it back, with every value
of every operand. -/
def Obligations.DecodeOfEncodeGivesTheInstruction : Prop :=
  ∀ (i : Instr) (e : Encoding), i.wellFormed = true → encode i = some e → decode e = .ok i

/-- 30_encoding.md sections 1 and 3: a chunk of the stream that decodes is exactly the bytes of a well-formed frame; no two
frames share their bytes. -/
def Obligations.DecodedChunkIsExactlyItsFrame : Prop :=
  ∀ (bs : List Byte) (i : Instr), decode (.stream bs) = .ok i →
    i.wellFormed = true ∧ encode i = some (.stream bs)

/-- 30_encoding.md sections 5 and 7, the match and mask columns: every word that a row's mask and match select decodes to
that row's instruction, whatever its ignored bits are; the operand of CONFIG is CMD[11:3]. -/
def Obligations.MatchAndMaskSelectTheInstruction : Prop :=
  ∀ w : Word,
    (w &&& 0xF000#16 = 0x0000#16 → decode (.cmd w) = .ok .reserved0) ∧
    (w &&& 0xF000#16 = 0x1000#16 → decode (.cmd w) = .ok .init) ∧
    (w &&& 0xF000#16 = 0x2000#16 → decode (.cmd w) =
      .ok (.config (w.extractLsb 11 8) (w.extractLsb 7 6) (w.extractLsb 5 4) (w.getLsbD 3))) ∧
    (w &&& 0xF000#16 = 0x3000#16 → decode (.cmd w) = .ok .frameReady) ∧
    (w &&& 0xF000#16 = 0x4000#16 → decode (.cmd w) = .ok .decode) ∧
    (w &&& 0xF000#16 = 0x5000#16 → decode (.cmd w) = .ok .project) ∧
    (w &&& 0xF000#16 = 0x6000#16 → decode (.cmd w) = .ok .checkClear) ∧
    (w &&& 0xF000#16 = 0x7000#16 → decode (.cmd w) = .ok .flush) ∧
    (w &&& 0xF000#16 = 0x8000#16 → decode (.cmd w) = .ok .poll) ∧
    (w &&& 0xF000#16 = 0x9000#16 → decode (.cmd w) = .ok .reserved9) ∧
    (w &&& 0xE000#16 = 0xA000#16 → ∃ lo, decode (.cmd w) = .ok (.reservedAB lo)) ∧
    (w &&& 0xC000#16 = 0xC000#16 → ∃ lo, decode (.cmd w) = .ok (.reservedCF lo))

/-- 30_encoding.md section 5, 'CATALOG and READ_U16 are internal': no encoding starts them, and every other instruction has
one. -/
def Obligations.OnlyInternalOperationsHaveNoEncoding : Prop :=
  (∀ e v, decode e ≠ .ok (.catalog v)) ∧ (∀ e acc, decode e ≠ .ok (.readU16 acc)) ∧
  (∀ i : Instr, encode i = none ↔ (∃ v, i = .catalog v) ∨ (∃ acc, i = .readU16 acc))

/-- 30_encoding.md section 1, the table of bytes, for a frame of any number of fields with size 6 + 2 * nf: the signature,
the declared length size - 4, field i at bytes 4 + 2 i and 5 + 2 i and the checksum in the last two bytes, each high byte
first. -/
def Obligations.FrameLayout : Prop :=
  ∀ (size : Nat) (fields : List Word) (checksum : Word), size = 6 + 2 * fields.length → size < 65536 →
    let bs := frameBytes size fields checksum
    bs.length = size ∧ bs[0]? = some 0x42 ∧ bs[1]? = some 0x4D ∧
    (∃ hi lo, bs[2]? = some hi ∧ bs[3]? = some lo ∧ hi.toNat * 256 + lo.toNat = size - 4) ∧
    (∀ i (h : i < fields.length), ∃ hi lo, bs[4 + 2 * i]? = some hi ∧ bs[5 + 2 * i]? = some lo ∧
      hi.toNat * 256 + lo.toNat = fields[i].toNat) ∧
    (∃ hi lo, bs[size - 2]? = some hi ∧ bs[size - 1]? = some lo ∧ hi.toNat * 256 + lo.toNat = checksum.toNat)

/-- 30_encoding.md R84 and 10_state.md R22: the codes of RESULT and the packing of STATUS, and that STATUS is 0 after
reset. The numbers are the spec's decisions D7 and D21. -/
def Obligations.StatusPacksFlagsAndResult : Prop :=
  (∀ s : State, (status s).getLsbD 0 = s.init ∧ (status s).getLsbD 1 = s.valRcv ∧ (status s).getLsbD 2 = s.fvalid ∧
    (status s).extractLsb' 3 3 = resultCode s.result ∧ (status s).extractLsb' 6 2 = 0) ∧
  resultCode .ok = 0 ∧ resultCode .notInitialized = 1 ∧ resultCode .notReady = 2 ∧ resultCode .framingMismatch = 3 ∧
  resultCode .invalidLength = 4 ∧ resultCode .checksumMismatch = 5 ∧ resultCode .callerError = 6 ∧
  status State.reset = 0

end encoding

section step

/-- A step runs the decoded instruction: when the next event of the script carries an encoding that decodes to i, the step is
exec of i with that event taken off the script. The script is the model's own (log entry 1). -/
def Obligations.StepRunsTheDecodedInstruction : Prop :=
  ∀ (s : State) (e : Encoding) (rest : List Input) (i : Instr),
    s.script = eventOf e :: rest → decode e = .ok i → step s = exec i { s with script := rest }

/-- 20_memory.md section 3: bytes that arrive between operations are appended to the tail of RX, whatever they are, and
nothing else changes; with nothing scripted nothing changes. The script is the model's own (log entry 1). -/
def Obligations.ArrivalBetweenOperationsOnlyAppends : Prop :=
  ∀ s : State, s.Idle → s.Unbounded →
    (s.script = [] → step s = .next s) ∧
    ∀ (bs : List Byte) (rest : List Input), s.script = .recv bs :: rest →
      step s = .next { s with script := rest, rx := s.rx ++ bs }

/-- 45_host_operations.md, duty 1 with no column 'if broken': a command word presented while an operation is in progress
stops the model. The model's choice (log entry 4). -/
def Obligations.CommandDuringAnOperationStops : Prop :=
  ∀ (s : State) (w : Word) (rest : List Input), s.job ≠ .none → s.script = .cmd w :: rest →
    step s = .fault .operationRunning

end step

section reset

/-- 10_state.md section 10 and 70_reset_and_hazards.md section 1 (decision D19): the values after reset. F, RX and the
environment's parameters are not in it: they are the model's choice (log entries 6, 8, 9, 10). -/
def Obligations.ResetValues : Prop :=
  let s := State.reset
  s.init = false ∧ s.initDone = false ∧ s.valRcv = false ∧ s.fvalid = false ∧ s.fcount = 0 ∧
  (∀ k : Fin Config.nSlots, s.out.get k = ⟨0, .by1⟩) ∧ s.sum = 0 ∧ s.sumRx = 0 ∧ s.diagLen = 0 ∧ s.result = .ok ∧
  s.cfgVariant = 0 ∧ s.cfgProj = 0 ∧ s.cfgEvMode = 0 ∧ s.cfgEvEn = false ∧ s.phase = .idle ∧ s.idx = 0

/-- 70_reset_and_hazards.md section 1 (decision D19): a reset event, at any time, also while an operation waits for a byte,
gives every block register but F its reset value and leaves RX and the environment alone. F is free (log entry 7); what lies
outside the block and is kept is log entry 21. -/
def Obligations.ResetEventResetsTheBlockOnly : Prop :=
  ∀ (s : State) (rest : List Input), s.script = .reset :: rest →
    ∃ t, step s = .next t ∧ ({ s with script := rest } : State).ResetTo t s.rx s.live

/-- 70_reset_and_hazards.md section 1 (decision D19): a reset before the primitive number n + 1 of a DECODE aborts it; the n
bytes already consumed stay consumed, nothing is flushed (also not after all SIZE bytes), and the block has its reset values.
For a frame of the configured variant, whole, cut off anywhere (so that the DECODE waits) or with bytes behind it; for a
header 42 4D with any declared length; for any bytes at all. That the reset comes in a gap of `live` is the model's choice
(log entry 2), as is what lies outside the block and is kept, `ret` and `events` among it (log entry 21). -/
def Obligations.ResetInsideDecodeKeepsConsumedBytes : Prop :=
  ∀ (s : State) (n : Nat) (later : List Gap), s.Idle → s.Operates → s.ResetAfter n later →
    ((∃ fields checksum tail m, fields.length = (configured s).nf ∧
        s.rx = (frameBytes (configured s).size fields checksum ++ tail).take m ∧ n ≤ (configured s).size) ∨
      (∃ rest, s.rx = 0x42 :: 0x4D :: rest ∧ n ≤ 3) ∨ n ≤ 1) →
    ∃ t, exec .decode s = .next t ∧ s.ResetTo t (s.rx.drop n) later

/-- 70_reset_and_hazards.md section 1 (decision D19): where a reset before the primitive number n + 1 leaves the other
operations that touch the transport. FLUSH has flushed nothing; READ_U16 has taken n bytes; FRAME_READY has taken as many
bytes of the garbage as its primitives so far removed (one in three, after the first count), at most all of it; POLL the same
while it scans, and then the garbage and one byte for each further primitive, until DECODE or the flush would end. The
primitives are counted by the spec's pseudocode; the gaps are the model's (log entry 2), as is what is kept (log entry 21). -/
def Obligations.ResetInsideTheOtherOperations : Prop :=
  ∀ (s : State) (n : Nat) (later : List Gap), s.Idle → s.ResetAfter n later →
    (s.init = true → n = 0 → ∃ t, exec .flush s = .next t ∧ s.ResetTo t s.rx later) ∧
    (∀ acc, n ≤ 1 → ∃ t, exec (.readU16 acc) s = .next t ∧ s.ResetTo t (s.rx.drop n) later) ∧
    (s.Operates → ∀ garbage rest : List Byte, s.rx = garbage ++ rest → (0x42 : Byte) ∉ garbage →
      (rest.head? = some 0x42 ∧ n ≤ 3 * garbage.length + 3 ∨
        rest = [] ∧ (n ≤ 3 * garbage.length + 2 ∧ garbage ≠ [] ∨ n = 0) →
        ∀ i ∈ [Instr.frameReady, .poll],
          ∃ t, exec i s = .next t ∧ s.ResetTo t (s.rx.drop (min garbage.length ((n - 1) / 3))) later) ∧
      ∀ k, n = 3 * garbage.length + 4 + k → (configured s).size ≤ rest.length →
        ((∃ fields checksum tail, fields.length = (configured s).nf ∧
            rest = frameBytes (configured s).size fields checksum ++ tail ∧ k ≤ (configured s).size) ∨
          (∃ tail, rest = 0x42 :: 0x4D :: tail ∧ k ≤ 4) ∨ (rest.head? = some 0x42 ∧ k ≤ 1)) →
        ∃ t, exec .poll s = .next t ∧ s.ResetTo t (s.rx.drop (garbage.length + k)) later)

/-- 70_reset_and_hazards.md section 1 (decision D19), over every instruction, all contents of RX and all arrivals: an
operation with a reset to come has either ended before it, with the reset still to come, or was aborted by it; then the block
has its reset values, and of the bytes that were there or had arrived only a run at the head is gone, no longer than the
number of gaps before the reset: each byte was taken by a read of its own, after a gap of its own, and nothing was flushed.
The gaps are the model's choice (log entry 2), as is what lies outside the block and is kept (log entry 21). -/
def Obligations.ResetAbortsWithoutAFlush : Prop :=
  ∀ (i : Instr) (s t : State) (before later : List Gap), s.Idle → s.Unbounded → Gap.reset ∉ before →
    s.live = before ++ .reset :: later → exec i s = .next t →
    (∃ left, t.live = left ++ .reset :: later ∧ left <:+ before) ∨
    (∃ gone, s.rx ++ before.flatMap gapBytes = gone ++ t.rx ∧ gone.length ≤ before.length ∧ s.ResetTo t t.rx later)

end reset

section invariants

/-- The invariant of Safety.lean holds after reset. The queue part rests on the model's choice of RX at reset (log entry
8). -/
def Obligations.InvariantAtReset : Prop := State.reset.Inv

/-- 10_state.md R12, R30, R31, 20_memory.md R44, R48, 60_exceptions.md section 6: every step keeps the invariant (where the
sequencer can be, that a valid frame has the field count of a format and belongs to an initialised block, that VALRCV needs
INIT and INIT needs INITDONE, that RX respects its capacity and that an operation waits only on an empty RX). -/
def Obligations.StepKeepsInvariant : Prop :=
  ∀ s t : State, s.Inv → step s = .next t → t.Inv

/-- 41_byte_reader.md, 'No overflow occurs in practice': the sum of a DECODE never exceeds 9690, so it never wraps; every
step keeps the bound, also for a DECODE that waits for bytes half way. -/
def Obligations.StepKeepsSumBound : Prop :=
  ∀ s t : State, s.SumOk → step s = .next t → t.SumOk

/-- The bound on SUM holds after reset, and it is 9690 (41_byte_reader.md, 'No overflow occurs in practice'). -/
def Obligations.SumBoundAtReset : Prop := State.reset.SumOk ∧ maxSum = 9690

/-- 10_state.md R13 and 70_reset_and_hazards.md R250, as isolation: two states that differ at most in field registers that
hold no value run alike: same outcome, and the next states again differ at most there. So nothing that the block does ever
depends on F after reset, after a failed DECODE, or beyond FCOUNT. -/
def Obligations.HiddenFieldsNeverMatter : Prop :=
  ∀ s t : State, s.Inv → s.SameButHidden t →
    match step s with
    | .next s' => ∃ t', step t = .next t' ∧ s'.SameButHidden t'
    | .fault r => step t = .fault r
    | .refused r => step t = .refused r

end invariants

section catalog

/-- 40_variant_catalog.md, the table of CATALOG and its laws, with the spec's decisions D3 (codes) and D4 (capability flags;
hasCounts of ENV_EXT is the open parameter CAP_COUNTS_ENV_EXT at its default, log entry 13): the four supported variants, and
that CATALOG changes nothing but what it delivers (log entries 5 and 16). -/
def Obligations.CatalogOfSupportedVariants : Prop :=
  (∀ s : State,
    exec (.catalog 0) s = .next { s with ret := some (.entry ⟨32, 13, false, false⟩) } ∧
    exec (.catalog 1) s = .next { s with ret := some (.entry ⟨32, 13, true, false⟩) } ∧
    exec (.catalog 2) s = .next { s with ret := some (.entry ⟨40, 17, true, true⟩) } ∧
    exec (.catalog 3) s = .next { s with ret := some (.entry ⟨24, 9, false, false⟩) }) ∧
  ∀ v : BitVec 4, v.toNat < 4 →
    (catalog v).size = 6 + 2 * (catalog v).nf ∧ 9 ≤ (catalog v).nf ∧ (catalog v).nf ≤ 17 ∧
    ((catalog v).hasCounts = true → 12 ≤ (catalog v).nf) ∧ ((catalog v).hasEnv = true → 15 ≤ (catalog v).nf)

/-- 40_variant_catalog.md R102: the zero-size sentinel for the codes 4 to 15, and for no other. What CATALOG delivers is held
in `ret` (log entry 5). -/
def Obligations.CatalogSentinel : Prop :=
  ∀ (v : BitVec 4) (s : State),
    (4 ≤ v.toNat → exec (.catalog v) s = .next { s with ret := some (.entry ⟨0, 0, false, false⟩) }) ∧
    (v.toNat < 4 → ∃ e, exec (.catalog v) s = .next { s with ret := some (.entry e) } ∧ e.size ≠ 0)

end catalog

section reader

/-- 41_byte_reader.md R110: no encoding; the big-endian value of the next two bytes, the sum of the two bytes added modulo 2^16 when acc =
1 and SUM untouched when acc = 0, nothing else of the block changed; with fewer bytes it holds, the first byte removed and not
yet added. What it delivers is held in `ret`, an unfinished one in `job` and `latch` (log entries 3, 5, 16). -/
def Obligations.ReadU16ReadsBigEndianAndAccumulatesBytes : Prop :=
  ∀ (s : State) (acc : Bool), s.Idle → s.Quiet → encode (.readU16 acc) = none ∧
    (∀ hi lo rest, s.rx = hi :: lo :: rest →
      exec (.readU16 acc) s = .next { s with
        rx := rest
        sum := if acc then BitVec.ofNat 16 (s.sum.toNat + hi.toNat + lo.toNat) else s.sum
        ret := some (.value (BitVec.ofNat 16 (hi.toNat * 256 + lo.toNat))) }) ∧
    (∀ hi, s.rx = [hi] →
      exec (.readU16 acc) s = .next { s with rx := [], job := .readU16 acc, latch := some hi }) ∧
    (s.rx = [] → exec (.readU16 acc) s = .next { s with job := .readU16 acc })

/-- 20_memory.md, the hold (decision D9), and vector V-RD8: a READ_U16 that waits for its second byte completes with the byte
that arrives, and the bytes behind it stay in RX. -/
def Obligations.HeldReadCompletesWithTheArrivingByte : Prop :=
  ∀ (s : State) (acc : Bool) (hi lo : Byte) (more : List Byte) (rest : List Input),
    s.job = .readU16 acc → s.phase = .idle → s.idx = 0 → s.latch = some hi → s.rx = [] → s.Quiet → s.Unbounded →
    s.script = .recv (lo :: more) :: rest →
    step s = .next { s with
      script := rest, rx := more, job := .none, latch := none
      sum := if acc then BitVec.ofNat 16 (s.sum.toNat + hi.toNat + lo.toNat) else s.sum
      ret := some (.value (BitVec.ofNat 16 (hi.toNat * 256 + lo.toNat))) }

end reader

section synchronizer

/-- 42_frame_synchronizer.md R120, R121, R123, R127, when nothing arrives during the operation: with INIT = 0 and with an
unsupported variant nothing is touched; otherwise exactly the bytes before the first 0x42 are removed and ready says whether
SIZE bytes remain. Nothing else changes. The bit ready is held in `ret` (log entry 5). -/
def Obligations.FrameReadyScansToTheSignature : Prop :=
  ∀ s : State, s.Idle →
    (s.init = false → exec .frameReady s = .next { s with result := .notInitialized, ret := some (.ready false) }) ∧
    (s.init = true → (configured s).size = 0 →
      exec .frameReady s = .next { s with result := .callerError, ret := some (.ready false) }) ∧
    (s.Operates → s.Quiet →
      let rx := s.rx.dropWhile (fun b => decide (b ≠ 0x42))
      (rx.length < (configured s).size →
        exec .frameReady s = .next { s with rx := rx, result := .notReady, ret := some (.ready false) }) ∧
      ((configured s).size ≤ rx.length →
        exec .frameReady s = .next { s with rx := rx, result := .ok, ret := some (.ready true) }))

/-- 42_frame_synchronizer.md R122, R124, R125, R128, for every way in which bytes arrive during the operation: it completes and
never holds; what it removes is a run of bytes at the head, none of them 0x42; it reports ready only with SIZE bytes present
and 0x42 at the head; only RX, RESULT and what it delivers change. That the head is 0x42 also where bytes arrived between the
end of the loop and the count of step 3 is log entry 17; the delivered bit is log entry 5, the gaps log entry 2. -/
def Obligations.FrameReadyUnderArrivals : Prop :=
  ∀ s : State, s.Idle → s.Operates → s.NoReset → s.Unbounded →
    ∃ (t : State) (gone arrived : List Byte), exec .frameReady s = .next t ∧
      s.rx ++ arrived = gone ++ t.rx ∧ arrived ++ toCome t = toCome s ∧ (0x42 : Byte) ∉ gone ∧
      (t.result = .ok ∧ (configured s).size ≤ t.rx.length ∧ t.rx.head? = some 0x42 ∨ t.result = .notReady) ∧
      t = { s with rx := t.rx, live := t.live, result := t.result, ret := some (.ready (decide (t.result = .ok))) }

/-- 42_frame_synchronizer.md, what the scan guarantees: garbage without 0x42 before a 0x42 is removed exactly, and a second
FRAME_READY removes nothing and answers the same. -/
def Obligations.GarbageIsDiscardedExactlyOnce : Prop :=
  ∀ (s : State) (garbage tail : List Byte), s.Idle → s.Operates → s.Quiet →
    s.rx = garbage ++ 0x42 :: tail → (0x42 : Byte) ∉ garbage →
    ∃ t : State, exec .frameReady s = .next t ∧ t.rx = 0x42 :: tail ∧ exec .frameReady t = .next t ∧
      (t.ret = some (.ready true) ↔ (configured s).size ≤ tail.length + 1)

/-- 70_reset_and_hazards.md, receiver overrun: with a capacity below SIZE, FRAME_READY never reports ready, however bytes
arrive. What an overrun leaves in RX is free, its number of bytes too, within the capacity (log entry 10). -/
def Obligations.TooSmallACapacityIsNeverReady : Prop :=
  ∀ (s : State) (c : Nat), s.Idle → s.Operates → s.NoReset → s.rxCapacity = some c → s.rx.length ≤ c →
    c < (configured s).size →
    ∃ t : State, exec .frameReady s = .next t ∧ t.result = .notReady ∧ t.ret = some (.ready false)

/-- 40_variant_catalog.md, what callers do with the sentinel (decision D8): under an unsupported variant code FRAME_READY,
DECODE, PROJECT and POLL change nothing but RESULT, whatever is to arrive. -/
def Obligations.UnsupportedVariantTouchesNothing : Prop :=
  ∀ s : State, s.Idle → s.init = true → 4 ≤ s.cfgVariant.toNat →
    exec .frameReady s = .next { s with result := .callerError, ret := some (.ready false) } ∧
    ∀ i ∈ [Instr.decode, .project, .poll], exec i s = .next { s with result := .callerError }

end synchronizer

section decoder

/-- 43_frame_decoder.md R144. -/
def Obligations.DecodeTestsThatTouchNothing : Prop :=
  ∀ s : State, s.Idle →
    (s.init = false → exec .decode s = .next { s with result := .notInitialized }) ∧
    (s.init = true → (configured s).size = 0 → exec .decode s = .next { s with result := .callerError })

/-- 43_frame_decoder.md R137: any two bytes that are not 42 4D end DECODE with FramingMismatch; exactly they are gone, SUM is
their sum, FVALID = 0, everything else is unchanged. -/
def Obligations.DecodeFramingMismatch : Prop :=
  ∀ (s : State) (b0 b1 : Byte) (rest : List Byte), s.Idle → s.Operates → s.Quiet →
    s.rx = b0 :: b1 :: rest → ¬ (b0 = 0x42 ∧ b1 = 0x4D) →
    exec .decode s = .next { s with
      rx := rest, sum := BitVec.ofNat 16 (b0.toNat + b1.toNat), fvalid := false, result := .framingMismatch }

/-- 60_exceptions.md R205: a declared length other than SIZE - 4 ends DECODE with InvalidLength whatever follows it: four
bytes consumed, no flush, DIAG_LEN the declared length, FVALID = 0; POLL, which finds the frame ready, then flushes. Everything
else is unchanged. -/
def Obligations.InvalidLengthInDecodeAndPoll : Prop :=
  ∀ (s : State) (l0 l1 : Byte) (rest : List Byte), s.Idle → s.Operates → s.Quiet →
    s.rx = 0x42 :: 0x4D :: l0 :: l1 :: rest → l0.toNat * 256 + l1.toNat ≠ (configured s).size - 4 →
    exec .decode s = .next { s with
      rx := rest, sum := BitVec.ofNat 16 (143 + l0.toNat + l1.toNat), fvalid := false
      diagLen := BitVec.ofNat 16 (l0.toNat * 256 + l1.toNat), result := .invalidLength } ∧
    ((configured s).size ≤ s.rx.length →
      exec .poll s = .next { s with
        rx := [], sum := BitVec.ofNat 16 (143 + l0.toNat + l1.toNat), fvalid := false
        diagLen := BitVec.ofNat 16 (l0.toNat * 256 + l1.toNat), result := .invalidLength })

/-- 43_frame_decoder.md R139, R140, R141, R142 for a frame of the configured variant whose checksum field is the sum of all
bytes before it: F[0..nf-1] are its fields and the other F unchanged, SUM and SUMRX the checksum, RX flushed (whatever lay
behind the frame), FVALID, FCOUNT, VALRCV and RESULT as for success; OUT and everything else unchanged. -/
def Obligations.DecodeAcceptsAGoodFrame : Prop :=
  ∀ (s : State) (fields : List Word) (checksum : Word) (tail : List Byte), s.Idle → s.Operates → s.Quiet →
    fields.length = (configured s).nf →
    s.rx = frameBytes (configured s).size fields checksum ++ tail →
    checksum = BitVec.ofNat 16 ((s.rx.take ((configured s).size - 2)).map BitVec.toNat).sum →
    ∃ f, exec .decode s = .next { s with
        f := f, rx := [], sum := checksum, sumRx := checksum, fvalid := true
        fcount := BitVec.ofNat 5 (configured s).nf, valRcv := true, result := .ok } ∧
      ∀ i : Fin Config.maxFields, f.get i = if h : i.val < fields.length then fields[i.val] else s.f.get i

/-- 60_exceptions.md R207: the same frame with any other checksum field ends with ChecksumMismatch: SIZE bytes consumed, RX
flushed, F[0..nf-1] the rejected data, FVALID = 0, SUM and SUMRX the two sums; VALRCV, FCOUNT, OUT and everything else are
unchanged. -/
def Obligations.DecodeChecksumMismatch : Prop :=
  ∀ (s : State) (fields : List Word) (checksum : Word) (tail : List Byte), s.Idle → s.Operates → s.Quiet →
    fields.length = (configured s).nf →
    s.rx = frameBytes (configured s).size fields checksum ++ tail →
    checksum ≠ BitVec.ofNat 16 ((s.rx.take ((configured s).size - 2)).map BitVec.toNat).sum →
    ∃ f, exec .decode s = .next { s with
        f := f, rx := [], sum := BitVec.ofNat 16 ((s.rx.take ((configured s).size - 2)).map BitVec.toNat).sum
        sumRx := checksum, fvalid := false, result := .checksumMismatch } ∧
      ∀ i : Fin Config.maxFields, f.get i = if h : i.val < fields.length then fields[i.val] else s.f.get i

/-- 60_exceptions.md R221, both properties of the source, and 43_frame_decoder.md, the detection law of single bits. A declared
length other than SIZE - 4 always yields InvalidLength, whatever follows it. A frame that is accepted, changed in any one bit,
is never accepted: a bit of a data field or of the checksum field gives ChecksumMismatch, of the declared length
InvalidLength, of the signature FramingMismatch; VALRCV and OUT stay as before. -/
def Obligations.LengthErrorsAndSingleBitErrorsAreCaught : Prop :=
  ∀ s : State, s.Idle → s.Operates → s.Quiet →
    (∀ l0 l1 rest, s.rx = 0x42 :: 0x4D :: l0 :: l1 :: rest → l0.toNat * 256 + l1.toNat ≠ (configured s).size - 4 →
      ∃ t, exec .decode s = .next t ∧ t.result = .invalidLength ∧ t.out = s.out ∧ t.valRcv = s.valRcv) ∧
    (∀ t, exec .decode s = .next t → t.result = .ok → t.job = .none →
      ∀ (p : Nat) (h : p < s.rx.length) (k : Nat), p < (configured s).size → k < 8 →
        ∃ u, exec .decode { s with rx := s.rx.set p (s.rx[p] ^^^ (1#8 <<< k)) } = .next u ∧
          u.result = (if p < 2 then .framingMismatch else if p < 4 then .invalidLength else .checksumMismatch) ∧
          u.fvalid = false ∧ u.valRcv = s.valRcv ∧ u.out = s.out)

/-- 43_frame_decoder.md, what the checksum does not detect: exchanging the two bytes of one field of an accepted frame gives
a frame that is accepted too. -/
def Obligations.ExchangedBytesAreNotDetected : Prop :=
  ∀ (s : State) (fields : List Word) (checksum : Word) (i : Nat) (h : i < fields.length) (t : State),
    s.Idle → s.Operates → s.Quiet → fields.length = (configured s).nf →
    s.rx = frameBytes (configured s).size fields checksum → exec .decode s = .next t → t.result = .ok → t.job = .none →
    ∃ u, exec .decode { s with
          rx := frameBytes (configured s).size
            (fields.set i (fields[i].extractLsb' 0 8 ++ fields[i].extractLsb' 8 8)) checksum } = .next u ∧
      u.result = .ok ∧ u.valRcv = true ∧ u.sum = t.sum

/-- 20_memory.md, the hold (decision D9), and 43_frame_decoder.md R136: a DECODE that runs out of bytes waits, and when the
rest arrives it ends exactly as if all bytes had been there from the start, wherever the stream was cut. How it waits is the
model's choice (log entry 3), and that bytes behind the frame in the same delivery are flushed with it is log entry 15. -/
def Obligations.DecodeGoesOnWhereItWaited : Prop :=
  ∀ (s t : State) (first more : List Byte), s.Idle → s.Quiet → s.Unbounded → s.rx = first →
    exec .decode s = .next t → t.job ≠ .none →
    exec .decode { s with rx := first ++ more } = .next (deliver more t)

/-- 20_memory.md, monotonic availability: with SIZE bytes in RX at its start a DECODE never holds, and bytes that arrive while
it runs change nothing of what it does: every register ends as if nothing had arrived. -/
def Obligations.ArrivalsDuringDecodeChangeNoRegister : Prop :=
  ∀ s : State, s.Idle → s.Operates → s.NoReset → s.Unbounded → (configured s).size ≤ s.rx.length →
    ∃ t u : State, exec .decode s = .next t ∧ exec .decode { s with live := [] } = .next u ∧ t.Idle ∧
      t = { u with rx := t.rx, live := t.live }

end decoder

section multiplexer

/-- 44_field_multiplexer.md R162: MASS under every supported variant. What is notified is left open (log entry 14). -/
def Obligations.ProjectMass : Prop :=
  ∀ s : State, s.Idle → s.Operates → s.fvalid = true → s.cfgProj = 0 →
    ∃ events, exec .project s = .next { s with
        out := #v[⟨s.f[3], .by1⟩, ⟨s.f[4], .by1⟩, ⟨s.f[5], .by1⟩, ⟨0, .by1⟩]
        result := .ok, events := s.events ++ events } ∧
      slotValue ⟨0, .by1⟩ = 0 ∧ (∀ x : Word, slotValue ⟨x, .by1⟩ = x.toNat)

/-- 44_field_multiplexer.md R163: ENV under the variant with environmental fields, with the values of the four slots as exact
rationals; and its refusal under every other variant, with nothing else changed, which is the spec's decision D15. What is
notified is left open (log entry 14). -/
def Obligations.ProjectEnv : Prop :=
  ∀ s : State, s.Idle → s.init = true → s.cfgProj = 1 →
    (s.cfgVariant = 2 → s.fvalid = true → 15 ≤ s.fcount.toNat →
      ∃ events out, exec .project s = .next { s with out := out, result := .ok, events := s.events ++ events } ∧
        slotValue out[0] = s.f[4].toNat ∧ slotValue out[1] = s.f[13].toNat / 10 ∧
        slotValue out[2] = s.f[14].toNat / 10 ∧ slotValue out[3] = s.f[12].toNat / 1000) ∧
    (s.cfgVariant ≠ 2 → exec .project s = .next { s with result := .callerError })

/-- 44_field_multiplexer.md, COUNT under the variants with counts. That the four fields are 8 to 11 is the parameter COUNT_IDX,
from general knowledge (log entry 12); that ENV_EXT has counts is CAP_COUNTS_ENV_EXT (log entry 13). What is notified is left
open (log entry 14). -/
def Obligations.ProjectCount : Prop :=
  ∀ s : State, s.Idle → s.init = true → (s.cfgVariant = 1 ∨ s.cfgVariant = 2) → s.fvalid = true → 11 < s.fcount.toNat →
    s.cfgProj = 2 →
    ∃ events, exec .project s = .next { s with
        out := #v[⟨s.f[8], .by1⟩, ⟨s.f[9], .by1⟩, ⟨s.f[10], .by1⟩, ⟨s.f[11], .by1⟩]
        result := .ok, events := s.events ++ events }

/-- 44_field_multiplexer.md, refusals (decision D15): every case in which PROJECT ends with CallerError and nothing but RESULT
changes. -/
def Obligations.ProjectRefusals : Prop :=
  ∀ s : State, s.Idle → s.init = true →
    (4 ≤ s.cfgVariant.toNat ∨ s.fvalid = false ∨
      (s.cfgProj = 1 ∧ (s.cfgVariant ≠ 2 ∨ s.fcount.toNat < 15)) ∨
      (s.cfgProj = 2 ∧ (s.cfgVariant = 0 ∨ s.cfgVariant = 3 ∨ s.fcount.toNat ≤ 11)) ∨ s.cfgProj = 3) →
    exec .project s = .next { s with result := .callerError }

/-- 44_field_multiplexer.md, the constraints on every EVENT_SET: what one PROJECT adds to the notifications is nothing unless
enabled, in a mode other than none (code 3 is read as none) and validated; no count without hasCounts or outside mode
basic+counts, no environmental value without hasEnv; each value is the field with its divisor. That a PROJECT which does not
end OK adds nothing is the refusals' 'writing nothing but RESULT' (decision D15); that no field beyond FCOUNT and neither field
15 nor 16 is notified rests on 10_state.md section 2 and 30_encoding.md section 2 and is DEDUCED (log entry 14). -/
def Obligations.EventsMeetTheirConstraints : Prop :=
  ∀ s t : State, s.Idle → exec .project s = .next t →
    ∃ new, t.events = s.events ++ new ∧
      (s.cfgEvEn = false ∨ s.cfgEvMode = 0 ∨ s.cfgEvMode = 3 ∨ s.fvalid = false ∨ t.result ≠ .ok → new = []) ∧
      ∀ n ∈ new, ∃ i : Fin Config.maxFields, n.field = i.val ∧ i.val < 15 ∧ i.val < s.fcount.toNat ∧
        (6 ≤ i.val ∧ i.val ≤ 11 → (configured s).hasCounts = true ∧ s.cfgEvMode = 2) ∧
        (12 ≤ i.val → (configured s).hasEnv = true) ∧
        slotValue n.value =
          (s.f.get i).toNat / (if i.val = 12 then 1000 else if i.val = 13 ∨ i.val = 14 then 10 else 1)

end multiplexer

section host

/-- 45_host_operations.md R180: the first INIT attaches the transport if it is present; a later one reports the standing
outcome; no other state changes. -/
def Obligations.InitAttachesOnce : Prop :=
  ∀ s : State, s.Idle →
    (s.initDone = false → s.transportPresent = true →
      exec .init s = .next { s with initDone := true, init := true, result := .ok }) ∧
    (s.initDone = false → s.transportPresent = false →
      exec .init s = .next { s with initDone := true, init := false, result := .notInitialized }) ∧
    (s.initDone = true → s.init = true → exec .init s = .next { s with result := .ok }) ∧
    (s.initDone = true → s.init = false → exec .init s = .next { s with result := .notInitialized })

/-- 45_host_operations.md R183: CONFIG stores its four operands and ends OK whatever the codes are and whatever INIT is;
nothing else changes. -/
def Obligations.ConfigStoresItsOperands : Prop :=
  ∀ (s : State) (variant : BitVec 4) (proj evmode : BitVec 2) (even : Bool), s.Idle →
    exec (.config variant proj evmode even) s = .next { s with
      cfgVariant := variant, cfgProj := proj, cfgEvMode := evmode, cfgEvEn := even, result := .ok }

/-- 45_host_operations.md R186: CHECK_CLEAR returns VALRCV and clears it; with INIT = 0 it returns 0 and changes nothing but
RESULT. The returned bit is held in `ret` (log entry 5). -/
def Obligations.CheckClearReadsAndClears : Prop :=
  ∀ s : State, s.Idle →
    (s.init = true → exec .checkClear s =
      .next { s with valRcv := false, result := .ok, ret := some (.received s.valRcv) }) ∧
    (s.init = false → exec .checkClear s =
      .next { s with result := .notInitialized, ret := some (.received false) })

/-- 45_host_operations.md, FLUSH (decision D18), and 20_memory.md R45: RX is empty after it, also of bytes that arrived just
before it; bytes still to come are kept; nothing else changes. -/
def Obligations.FlushEmptiesRx : Prop :=
  ∀ s : State, s.Idle →
    (s.init = false → exec .flush s = .next { s with result := .notInitialized }) ∧
    (s.init = true → s.NoReset → s.Unbounded →
      exec .flush s = .next { s with rx := [], live := s.live.tail, result := .ok })

/-- 30_encoding.md, the reserved opcodes (decision D24): RESULT <- CallerError and nothing else, whatever INIT is. -/
def Obligations.ReservedOpcodesOnlySetCallerError : Prop :=
  ∀ s : State, s.Idle →
    exec .reserved0 s = .next { s with result := .callerError } ∧
    exec .reserved9 s = .next { s with result := .callerError } ∧
    (∀ lo, exec (.reservedAB lo) s = .next { s with result := .callerError }) ∧
    (∀ lo, exec (.reservedCF lo) s = .next { s with result := .callerError })

/-- 60_exceptions.md, NotInitialized (decision D27): with INIT = 0 every operation but INIT and CONFIG is a no-op that changes
nothing but RESULT, whatever is to arrive. The bits that FRAME_READY and CHECK_CLEAR return are held in `ret`. -/
def Obligations.NotInitializedTouchesNothing : Prop :=
  ∀ s : State, s.Idle → s.init = false →
    (∀ i ∈ [Instr.decode, .project, .flush, .poll], exec i s = .next { s with result := .notInitialized }) ∧
    exec .frameReady s = .next { s with result := .notInitialized, ret := some (.ready false) } ∧
    exec .checkClear s = .next { s with result := .notInitialized, ret := some (.received false) }

end host

section poll

/-- 44_field_multiplexer.md, the law of POLL: garbage without 0x42, then a good frame of the configured variant, then anything:
POLL under a permitted projection ends OK with the frame in F, the slots as the mapping gives, VALRCV = 1 and RX empty. COUNT
rests on COUNT_IDX (log entry 12) and on CAP_COUNTS_ENV_EXT (log entry 13). -/
def Obligations.PollDeliversAGoodFrame : Prop :=
  ∀ (s : State) (garbage tail : List Byte) (fields : List Word) (checksum : Word),
    s.Idle → s.Operates → s.Quiet → (0x42 : Byte) ∉ garbage → fields.length = (configured s).nf →
    s.rx = garbage ++ frameBytes (configured s).size fields checksum ++ tail →
    checksum = BitVec.ofNat 16
      (((frameBytes (configured s).size fields checksum).take ((configured s).size - 2)).map BitVec.toNat).sum →
    (s.cfgProj = 0 ∨ (s.cfgProj = 1 ∧ (configured s).hasEnv = true) ∨ (s.cfgProj = 2 ∧ (configured s).hasCounts = true)) →
    ∃ t, exec .poll s = .next t ∧ t.result = .ok ∧ t.rx = [] ∧ t.valRcv = true ∧ t.fvalid = true ∧
      t.fcount.toNat = fields.length ∧ (∀ i (h : i < Config.maxFields), i < fields.length → some t.f[i] = fields[i]?) ∧
      t.out.toList.map some =
        if s.cfgProj = 0 then
          [fields[3]?.map (⟨·, .by1⟩), fields[4]?.map (⟨·, .by1⟩), fields[5]?.map (⟨·, .by1⟩), some ⟨0, .by1⟩]
        else if s.cfgProj = 1 then
          [fields[4]?.map (⟨·, .by1⟩), fields[13]?.map (⟨·, .by10⟩), fields[14]?.map (⟨·, .by10⟩),
            fields[12]?.map (⟨·, .by1000⟩)]
        else
          [fields[8]?.map (⟨·, .by1⟩), fields[9]?.map (⟨·, .by1⟩), fields[10]?.map (⟨·, .by1⟩),
            fields[11]?.map (⟨·, .by1⟩)]

/-- 45_host_operations.md, the pseudocode of POLL (decision D18), as a refinement: one POLL is FRAME_READY, then DECODE if it
was ready, then FLUSH after InvalidLength (with that result kept) or PROJECT after OK, for every way in which bytes arrive
meanwhile, overruns among them; only the bit that FRAME_READY would return is not delivered, which is the model's choice (log
entry 5). A reset inside a POLL is another statement's matter. -/
def Obligations.PollIsItsParts : Prop :=
  ∀ s : State, s.Idle → s.NoReset →
    ∃ t u : State, exec .frameReady s = .next t ∧
      (t.result ≠ .ok → exec .poll s = .next { t with ret := s.ret }) ∧
      (t.result = .ok → exec .decode { t with ret := s.ret } = .next u ∧
        (u.result = .invalidLength →
          ∃ v, exec .flush u = .next v ∧ exec .poll s = .next { v with result := .invalidLength }) ∧
        (u.result = .ok → exec .poll s = exec .project u) ∧
        (u.result ≠ .ok → u.result ≠ .invalidLength → exec .poll s = .next u))

/-- 45_host_operations.md, POLL discharges the duty of DECODE by construction (43_frame_decoder.md R136, 20_memory.md R47):
however bytes arrive and whenever a reset comes, and even with overruns, a POLL runs to its end and never waits. That this
holds with overruns rests on 20_memory.md, monotonic availability, which log entry 10 takes to hold for an overrun too. -/
def Obligations.PollNeverHolds : Prop :=
  ∀ s : State, s.Idle →
    ∃ t : State, exec .poll s = .next t ∧ t.Idle

/-- 45_host_operations.md R191, on a ready candidate frame: after a second byte other than 0x4D POLL does not flush, the bytes
after the two consumed stay; in every other case RX is empty after it. -/
def Obligations.PollFlushesButAfterFramingMismatch : Prop :=
  ∀ (s : State) (b1 : Byte) (rest : List Byte), s.Idle → s.Operates → s.Quiet →
    s.rx = 0x42 :: b1 :: rest → (configured s).size ≤ s.rx.length →
    (b1 ≠ 0x4D → exec .poll s = .next { s with
      rx := rest, sum := BitVec.ofNat 16 (0x42 + b1.toNat), fvalid := false, result := .framingMismatch }) ∧
    (b1 = 0x4D → ∃ t, exec .poll s = .next t ∧ t.rx = [] ∧ t.result ≠ .framingMismatch)

/-- 60_exceptions.md R203: with fewer than SIZE bytes from the first 0x42 on, FRAME_READY and POLL end with NotReady; the
bytes before it stay discarded, nothing else changes. -/
def Obligations.NotReadyDiscardsOnlyGarbage : Prop :=
  ∀ s : State, s.Idle → s.Operates → s.Quiet →
    (s.rx.dropWhile (fun b => decide (b ≠ 0x42))).length < (configured s).size →
    exec .poll s = .next { s with rx := s.rx.dropWhile (fun b => decide (b ≠ 0x42)), result := .notReady } ∧
    exec .frameReady s = .next { s with
      rx := s.rx.dropWhile (fun b => decide (b ≠ 0x42)), result := .notReady, ret := some (.ready false) }

end poll

section wire

/-- 30_encoding.md sections 1 and 3, 20_memory.md section 3: a frame that arrives while no operation waits for it is appended
to RX and nothing else happens. That the frame rows of the table are the receiver's deliveries is the model's reading (log
entry 15). -/
def Obligations.ArrivingFrameIsAppended : Prop :=
  ∀ (s : State) (fields : List Word) (checksum : Word), s.job = .none → s.Unbounded →
    exec (.frame32 fields checksum) s = .next { s with rx := s.rx ++ frameBytes 32 fields checksum } ∧
    exec (.frame40 fields checksum) s = .next { s with rx := s.rx ++ frameBytes 40 fields checksum } ∧
    exec (.frame24 fields checksum) s = .next { s with rx := s.rx ++ frameBytes 24 fields checksum }

/-- 30_encoding.md sections 1 and 3: a frame arriving at a DECODE that waits for its first byte is accepted exactly under the
variants that its format belongs to and with the checksum that agrees; under another variant it ends with InvalidLength, with
another checksum with ChecksumMismatch. How the waiting DECODE is held is the model's (log entries 3 and 15). -/
def Obligations.WaitingDecodeJudgesTheArrivingFrame : Prop :=
  ∀ (s t : State) (fields : List Word) (checksum : Word), s.Idle → s.Operates → s.Quiet → s.Unbounded → s.rx = [] →
    exec .decode s = .next t →
    (fields.length = 13 → ∃ u, exec (.frame32 fields checksum) t = .next u ∧ u.Idle ∧
      u.result = if ¬ (s.cfgVariant = 0 ∨ s.cfgVariant = 1) then .invalidLength
        else if checksum = frameChecksum 32 fields then .ok else .checksumMismatch) ∧
    (fields.length = 17 → ∃ u, exec (.frame40 fields checksum) t = .next u ∧ u.Idle ∧
      u.result = if s.cfgVariant ≠ 2 then .invalidLength
        else if checksum = frameChecksum 40 fields then .ok else .checksumMismatch) ∧
    (fields.length = 9 → ∃ u, exec (.frame24 fields checksum) t = .next u ∧ u.Idle ∧
      u.result = if s.cfgVariant ≠ 3 then .invalidLength
        else if checksum = frameChecksum 24 fields then .ok else .checksumMismatch)

end wire

section rights

/-- 10_state.md R18, over every instruction: VALRCV is cleared only by CHECK_CLEAR and by a reset in the middle of the
operation, one that was taken and left the reset state (log entries 2 and 21), and set only where a DECODE ended with a
validated frame (in DECODE, POLL, or as bytes arrived for a waiting one), so that a failure leaves it as it was; a DECODE that
ends OK sets it. -/
def Obligations.NewMeasurementFlagSetAndClearedOnlySo : Prop :=
  ∀ (i : Instr) (s t : State), exec i s = .next t →
    (s.valRcv = true → t.valRcv = false → i = .checkClear ∨
      (s.ResetTo t t.rx t.live ∧ ∃ before, Gap.reset ∉ before ∧ s.live = before ++ .reset :: t.live)) ∧
    (s.valRcv = false → t.valRcv = true →
      t.fvalid = true ∧ t.sum = t.sumRx ∧ t.fcount.toNat = (configured t).nf ∧
      (i = .decode ∨ i = .poll ∨ s.job = .decode ∨ s.job = .poll)) ∧
    (i = .decode → t.result = .ok → t.fvalid = true → t.valRcv = true)

/-- 44_field_multiplexer.md, when OUT changes: over every instruction, resets aside, OUT changes only in a PROJECT that ends
OK, its own or that of a POLL. -/
def Obligations.SlotsChangeOnlyInAProjectThatEndsOk : Prop :=
  ∀ (i : Instr) (s t : State), s.NoReset → exec i s = .next t → t.out ≠ s.out →
    t.result = .ok ∧ t.fvalid = true ∧ (i = .project ∨ i = .poll ∨ s.job = .poll)

/-- 10_state.md, the table of access rights, all its rows: over every instruction, resets aside, the configuration is written
only by CONFIG, INIT and INITDONE only by INIT, F, FVALID, FCOUNT, SUMRX and DIAG_LEN only by a DECODE (its own, that of a
POLL, or a waiting one that goes on), SUM by these and by READ_U16, OUT only by a PROJECT (its own or that of a POLL), VALRCV
only by a DECODE and CHECK_CLEAR, RESULT only by the operations of the host. RX is touched only by FRAME_READY, DECODE, FLUSH,
POLL and READ_U16, and by the receiver, who only delivers (the frame rows, log entry 15). -/
def Obligations.RegistersAreWrittenOnlyByTheirOperations : Prop :=
  ∀ (i : Instr) (s t : State), s.NoReset → exec i s = .next t →
    ((∀ v p m e, i ≠ .config v p m e) →
      t.cfgVariant = s.cfgVariant ∧ t.cfgProj = s.cfgProj ∧ t.cfgEvMode = s.cfgEvMode ∧ t.cfgEvEn = s.cfgEvEn) ∧
    (i ≠ .init → t.init = s.init ∧ t.initDone = s.initDone) ∧
    (i ≠ .decode → i ≠ .poll → s.job ≠ .decode → s.job ≠ .poll →
      t.f = s.f ∧ t.fvalid = s.fvalid ∧ t.fcount = s.fcount ∧ t.sumRx = s.sumRx ∧ t.diagLen = s.diagLen ∧
      ((∀ acc, i ≠ .readU16 acc) → (∀ acc, s.job ≠ .readU16 acc) → t.sum = s.sum) ∧
      (i ≠ .checkClear → t.valRcv = s.valRcv) ∧
      ((∃ v, i = .catalog v) ∨ (∃ acc, i = .readU16 acc) ∨ (∃ bs, encode i = some (.stream bs)) → t.result = s.result)) ∧
    (i ≠ .project → i ≠ .poll → s.job ≠ .poll → t.out = s.out) ∧
    (i ≠ .frameReady → i ≠ .decode → i ≠ .flush → i ≠ .poll → (∀ acc, i ≠ .readU16 acc) →
      (∀ bs, encode i ≠ some (.stream bs)) → t.rx = s.rx ∧ t.live = s.live) ∧
    (∀ bs, encode i = some (.stream bs) → s.job = .none → t = receive bs s) ∧
    t.transportPresent = s.transportPresent ∧ t.rxCapacity = s.rxCapacity ∧ t.script = s.script

end rights
end

