-- ==== Sys2Proof/Laws/Encoding.lean ====
section
/-!
SUPPORT. The small lemmas of the encoder and the decoder.
-/
namespace Sys2Proof

@[simp] theorem be16_length (v : Word) : (be16 v).length = 2 := rfl

/-- Splitting a value into its bytes and joining them gives it back (R49, R78). -/
@[simp] theorem u16_be16 (v : Word) : u16 (v.extractLsb' 8 8) (v.extractLsb' 0 8) = v := by
  unfold u16
  apply BitVec.eq_of_getLsbD_eq
  intro i hi
  simp only [BitVec.getLsbD_append, BitVec.getLsbD_extractLsb']
  split
  · simp [*]
  · have : i - 8 < 8 := by omega
    have h8 : 8 + (i - 8) = i := by omega
    simp [this, h8]

/-- The big-endian value as a number (R49). -/
theorem u16_toNat (hi lo : Byte) : (u16 hi lo).toNat = hi.toNat * 256 + lo.toNat := by
  unfold u16
  rw [BitVec.toNat_append, Nat.shiftLeft_eq, ← Nat.mul_comm (2 ^ 8), ← Nat.two_pow_add_eq_or_of_lt lo.isLt]

/-- Two bytes are determined by the value they form (R114). -/
theorem u16_inj {a b c d : Byte} (h : u16 a b = u16 c d) : a = c ∧ b = d := by
  have h1 := congrArg BitVec.toNat h
  rw [u16_toNat, u16_toNat] at h1
  have := a.isLt; have := b.isLt; have := c.isLt; have := d.isLt
  exact ⟨BitVec.eq_of_toNat_eq (by omega), BitVec.eq_of_toNat_eq (by omega)⟩

theorem be16_u16 (hi lo : Byte) : be16 (u16 hi lo) = [hi, lo] := by
  have h := u16_be16 (u16 hi lo)
  obtain ⟨h1, h2⟩ := u16_inj h
  rw [be16, h1, h2]

@[simp] theorem flatMap_be16_length (ws : List Word) : (ws.flatMap be16).length = 2 * ws.length := by
  induction ws with
  | nil => rfl
  | cons w ws ih => simp [ih]; omega

/-- A frame has 6 + 2 * nf bytes (R70). -/
theorem frameBytes_length (size : Nat) (fields : List Word) (checksum : Word) :
    (frameBytes size fields checksum).length = 6 + 2 * fields.length := by
  simp [frameBytes]; omega

/-- Reading back the words that were written. -/
theorem takeWords_flatMap_be16 (ws : List Word) (rest : List Byte) :
    takeWords ws.length (ws.flatMap be16 ++ rest) = some (ws, rest) := by
  induction ws with
  | nil => simp [takeWords]
  | cons w ws ih => simp [takeWords, be16] at ih ⊢; simp [ih]

/-- What was read is what stood there. -/
theorem takeWords_eq_some {n : Nat} {bs : List Byte} {ws : List Word} {rest : List Byte}
    (h : takeWords n bs = some (ws, rest)) : ws.length = n ∧ bs = ws.flatMap be16 ++ rest := by
  induction n generalizing bs ws with
  | zero => simp only [takeWords, Option.some.injEq, Prod.mk.injEq] at h; obtain ⟨rfl, rfl⟩ := h; simp
  | succ n ih =>
    match bs with
    | [] | [_] => simp [takeWords] at h
    | hi :: lo :: bs =>
      unfold takeWords at h
      split at h
      · rename_i ws' rest' hq
        simp only [Option.some.injEq, Prod.mk.injEq] at h
        obtain ⟨rfl, rfl⟩ := h
        obtain ⟨h1, h2⟩ := ih hq
        refine ⟨by simp [h1], ?_⟩
        rw [List.flatMap_cons, be16_u16, h2]
        rfl
      · cases h

theorem byteSum_append (as bs : List Byte) : byteSum (as ++ bs) = byteSum as + byteSum bs := by
  have key : ∀ (bs : List Byte) (x : Word),
      bs.foldl (fun a b => a + b.setWidth 16) x = x + bs.foldl (fun a b => a + b.setWidth 16) 0 := by
    intro bs
    induction bs with
    | nil => simp
    | cons b bs ih =>
      intro x
      simp only [List.foldl_cons]
      rw [ih (x + _), ih (0 + _), BitVec.add_assoc]
      simp
  unfold byteSum
  rw [List.foldl_append, key]

@[simp] theorem byteSum_nil : byteSum [] = 0 := rfl

@[simp] theorem byteSum_cons (b : Byte) (bs : List Byte) : byteSum (b :: bs) = b.setWidth 16 + byteSum bs := by
  have := byteSum_append [b] bs
  simpa [byteSum] using this

/-- The sum modulo 2^16 is the sum of the numbers, narrowed (R73). -/
theorem byteSum_eq (bs : List Byte) : byteSum bs = BitVec.ofNat 16 (bs.map BitVec.toNat).sum := by
  induction bs with
  | nil => rfl
  | cons b bs ih =>
    rw [byteSum_cons, ih]
    apply BitVec.eq_of_toNat_eq
    simp [BitVec.toNat_add]

end Sys2Proof
end

