-- ==== Sys2Proof/Laws/State.lean ====
section
/-!
SUPPORT. What each named update of State leaves in each field, so that no later proof unfolds a record update.
-/
namespace Sys2Proof.Machine

section finish
variable (r : ResultCode) (s : State)

@[simp] theorem finish_f : (finish r s).f = s.f := rfl
@[simp] theorem finish_fvalid : (finish r s).fvalid = s.fvalid := rfl
@[simp] theorem finish_fcount : (finish r s).fcount = s.fcount := rfl
@[simp] theorem finish_out : (finish r s).out = s.out := rfl
@[simp] theorem finish_sum : (finish r s).sum = s.sum := rfl
@[simp] theorem finish_sumRx : (finish r s).sumRx = s.sumRx := rfl
@[simp] theorem finish_init : (finish r s).init = s.init := rfl
@[simp] theorem finish_initDone : (finish r s).initDone = s.initDone := rfl
@[simp] theorem finish_valRcv : (finish r s).valRcv = s.valRcv := rfl
@[simp] theorem finish_cfgVariant : (finish r s).cfgVariant = s.cfgVariant := rfl
@[simp] theorem finish_cfgProj : (finish r s).cfgProj = s.cfgProj := rfl
@[simp] theorem finish_cfgEvMode : (finish r s).cfgEvMode = s.cfgEvMode := rfl
@[simp] theorem finish_cfgEvEn : (finish r s).cfgEvEn = s.cfgEvEn := rfl
@[simp] theorem finish_result : (finish r s).result = r := rfl
@[simp] theorem finish_diagLen : (finish r s).diagLen = s.diagLen := rfl
@[simp] theorem finish_phase : (finish r s).phase = .idle := rfl
@[simp] theorem finish_idx : (finish r s).idx = 0 := rfl
@[simp] theorem finish_job : (finish r s).job = .none := rfl
@[simp] theorem finish_latch : (finish r s).latch = none := rfl
@[simp] theorem finish_rx : (finish r s).rx = s.rx := rfl
@[simp] theorem finish_transportPresent : (finish r s).transportPresent = s.transportPresent := rfl
@[simp] theorem finish_rxCapacity : (finish r s).rxCapacity = s.rxCapacity := rfl
@[simp] theorem finish_script : (finish r s).script = s.script := rfl
@[simp] theorem finish_live : (finish r s).live = s.live := rfl
@[simp] theorem finish_ret : (finish r s).ret = s.ret := rfl
@[simp] theorem finish_events : (finish r s).events = s.events := rfl
@[simp] theorem finish_fresh : (finish r s).fresh = s.fresh := rfl

end finish

section blockReset
variable (s : State)

@[simp] theorem blockReset_f : (blockReset s).f = Vector.ofFn (fun i => Config.resetField s.fresh i.val) := rfl
@[simp] theorem blockReset_fvalid : (blockReset s).fvalid = false := rfl
@[simp] theorem blockReset_fcount : (blockReset s).fcount = 0 := rfl
@[simp] theorem blockReset_out : (blockReset s).out = Vector.replicate Config.nSlots ⟨0, .by1⟩ := rfl
@[simp] theorem blockReset_sum : (blockReset s).sum = 0 := rfl
@[simp] theorem blockReset_sumRx : (blockReset s).sumRx = 0 := rfl
@[simp] theorem blockReset_init : (blockReset s).init = false := rfl
@[simp] theorem blockReset_initDone : (blockReset s).initDone = false := rfl
@[simp] theorem blockReset_valRcv : (blockReset s).valRcv = false := rfl
@[simp] theorem blockReset_cfgVariant : (blockReset s).cfgVariant = 0 := rfl
@[simp] theorem blockReset_cfgProj : (blockReset s).cfgProj = 0 := rfl
@[simp] theorem blockReset_cfgEvMode : (blockReset s).cfgEvMode = 0 := rfl
@[simp] theorem blockReset_cfgEvEn : (blockReset s).cfgEvEn = false := rfl
@[simp] theorem blockReset_result : (blockReset s).result = .ok := rfl
@[simp] theorem blockReset_diagLen : (blockReset s).diagLen = 0 := rfl
@[simp] theorem blockReset_phase : (blockReset s).phase = .idle := rfl
@[simp] theorem blockReset_idx : (blockReset s).idx = 0 := rfl
@[simp] theorem blockReset_job : (blockReset s).job = .none := rfl
@[simp] theorem blockReset_latch : (blockReset s).latch = none := rfl
@[simp] theorem blockReset_rx : (blockReset s).rx = s.rx := rfl
@[simp] theorem blockReset_transportPresent : (blockReset s).transportPresent = s.transportPresent := rfl
@[simp] theorem blockReset_rxCapacity : (blockReset s).rxCapacity = s.rxCapacity := rfl
@[simp] theorem blockReset_script : (blockReset s).script = s.script := rfl
@[simp] theorem blockReset_live : (blockReset s).live = s.live := rfl
@[simp] theorem blockReset_ret : (blockReset s).ret = s.ret := rfl
@[simp] theorem blockReset_events : (blockReset s).events = s.events := rfl
@[simp] theorem blockReset_fresh : (blockReset s).fresh = s.fresh + 1 := rfl

end blockReset

section receive
variable (bs : List Byte) (s : State)

@[simp] theorem receive_f : (receive bs s).f = s.f := by unfold receive; split <;> rfl
@[simp] theorem receive_fvalid : (receive bs s).fvalid = s.fvalid := by unfold receive; split <;> rfl
@[simp] theorem receive_fcount : (receive bs s).fcount = s.fcount := by unfold receive; split <;> rfl
@[simp] theorem receive_out : (receive bs s).out = s.out := by unfold receive; split <;> rfl
@[simp] theorem receive_sum : (receive bs s).sum = s.sum := by unfold receive; split <;> rfl
@[simp] theorem receive_sumRx : (receive bs s).sumRx = s.sumRx := by unfold receive; split <;> rfl
@[simp] theorem receive_init : (receive bs s).init = s.init := by unfold receive; split <;> rfl
@[simp] theorem receive_initDone : (receive bs s).initDone = s.initDone := by unfold receive; split <;> rfl
@[simp] theorem receive_valRcv : (receive bs s).valRcv = s.valRcv := by unfold receive; split <;> rfl
@[simp] theorem receive_cfgVariant : (receive bs s).cfgVariant = s.cfgVariant := by unfold receive; split <;> rfl
@[simp] theorem receive_cfgProj : (receive bs s).cfgProj = s.cfgProj := by unfold receive; split <;> rfl
@[simp] theorem receive_cfgEvMode : (receive bs s).cfgEvMode = s.cfgEvMode := by unfold receive; split <;> rfl
@[simp] theorem receive_cfgEvEn : (receive bs s).cfgEvEn = s.cfgEvEn := by unfold receive; split <;> rfl
@[simp] theorem receive_result : (receive bs s).result = s.result := by unfold receive; split <;> rfl
@[simp] theorem receive_diagLen : (receive bs s).diagLen = s.diagLen := by unfold receive; split <;> rfl
@[simp] theorem receive_phase : (receive bs s).phase = s.phase := by unfold receive; split <;> rfl
@[simp] theorem receive_idx : (receive bs s).idx = s.idx := by unfold receive; split <;> rfl
@[simp] theorem receive_job : (receive bs s).job = s.job := by unfold receive; split <;> rfl
@[simp] theorem receive_latch : (receive bs s).latch = s.latch := by unfold receive; split <;> rfl
@[simp] theorem receive_transportPresent : (receive bs s).transportPresent = s.transportPresent := by unfold receive; split <;> rfl
@[simp] theorem receive_rxCapacity : (receive bs s).rxCapacity = s.rxCapacity := by unfold receive; split <;> rfl
@[simp] theorem receive_script : (receive bs s).script = s.script := by unfold receive; split <;> rfl
@[simp] theorem receive_live : (receive bs s).live = s.live := by unfold receive; split <;> rfl
@[simp] theorem receive_ret : (receive bs s).ret = s.ret := by unfold receive; split <;> rfl
@[simp] theorem receive_events : (receive bs s).events = s.events := by unfold receive; split <;> rfl

theorem receive_of_room (h : hasRoom bs s = true) : receive bs s = { s with rx := s.rx ++ bs } := by
  simp [receive, h]

theorem hasRoom_of_unbounded (h : s.rxCapacity = none) : hasRoom bs s = true := by simp [hasRoom, h]

theorem receive_of_unbounded (h : s.rxCapacity = none) : receive bs s = { s with rx := s.rx ++ bs } :=
  receive_of_room bs s (hasRoom_of_unbounded bs s h)

/-- The number of bytes after an overrun: the free growth, cut off at the room there is (20_memory.md R47, R48). -/
theorem overrunRx_length : (overrunRx s).length = s.rx.length + min (Config.overrunGrowth s.fresh) (room s) := by
  simp [overrunRx]

/-- A delivery never leaves more in RX than its capacity, if RX was within it (20_memory.md R48). -/
theorem receive_within (c : Nat) (hc : s.rxCapacity = some c) (h : s.rx.length ≤ c) : (receive bs s).rx.length ≤ c := by
  unfold receive
  split
  · rename_i hr
    simp only [hasRoom, hc, Bool.or_eq_true, List.isEmpty_iff, decide_eq_true_eq] at hr
    rcases hr with rfl | hr <;> simp_all
  · simp only [overrunRx_length, room, hc, Option.getD_some]
    omega

/-- Availability never shrinks when bytes arrive (20_memory.md R47). -/
theorem receive_monotone : s.rx.length ≤ (receive bs s).rx.length := by
  unfold receive
  split
  · simp
  · simp [overrunRx_length]

end receive

end Sys2Proof.Machine
end

