-- ==== Sys2Proof/Laws/Ops.lean ====
section
/-!
SUPPORT. One lemma for each shared operation that says everything it can do, and its value when nothing arrives.
-/
namespace Sys2Proof.Machine

/-- Only the transport's side of the state differs: RX, what is still to come, the count of free values. -/
def OnlyTransport (s t : State) : Prop := t = { s with rx := t.rx, live := t.live, fresh := t.fresh }

theorem OnlyTransport.refl (s : State) : OnlyTransport s s := rfl

theorem OnlyTransport.trans {s t u : State} (h : OnlyTransport s t) (k : OnlyTransport t u) : OnlyTransport s u := by
  unfold OnlyTransport at *; rw [k]; rw [h]

theorem onlyTransport_receive (bs : List Byte) (live : List Gap) (s : State) :
    OnlyTransport s (receive bs { s with live := live }) := by
  unfold OnlyTransport receive; split <;> rfl

/-- What is true of the three ways an access ends. -/
def Access.Ends {α : Type} (m : Access α) (D : α → State → Prop) (H A : State → Prop) : Prop :=
  match m with
  | .done a s => D a s
  | .hold s => H s
  | .aborted s => A s

theorem Access.Ends.mono {α : Type} {m : Access α} {D D' : α → State → Prop} {H H' A A' : State → Prop}
    (h : m.Ends D H A) (hd : ∀ a s, D a s → D' a s) (hh : ∀ s, H s → H' s) (ha : ∀ s, A s → A' s) : m.Ends D' H' A' := by
  cases m <;> simp only [Access.Ends] at * <;> solve_by_elim

theorem Access.Ends.bind {α β : Type} {m : Access α} {k : α → State → Access β} {D : α → State → Prop}
    {D' : β → State → Prop} {H A H' A' : State → Prop} (h : m.Ends D H A) (hd : ∀ a s, D a s → (k a s).Ends D' H' A')
    (hh : ∀ s, H s → H' s) (ha : ∀ s, A s → A' s) : (m.bind k).Ends D' H' A' := by
  cases m <;> simp only [Access.Ends, Access.bind] at * <;> solve_by_elim

/-- The inversion rule for a whole operation: whatever holds after each way its access ends holds after it. -/
theorem Access.Ends.andThen {α : Type} {m : Access α} {k : α → State → State} {D : α → State → Prop} {H A P : State → Prop}
    (h : m.Ends D H A) (hd : ∀ a s, D a s → P (k a s)) (hh : ∀ s, H s → P s) (ha : ∀ s, A s → P s) : P (m.andThen k) := by
  cases m <;> simp only [Access.Ends, Access.andThen] at * <;> solve_by_elim

@[simp] theorem Access.done_bind {α β : Type} (a : α) (s : State) (k : α → State → Access β) :
    (Access.done a s).bind k = k a s := rfl
@[simp] theorem Access.hold_bind {α β : Type} (s : State) (k : α → State → Access β) :
    (Access.hold s : Access α).bind k = .hold s := rfl
@[simp] theorem Access.aborted_bind {α β : Type} (s : State) (k : α → State → Access β) :
    (Access.aborted s : Access α).bind k = .aborted s := rfl
@[simp] theorem Access.done_andThen {α : Type} (a : α) (s : State) (k : α → State → State) :
    (Access.done a s).andThen k = k a s := rfl
@[simp] theorem Access.hold_andThen {α : Type} (s : State) (k : α → State → State) :
    (Access.hold s : Access α).andThen k = s := rfl
@[simp] theorem Access.aborted_andThen {α : Type} (s : State) (k : α → State → State) :
    (Access.aborted s : Access α).andThen k = s := rfl

/-- RX is within its capacity. -/
abbrev Within (s : State) : Prop := ∀ c, s.rxCapacity = some c → s.rx.length ≤ c

/-- What the receiver's side of an access keeps: only the transport moves, capacity is respected, resets do not appear
from nowhere, and without overruns the stream is the same one. -/
structure Drift (s t : State) : Prop where
  only : OnlyTransport s t
  within : Within s → Within t
  noReset : s.NoReset → t.NoReset

theorem Drift.refl (s : State) : Drift s s := ⟨.refl s, id, id⟩
theorem Drift.trans {s t u : State} (h : Drift s t) (k : Drift t u) : Drift s u :=
  ⟨h.only.trans k.only, k.within ∘ h.within, k.noReset ∘ h.noReset⟩

theorem drift_receive {bs : List Byte} {live : List Gap} {s : State} (h : s.live = .recv bs :: live) :
    Drift s (receive bs { s with live := live }) := by
  refine ⟨onlyTransport_receive bs live s, fun hw c hc => ?_, fun hn => ?_⟩
  · rw [receive_rxCapacity] at hc
    exact receive_within bs _ c hc (hw c hc)
  · simp only [State.NoReset, h, List.mem_cons, not_or, receive_live] at *
    exact hn.2

theorem drift_pop {b : Byte} {rest : List Byte} {s : State} (h : s.rx = b :: rest) : Drift s { s with rx := rest } := by
  refine ⟨rfl, fun hw c hc => ?_, id⟩
  have := hw c hc
  simp only [h, List.length_cons] at this
  simp only; omega

/-- An aborting reset takes place from a state that only the transport separates from the one before (R231). -/
def AbortedFrom (s t : State) : Prop := ¬ s.NoReset ∧ ∃ u, Drift s u ∧ t = blockReset u

theorem AbortedFrom.of_drift {s t u : State} (h : Drift s t) (k : AbortedFrom t u) : AbortedFrom s u := by
  obtain ⟨hn, v, hv, rfl⟩ := k
  exact ⟨fun hs => hn (h.noReset hs), v, h.trans hv, rfl⟩

/-- The gap before an access: an arrival or nothing, or a reset. -/
theorem gap_ends (s : State) :
    (gap s).Ends (fun _ t => Drift s t ∧ s.rx.length ≤ t.rx.length ∧
        (s.Unbounded → s.NoReset → ∃ bs, t.rx = s.rx ++ bs ∧ bs ++ toCome t = toCome s) ∧ (t.live.length ≤ s.live.length))
      (fun _ => False) (fun t => AbortedFrom s t) := by
  unfold gap
  split
  · rename_i h
    exact ⟨.refl s, le_rfl, fun _ _ => ⟨[], by simp⟩, le_rfl⟩
  · rename_i bs rest h
    refine ⟨drift_receive h, receive_monotone bs { s with live := rest }, fun hu _ => ⟨bs, ?_, ?_⟩, ?_⟩
    · exact congrArg State.rx (receive_of_unbounded bs { s with live := rest } hu)
    · simp [toCome, h, gapBytes]
    · simp [h]
  · rename_i rest h
    refine ⟨by simp [State.NoReset, h], { s with live := rest }, ⟨rfl, id, fun hn => ?_⟩, rfl⟩
    simp_all [State.NoReset]

theorem rxReadWait_ends (live : List Gap) (s : State) (h : s.live = live) :
    (rxReadWait live s).Ends
      (fun b t => Drift s t ∧ s.rx.length ≤ t.rx.length + 1 ∧
        (s.Unbounded → s.NoReset → ∃ bs, s.rx ++ bs = b :: t.rx ∧ bs ++ toCome t = toCome s))
      (fun t => Drift s t ∧ t.rx = [] ∧ t.live = [] ∧ s.rx = [] ∧ (s.Unbounded → s.NoReset → toCome s = []))
      (fun t => AbortedFrom s t) := by
  induction live generalizing s with
  | nil =>
    unfold rxReadWait
    split
    · rename_i b rest hr
      exact ⟨drift_pop hr, by simp [hr], fun _ _ => ⟨[], by simp [hr, toCome, h]⟩⟩
    · rename_i hr
      exact ⟨.refl s, hr, h, hr, fun _ _ => by simp [toCome, h]⟩
  | cons g live ih =>
    cases g with
    | reset =>
      refine ⟨by simp [State.NoReset, h], { s with live := live }, ⟨rfl, id, fun hn => ?_⟩, rfl⟩
      simp_all [State.NoReset]
    | recv bs =>
      have hd := drift_receive (bs := bs) h
      have hmono := receive_monotone bs { s with live := live }
      have hun : s.Unbounded → (receive bs { s with live := live }).rx = s.rx ++ bs :=
        fun hu => congrArg State.rx (receive_of_unbounded bs { s with live := live } hu)
      simp only [rxReadWait]
      split
      · rename_i b rest hr
        refine ⟨hd.trans (drift_pop hr), ?_, fun hu _ => ⟨bs, ?_, ?_⟩⟩
        · have := hmono; simp only [hr, List.length_cons] at this; exact this
        · rw [← hun hu, hr]
        · simp [toCome, h, gapBytes]
      · rename_i hr
        have hcome : toCome s = bs ++ toCome (receive bs { s with live := live }) := by simp [toCome, h, gapBytes]
        refine (ih (receive bs { s with live := live }) (by simp)).mono ?_ ?_ ?_
        · rintro b t ⟨h1, h2, h3⟩
          refine ⟨hd.trans h1, ?_, fun hu hn => ?_⟩
          · have := h2; have := hmono; simp only [hr, List.length_nil] at *; omega
          · obtain ⟨cs, h4, h5⟩ := h3 (by simpa [State.Unbounded] using hu) (hd.noReset hn)
            refine ⟨bs ++ cs, ?_, ?_⟩
            · rw [← List.append_assoc, ← hun hu, h4]
            · rw [hcome, ← h5]; simp
        · rintro t ⟨h1, h2, h3, h4, h5⟩
          refine ⟨hd.trans h1, h2, h3, ?_, fun hu hn => ?_⟩
          · have := hmono; simp only [hr, List.length_nil] at this; exact List.eq_nil_of_length_eq_zero (by omega)
          · have h6 := hun hu
            rw [hr] at h6
            obtain ⟨-, rfl⟩ := List.append_eq_nil_iff.1 h6.symm
            rw [hcome]; simpa using h5 (by simpa [State.Unbounded] using hu) (hd.noReset hn)
        · exact fun t ht => .of_drift hd ht

/-- `RxRead()`: a byte is removed, or it waits on an empty RX with nothing more to come, or it is aborted (R43, R44). -/
theorem rxRead_ends (s : State) :
    (rxRead s).Ends
      (fun b t => Drift s t ∧ s.rx.length ≤ t.rx.length + 1 ∧
        (s.Unbounded → s.NoReset → ∃ bs, s.rx ++ bs = b :: t.rx ∧ bs ++ toCome t = toCome s))
      (fun t => Drift s t ∧ t.rx = [] ∧ t.live = [] ∧ s.rx = [] ∧ (s.Unbounded → s.NoReset → toCome s = []))
      (fun t => AbortedFrom s t) := rxReadWait_ends s.live s rfl

/-- `RxAvail()`: the count after the gap (R41). -/
theorem rxAvail_ends (s : State) :
    (rxAvail s).Ends (fun k t => k = t.rx.length ∧ Drift s t ∧ s.rx.length ≤ t.rx.length ∧
        (s.Unbounded → s.NoReset → ∃ bs, t.rx = s.rx ++ bs ∧ bs ++ toCome t = toCome s) ∧ (t.live.length ≤ s.live.length))
      (fun _ => False) (fun t => AbortedFrom s t) :=
  (gap_ends s).bind (fun _ _ h => ⟨rfl, h⟩) (fun _ h => h) (fun _ h => h)

/-- `RxFlush()`: RX is empty after it (R45). -/
theorem rxFlush_ends (s : State) :
    (rxFlush s).Ends (fun _ t => Drift s t ∧ t.rx = []) (fun _ => False) (fun t => AbortedFrom s t) :=
  (gap_ends s).bind (fun _ t h => ⟨h.1.trans ⟨rfl, fun _ c _ => by simp, id⟩, rfl⟩) (fun _ h => h) (fun _ h => h)

section quiet
variable {s : State}

@[simp] theorem gap_quiet (h : s.live = []) : gap s = .done () s := by simp [gap, h]
@[simp] theorem rxAvail_quiet (h : s.live = []) : rxAvail s = .done s.rx.length s := by simp [rxAvail, h]
@[simp] theorem rxFlush_quiet (h : s.live = []) : rxFlush s = .done () { s with rx := [] } := by simp [rxFlush, h]

theorem rxPeek_quiet {b : Byte} {rest : List Byte} (h : s.live = []) (hr : s.rx = b :: rest) : rxPeek s = .done b s := by
  simp [rxPeek, h, hr]

theorem rxRead_quiet {b : Byte} {rest : List Byte} (h : s.live = []) (hr : s.rx = b :: rest) :
    rxRead s = .done b { s with rx := rest } := by simp [rxRead, rxReadWait, h, hr]

theorem rxRead_quiet_empty (h : s.live = []) (hr : s.rx = []) : rxRead s = .hold s := by
  simp [rxRead, rxReadWait, h, hr]

/-- READ_U16 with both bytes there (R110). -/
theorem readU16_quiet {hi lo : Byte} {rest : List Byte} (acc : Bool) (h : s.live = []) (hl : s.latch = none)
    (hr : s.rx = hi :: lo :: rest) :
    readU16 acc s = .done (u16 hi lo)
      { s with rx := rest, sum := if acc then s.sum + hi.setWidth 16 + lo.setWidth 16 else s.sum } := by
  obtain ⟨⟩ := s
  simp only at h hl hr
  subst h hl hr
  simp [readU16, readLow, rxRead, rxReadWait]

/-- The discard loop removes exactly the bytes before the first 0x42 (R122, R130). -/
theorem discard_quiet (n : Nat) (h : s.live = []) (hn : s.rx.length < n) :
    discard n s = .done () { s with rx := s.rx.dropWhile (fun b => decide (b ≠ Config.sig1)) } := by
  induction n generalizing s with
  | zero => omega
  | succ n ih =>
    unfold discard
    cases hr : s.rx with
    | nil =>
      obtain ⟨⟩ := s
      simp only at h hr; subst h hr
      simp
    | cons b rest =>
      simp only [rxAvail_quiet h, Access.done_bind, hr, List.length_cons, Nat.add_eq_zero_iff, one_ne_zero, and_false,
        if_false, rxPeek_quiet h hr]
      split
      · rename_i hb
        obtain ⟨⟩ := s
        simp only at h hr; subst h hr
        simp [hb]
      · rename_i hb
        rw [rxRead_quiet h hr, Access.done_bind, ih (by exact h) (by simp [hr] at hn ⊢; omega)]
        simp [hb]

end quiet

end Sys2Proof.Machine
end

