-- ==== Sys2Proof/Laws/Decoder.lean ====
section
/-!
SUPPORT. The steps of DECODE on the bytes of a frame when nothing arrives meanwhile, and the facts of the catalog they use.
-/
namespace Sys2Proof.Machine

/-- The laws of the catalog (R105), for every code; the sentinel has size 0 (R102). -/
theorem catalog_cases (v : BitVec 4) :
    ((catalog v).size = 0 ∧ (catalog v).nf = 0 ∧ 4 ≤ v.toNat) ∨
      ((catalog v).size = 6 + 2 * (catalog v).nf ∧ v.toNat < 4 ∧
        ((catalog v).nf = 13 ∨ (catalog v).nf = 17 ∨ (catalog v).nf = 9)) := by
  revert v; decide

theorem Operates.size {s : State} (h : s.Operates) : (configured s).size = 6 + 2 * (configured s).nf := by
  rcases catalog_cases s.cfgVariant with h' | h'
  · exact absurd h'.1 h.2
  · exact h'.1

theorem Operates.nf {s : State} (h : s.Operates) :
    (configured s).nf = 13 ∨ (configured s).nf = 17 ∨ (configured s).nf = 9 := by
  rcases catalog_cases s.cfgVariant with h' | h'
  · exact absurd h'.1 h.2
  · exact h'.2.2

/-- Field registers from `i` on loaded with `ws`. -/
def loadFields (f : Vector Word Config.maxFields) : Nat → List Word → Vector Word Config.maxFields
  | _, [] => f
  | i, w :: ws => loadFields (f.setIfInBounds i w) (i + 1) ws

/-- A loaded register holds its word, every other one what it held (R139). -/
theorem loadFields_get (f : Vector Word Config.maxFields) (i : Nat) (ws : List Word) (j : Fin Config.maxFields) :
    (loadFields f i ws).get j = if h : i ≤ j.val ∧ j.val - i < ws.length then ws[j.val - i] else f.get j := by
  induction ws generalizing f i with
  | nil => simp [loadFields]
  | cons w ws ih =>
    rw [loadFields, ih]
    have hset : (f.setIfInBounds i w).get j = if i = j.val then w else f.get j := by
      simp only [Vector.get_eq_getElem, Vector.getElem_setIfInBounds]
    rw [hset]
    by_cases h1 : i = j.val
    · subst h1
      simp
    · by_cases h2 : i + 1 ≤ j.val ∧ j.val - (i + 1) < ws.length
      · have h3 : j.val - i = (j.val - (i + 1)) + 1 := by omega
        rw [dif_pos h2, dif_pos ⟨by omega, by simp; omega⟩]
        simp [h3]
      · rw [dif_neg h2, if_neg h1, dif_neg (by simp only [List.length_cons]; omega)]

/-- The bytes a READ_U16 adds, as a sum of bytes (R111). -/
theorem sum_two_bytes (x : Word) (hi lo : Byte) : x + hi.setWidth 16 + lo.setWidth 16 = x + byteSum [hi, lo] := by
  simp [BitVec.add_assoc]

/-- Step 3 and on: the fields, then the checksum (R139). -/
theorem decodeFields_quiet (ws : List Word) (s : State) (rest : List Byte) (h : s.live = []) (hl : s.latch = none)
    (hr : s.rx = ws.flatMap be16 ++ rest) (hi : s.idx.toNat + ws.length < 32) :
    decodeFields ws.length s = decodeChecksum { s with
      rx := rest, f := loadFields s.f s.idx.toNat ws, sum := s.sum + byteSum (ws.flatMap be16)
      phase := .csum, idx := 0 } := by
  induction ws generalizing s with
  | nil =>
    obtain ⟨⟩ := s
    simp only at h hl hr; subst h hl hr
    simp [decodeFields, loadFields]
  | cons w ws ih =>
    simp only [List.length_cons, decodeFields]
    rw [readU16_quiet true h hl (hi := w.extractLsb' 8 8) (lo := w.extractLsb' 0 8) (rest := ws.flatMap be16 ++ rest)
      (by simpa [be16] using hr)]
    have hidx : (s.idx + 1#5).toNat = s.idx.toNat + 1 := by
      rw [BitVec.toNat_add]; simp only [List.length_cons] at hi; simp; omega
    simp only [Access.done_andThen]
    refine (ih _ (by exact h) (by exact hl) rfl ?_).trans (congrArg decodeChecksum ?_)
    · simp only [List.length_cons] at hi; simp only [BitVec.ofNat_eq_ofNat, hidx]; omega
    simp only [State.mk.injEq, BitVec.ofNat_eq_ofNat, hidx, loadFields, u16_be16, if_true, true_and, and_true, List.flatMap_cons, be16,
      List.cons_append, List.nil_append, byteSum_cons]
    simp [BitVec.add_assoc]

/-- Steps 4 to 6: the checksum field, the flush, the comparison (R140, R141). -/
theorem decodeChecksum_quiet (s : State) (checksum : Word) (tail : List Byte) (h : s.live = []) (hl : s.latch = none)
    (hr : s.rx = be16 checksum ++ tail) :
    decodeChecksum s = decodeCompare { s with rx := [], sumRx := checksum, phase := .cmp } := by
  unfold decodeChecksum
  rw [readU16_quiet false h hl hr]
  simp [h]

/-- DECODE on the bytes of a frame of the configured variant, up to the comparison of the two sums (R135). -/
theorem decodeFrom_frame (s : State) (fields : List Word) (checksum : Word) (tail : List Byte) (ho : s.Operates)
    (h : s.live = []) (hn : fields.length = (configured s).nf)
    (hr : s.rx = frameBytes (configured s).size fields checksum ++ tail) :
    decodeFrom s = decodeCompare { s with
      rx := [], f := loadFields s.f 0 fields, sum := frameChecksum (configured s).size fields, sumRx := checksum
      fvalid := false, phase := .cmp, idx := 0, latch := none } := by
  have hnf := Operates.nf ho
  unfold decodeFrom
  rw [if_neg (by simp [ho.1]), if_neg ho.2]
  unfold decodeHeader
  rw [readU16_quiet true (s := { s with sum := 0, fvalid := false, phase := .hdr, idx := 0, latch := none }) h rfl hr]
  simp only [Access.done_andThen, u16_be16, if_true]
  unfold decodeLength
  rw [readU16_quiet true (hi := (lengthField (configured s).size).extractLsb' 8 8)
    (lo := (lengthField (configured s).size).extractLsb' 0 8) (rest := fields.flatMap be16 ++ (be16 checksum ++ tail))
    (by exact h) rfl (by simp [be16])]
  simp only [Access.done_andThen, u16_be16, if_true, expectedLength, configured] at *
  rw [← hn]
  rw [decodeFields_quiet fields _ (be16 checksum ++ tail) (by exact h) rfl rfl (by simp; omega)]
  rw [decodeChecksum_quiet _ checksum tail (by exact h) rfl rfl]
  congr 1
  simp [frameChecksum, be16, BitVec.add_assoc]

end Sys2Proof.Machine
end

