-- ==== Sys2Proof/Laws/Operations.lean ====
section
/-!
SUPPORT. How operations start and end, and PROJECT.
-/
namespace Sys2Proof.Machine

/-- An operation starts when no other is in progress (R8). -/
theorem command_of_idle {s : State} (h : s.job = .none) (run : State → State) : command s run = .next (run s) := by
  simp [command, h]

/-- An operation that answers was started with no other in progress, and ran (R8). -/
theorem command_next {s t : State} {run : State → State} (h : command s run = .next t) : s.job = .none ∧ t = run s := by
  unfold command at h
  split at h
  · exact ⟨‹_›, by injection h with h; exact h.symm⟩
  · cases h

/-- Between operations the end of one writes RESULT only. -/
theorem finish_of_idle {s : State} (h : s.Idle) (r : ResultCode) : finish r s = { s with result := r } := by
  obtain ⟨h1, h2, h3, h4⟩ := h
  obtain ⟨⟩ := s
  simp only at h1 h2 h3 h4
  subst h1 h2 h3 h4
  rfl

/-- The end of an operation leaves the block between operations (R30). -/
theorem finish_idle (r : ResultCode) (s : State) : (finish r s).Idle := ⟨rfl, rfl, rfl, rfl⟩

/-- Reset leaves the block between operations (R231). -/
theorem blockReset_idle (s : State) : (blockReset s).Idle := ⟨rfl, rfl, rfl, rfl⟩

@[simp] theorem projected_phase (s : State) (p : Phase) : projected { s with phase := p } = projected s := rfl
@[simp] theorem eventSet_phase (s : State) (p : Phase) : eventSet { s with phase := p } = eventSet s := rfl

/-- PROJECT where it projects (R160). -/
theorem project_of_some {s : State} {slots : Vector Slot Config.nSlots} (h : s.init = true) (hp : projected s = some slots) :
    project s = finish .ok { s with out := slots, events := s.events ++ eventSet s } := by
  unfold project
  rw [if_neg (by simp [h])]
  simp only [projected_phase, hp]
  rfl

/-- PROJECT where it refuses (R165). -/
theorem project_of_none {s : State} (h : s.init = true) (hp : projected s = none) : project s = finish .callerError s := by
  unfold project
  rw [if_neg (by simp [h])]
  simp only [projected_phase, hp]
  rfl

end Sys2Proof.Machine
end

