-- ==== Sys2Proof/Laws/PerInstr.lean ====
section
/-!
SUPPORT. Facts stated of every instruction, one lemma per constructor. Family EncodedSize: what a well-formed instruction
is encoded as has the number of bytes the spec gives it (30_encoding.md R71, R80).
-/
namespace Sys2Proof.Laws.EncodedSize

def Statement (i : Instr) : Prop :=
  i.wellFormed = true → ∀ e, encode i = some e → e.sizeBytes = i.sizeBytes

theorem init : Statement .init := by rintro - e ⟨⟩; rfl
theorem config (v : BitVec 4) (p m : BitVec 2) (b : Bool) : Statement (.config v p m b) := by rintro - e ⟨⟩; rfl
theorem frameReady : Statement .frameReady := by rintro - e ⟨⟩; rfl
theorem decode : Statement .decode := by rintro - e ⟨⟩; rfl
theorem project : Statement .project := by rintro - e ⟨⟩; rfl
theorem checkClear : Statement .checkClear := by rintro - e ⟨⟩; rfl
theorem flush : Statement .flush := by rintro - e ⟨⟩; rfl
theorem poll : Statement .poll := by rintro - e ⟨⟩; rfl
theorem reserved0 : Statement .reserved0 := by rintro - e ⟨⟩; rfl
theorem reserved9 : Statement .reserved9 := by rintro - e ⟨⟩; rfl
theorem reservedAB (lo : BitVec 1) : Statement (.reservedAB lo) := by rintro - e ⟨⟩; rfl
theorem reservedCF (lo : BitVec 2) : Statement (.reservedCF lo) := by rintro - e ⟨⟩; rfl
theorem catalog (v : BitVec 4) : Statement (.catalog v) := by rintro - e ⟨⟩
theorem readU16 (acc : Bool) : Statement (.readU16 acc) := by rintro - e ⟨⟩

theorem frame32 (fields : List Word) (checksum : Word) : Statement (.frame32 fields checksum) := by
  rintro h e ⟨⟩
  simp only [Instr.wellFormed, beq_iff_eq] at h
  simp [Encoding.sizeBytes, Instr.sizeBytes, frameBytes_length, h, Config.nfBase, Config.sizeBase]

theorem frame40 (fields : List Word) (checksum : Word) : Statement (.frame40 fields checksum) := by
  rintro h e ⟨⟩
  simp only [Instr.wellFormed, beq_iff_eq] at h
  simp [Encoding.sizeBytes, Instr.sizeBytes, frameBytes_length, h, Config.nfEnvExt, Config.sizeEnvExt]

theorem frame24 (fields : List Word) (checksum : Word) : Statement (.frame24 fields checksum) := by
  rintro h e ⟨⟩
  simp only [Instr.wellFormed, beq_iff_eq] at h
  simp [Encoding.sizeBytes, Instr.sizeBytes, frameBytes_length, h, Config.nfReduced, Config.sizeReduced]

end Sys2Proof.Laws.EncodedSize
end

