-- ==== Sys2Proof/Laws/Synchronizer.lean ====
section
/-!
SUPPORT. One lemma for each part of FRAME_READY that says everything it can do, and its value when nothing arrives.
-/
namespace Sys2Proof.Machine

/-- What a scan leaves of the stream: a run at the head is gone, no signature byte in it, and what arrived is no longer to
come (R122, R128). -/
def Scanned (s t : State) : Prop :=
  s.Unbounded → s.NoReset →
    ∃ gone arrived, s.rx ++ arrived = gone ++ t.rx ∧ arrived ++ toCome t = toCome s ∧ Config.sig1 ∉ gone

theorem Scanned.refl (s : State) : Scanned s s := fun _ _ => ⟨[], [], by simp⟩

theorem Drift.unbounded {s t : State} (h : Drift s t) (hu : s.Unbounded) : t.Unbounded := by
  have := congrArg State.rxCapacity h.only
  exact this.trans hu

theorem Scanned.trans {s t u : State} (hd : Drift s t) (h : Scanned s t) (k : Scanned t u) : Scanned s u := by
  intro hu hn
  obtain ⟨g1, a1, h1, h2, h3⟩ := h hu hn
  obtain ⟨g2, a2, h4, h5, h6⟩ := k (hd.unbounded hu) (hd.noReset hn)
  refine ⟨g1 ++ g2, a1 ++ a2, ?_, ?_, by simp [h3, h6]⟩
  · rw [← List.append_assoc, h1, List.append_assoc, h4, List.append_assoc]
  · rw [List.append_assoc, h5, h2]

/-- `RxPeek()`: the head byte after the gap; nothing is removed (R41, R42). -/
theorem rxPeek_ends (s : State) :
    (rxPeek s).Ends (fun b t => Drift s t ∧ s.rx.length ≤ t.rx.length ∧ (t.rx ≠ [] → t.rx.head? = some b) ∧
        (s.Unbounded → s.NoReset → ∃ bs, t.rx = s.rx ++ bs ∧ bs ++ toCome t = toCome s))
      (fun _ => False) (fun t => AbortedFrom s t) := by
  refine (gap_ends s).bind (fun _ t h => ?_) (fun _ h => h) (fun _ h => h)
  obtain ⟨h1, h2, h3, -⟩ := h
  cases hr : t.rx with
  | nil =>
    rw [hr] at h2 h3
    refine ⟨h1.trans ⟨?_, fun _ c _ => by simp, id⟩, h2, fun hne => absurd rfl hne, h3⟩
    simp [OnlyTransport, ← hr]
  | cons b rest => exact ⟨h1, h2, fun _ => by simp [hr], h3⟩

/-- The discard loop: it never holds, removes no signature byte, and touches only the transport (R122, R125, R128). -/
theorem discard_ends (n : Nat) (s : State) :
    (discard n s).Ends (fun _ t => Drift s t ∧ Scanned s t) (fun _ => False) (fun t => AbortedFrom s t) := by
  induction n generalizing s with
  | zero => exact ⟨.refl s, .refl s⟩
  | succ n ih =>
    unfold discard
    refine (rxAvail_ends s).bind ?_ (fun _ h => h) (fun _ h => h)
    rintro k s1 ⟨rfl, hd1, -, hs1, -⟩
    have hsc1 : Scanned s s1 := fun hu hn => by
      obtain ⟨bs, h1, h2⟩ := hs1 hu hn
      exact ⟨[], bs, by simp [h1], h2, by simp⟩
    split
    · exact ⟨hd1, hsc1⟩
    · rename_i hk
      refine (rxPeek_ends s1).bind ?_ (fun _ h => h) (fun _ h => .of_drift hd1 h)
      rintro b s2 ⟨hd2, hm2, hb, hs2⟩
      have hd12 := hd1.trans hd2
      have hne : s2.rx ≠ [] := by
        intro h
        rw [h, List.length_nil] at hm2
        omega
      have hsc12 : Scanned s s2 := hsc1.trans hd1 fun hu hn => by
        obtain ⟨bs, h1, h2⟩ := hs2 hu hn
        exact ⟨[], bs, by simp [h1], h2, by simp⟩
      split
      · exact ⟨hd12, hsc12⟩
      · rename_i hsig
        refine (rxRead_ends s2).bind ?_ ?_ (fun _ h => .of_drift hd12 h)
        · rintro c s3 ⟨hd3, -, hs3⟩
          have hd123 := hd12.trans hd3
          refine (ih s3).mono ?_ (fun _ h => h) (fun _ h => .of_drift hd123 h)
          rintro - t ⟨h1, h2⟩
          refine ⟨hd123.trans h1, (hsc12.trans hd12 fun hu hn => ?_).trans hd123 h2⟩
          obtain ⟨bs, h4, h5⟩ := hs3 hu hn
          refine ⟨[c], bs, h4, h5, ?_⟩
          have hbc : b = c := by
            have h6 := congrArg List.head? h4
            rw [List.head?_append, hb hne] at h6
            simpa using h6
          subst hbc
          simpa using Ne.symm hsig
        · rintro t ⟨-, -, -, h4, -⟩
          exact absurd h4 hne

/-- Steps 1 to 4 of FRAME_READY: ready means SIZE bytes and the signature byte at the head (R123, R124, R125). -/
theorem sync_ends (size : Nat) (s : State) :
    (sync size s).Ends
      (fun r t => Drift s t ∧ Scanned s t ∧
        (r = .ok ∧ size ≤ t.rx.length ∧ t.rx.head? = some Config.sig1 ∨ r = .notReady))
      (fun _ => False) (fun t => AbortedFrom s t) := by
  have avail : ∀ u : State, (rxAvail u).Ends (fun k t => k = t.rx.length ∧ Drift u t ∧ Scanned u t)
      (fun _ => False) (fun t => AbortedFrom u t) := fun u => by
    refine (rxAvail_ends u).mono ?_ (fun _ h => h) (fun _ h => h)
    rintro k t ⟨h1, h2, -, h3, -⟩
    refine ⟨h1, h2, fun hu hn => ?_⟩
    obtain ⟨bs, h4, h5⟩ := h3 hu hn
    exact ⟨[], bs, by simp [h4], h5, by simp⟩
  unfold sync
  refine (avail s).bind ?_ (fun _ h => h) (fun _ h => h)
  rintro k s1 ⟨-, hd1, hs1⟩
  split
  · exact ⟨hd1, hs1, .inr rfl⟩
  · refine (discard_ends _ s1).bind ?_ (fun _ h => h) (fun _ h => .of_drift hd1 h)
    rintro - s2 ⟨hd2, hs2⟩
    have hd12 := hd1.trans hd2
    have hs12 := hs1.trans hd1 hs2
    refine (avail s2).bind ?_ (fun _ h => h) (fun _ h => .of_drift hd12 h)
    rintro k s3 ⟨rfl, hd3, hs3⟩
    split
    · exact ⟨hd12.trans hd3, hs12.trans hd12 hs3, .inr rfl⟩
    · rename_i h
      simp only [not_or, not_not] at h
      exact ⟨hd12.trans hd3, hs12.trans hd12 hs3, .inl ⟨rfl, by omega, h.2⟩⟩

/-- The head of what the discard loop leaves is the signature byte, unless nothing is left (R130). -/
theorem head_dropWhile_sig (rx : List Byte) (h : rx.dropWhile (fun b => decide (b ≠ Config.sig1)) ≠ []) :
    (rx.dropWhile (fun b => decide (b ≠ Config.sig1))).head? = some Config.sig1 := by
  induction rx with
  | nil => exact absurd rfl h
  | cons b rest ih =>
    by_cases hb : b = Config.sig1
    · simp [hb]
    · simp only [ne_eq, hb, not_false_eq_true, decide_true, List.dropWhile_cons_of_pos] at h ⊢
      exact ih h

/-- Steps 1 to 4 when nothing arrives (R120). -/
theorem sync_quiet (size : Nat) (s : State) (h : s.live = []) (hs : size ≠ 0) :
    sync size s = .done
      (if (s.rx.dropWhile (fun b => decide (b ≠ Config.sig1))).length < size then .notReady else .ok)
      { s with rx := s.rx.dropWhile (fun b => decide (b ≠ Config.sig1)) } := by
  unfold sync
  rw [rxAvail_quiet h, Access.done_bind]
  split
  · rename_i hk
    have hr := List.eq_nil_of_length_eq_zero hk
    obtain ⟨⟩ := s
    simp only at hr
    subst hr
    simp [Nat.pos_of_ne_zero hs]
  · rw [discard_quiet _ h (by simp only [pending]; omega), Access.done_bind, rxAvail_quiet (by exact h), Access.done_bind]
    by_cases hlt : (s.rx.dropWhile (fun b => decide (b ≠ Config.sig1))).length < size
    · rw [if_pos (.inl hlt), if_pos hlt]
    · rw [if_neg, if_neg hlt]
      rw [not_or, not_not]
      refine ⟨hlt, head_dropWhile_sig _ fun h0 => hlt ?_⟩
      rw [h0]
      exact Nat.pos_of_ne_zero hs

end Sys2Proof.Machine
end

