-- ==== Sys2Proof/Tests/Slice0.lean ====
section
/-!
SUPPORT. Tests of the model against the encodings and the vectors of spec/ (30_encoding.md, 95_test_vectors.md), and for
each obligation that has hypotheses a witness: a concrete state and operands that meet them.
-/
namespace Sys2Proof.Tests
open Sys2Proof.Machine

/-- The start state of 95_test_vectors.md: INIT and INITDONE set, the rest as after reset. -/
def base : State := { State.reset with init := true, initDone := true }

/-- The outcome is a next state with this property. -/
def gives (o : Outcome) (p : State → Bool) : Bool :=
  match o with
  | .next t => p t
  | .fault _ | .refused _ => false

/-- The next state, or `s` where there is none. -/
def after (o : Outcome) (s : State) : State :=
  match o with
  | .next t => t
  | .fault _ | .refused _ => s

/-- The named frames of 95_test_vectors.md, their bytes as printed there. -/
def frameB1 : List Byte := [0x42, 0x4D, 0x00, 0x1C, 0, 0, 0, 0, 0, 0, 0x00, 0x05, 0x00, 0x0A, 0x00, 0x14] ++
  List.replicate 14 0 ++ [0x00, 0xCE]
def frameR24 : List Byte := [0x42, 0x4D, 0x00, 0x14, 0x00, 0x01, 0x00, 0x02, 0x00, 0x03, 0x00, 0x04, 0x00, 0x05, 0x00, 0x06,
  0x00, 0x07, 0x00, 0x08, 0x00, 0x09, 0x00, 0xD0]
def frameE40 : List Byte := [0x42, 0x4D, 0x00, 0x24, 0x01, 0x02, 0x03, 0x04, 0x05, 0x06, 0x07, 0x08, 0x09, 0x0A, 0x0B, 0x0C,
  0x0D, 0x0E, 0x0F, 0x10] ++ [0x11, 0x12, 0x13, 0x14, 0x15, 0x16, 0x17, 0x18, 0x19, 0x1A, 0x1B, 0x1C, 0x1D, 0x1E, 0x1F, 0x20,
  0x21, 0x22, 0x03, 0x06]
def frameS3 : List Byte := [0x42, 0x4D, 0x00, 0x10] ++ List.replicate 26 0 ++ [0x00, 0x9F]

/-- The fields of these frames. -/
def fieldsB1 : List Word := [0, 0, 0, 5, 10, 20, 0, 0, 0, 0, 0, 0, 0]
def fieldsR24 : List Word := [1, 2, 3, 4, 5, 6, 7, 8, 9]
def fieldsE40 : List Word := [0x0102, 0x0304, 0x0506, 0x0708, 0x090A, 0x0B0C, 0x0D0E, 0x0F10] ++
  [0x1112, 0x1314, 0x1516, 0x1718, 0x191A, 0x1B1C, 0x1D1E, 0x1F20, 0x2122]

section wellFormed

/-- A frame with one field too few or too many is not well formed (30_encoding.md R71). -/
theorem test_frame32_needs_13_fields : (Instr.frame32 (fieldsB1.drop 1) 0).wellFormed = false ∧
    (Instr.frame32 (0 :: fieldsB1) 0).wellFormed = false ∧ (Instr.frame32 fieldsB1 0).wellFormed = true := by decide
theorem test_frame40_needs_17_fields : (Instr.frame40 (fieldsE40.drop 1) 0).wellFormed = false ∧
    (Instr.frame40 (0 :: fieldsE40) 0).wellFormed = false ∧ (Instr.frame40 fieldsE40 0).wellFormed = true := by decide
theorem test_frame24_needs_9_fields : (Instr.frame24 (fieldsR24.drop 1) 0).wellFormed = false ∧
    (Instr.frame24 (0 :: fieldsR24) 0).wellFormed = false ∧ (Instr.frame24 fieldsR24 0).wellFormed = true := by decide

end wellFormed

section decode

/-- Words written out bit by bit from 30_encoding.md R80, R81, R86: CMD[15:12] is the code, CMD[11:0] as noted. -/
theorem test_decode_init : decode (.cmd 0b0001_0000_0000_0000#16) = .ok .init := by decide
theorem test_decode_config : decode (.cmd 0b0010_0011_10_01_1_000#16) = .ok (.config 3 2 1 true) := by decide
theorem test_decode_frameReady : decode (.cmd 0b0011_0000_0000_0000#16) = .ok .frameReady := by decide
theorem test_decode_decode : decode (.cmd 0b0100_0000_0000_0000#16) = .ok .decode := by decide
theorem test_decode_project : decode (.cmd 0b0101_1111_1111_1111#16) = .ok .project := by decide
theorem test_decode_checkClear : decode (.cmd 0b0110_0000_0000_0001#16) = .ok .checkClear := by decide
theorem test_decode_flush : decode (.cmd 0b0111_1000_0000_0000#16) = .ok .flush := by decide
theorem test_decode_poll : decode (.cmd 0b1000_1010_1011_1100#16) = .ok .poll := by decide
theorem test_decode_reserved0 : decode (.cmd 0b0000_0000_0000_0000#16) = .ok .reserved0 := by decide
theorem test_decode_reserved9 : decode (.cmd 0b1001_0000_0000_0000#16) = .ok .reserved9 := by decide
theorem test_decode_reservedAB : decode (.cmd 0b1010_0001_0010_0011#16) = .ok (.reservedAB 0) ∧
    decode (.cmd 0b1011_0000_0000_0000#16) = .ok (.reservedAB 1) := by decide
theorem test_decode_reservedCF : decode (.cmd 0b1100_0000_0000_0000#16) = .ok (.reservedCF 0) ∧
    decode (.cmd 0b1101_0000_0000_0000#16) = .ok (.reservedCF 1) ∧
    decode (.cmd 0b1110_0000_0000_0000#16) = .ok (.reservedCF 2) ∧
    decode (.cmd 0b1111_1111_1111_1111#16) = .ok (.reservedCF 3) := by decide

/-- V-HO7: CMD[2:0] are ignored. -/
theorem test_decode_config_ignores_low_bits : decode (.cmd 0x2247#16) = .ok (.config 2 1 0 false) := by decide

/-- The named frames B1, E40, R24 (95_test_vectors.md). -/
theorem test_decode_frame32 : decode (.stream frameB1) = .ok (.frame32 fieldsB1 0x00CE) := by decide
theorem test_decode_frame40 : decode (.stream frameE40) = .ok (.frame40 fieldsE40 0x0306) := by decide
theorem test_decode_frame24 : decode (.stream frameR24) = .ok (.frame24 fieldsR24 0x00D0) := by decide

/-- And back: the bytes the encoder writes are those of the vectors, the checksum theirs. -/
theorem test_encode_frames : encode (.frame32 fieldsB1 0x00CE) = some (.stream frameB1) ∧
    encode (.frame40 fieldsE40 0x0306) = some (.stream frameE40) ∧
    encode (.frame24 fieldsR24 0x00D0) = some (.stream frameR24) ∧
    frameChecksum 32 fieldsB1 = 0x00CE ∧ frameChecksum 40 fieldsE40 = 0x0306 ∧ frameChecksum 24 fieldsR24 = 0x00D0 := by
  decide

/-- Every reject by its name (30_encoding.md R71, R72, R76). -/
theorem test_reject_tooShort : decode (.stream [0x42, 0x4D, 0x00]) = .error .tooShort := by decide
theorem test_reject_badSignature : decode (.stream (0x43 :: frameB1.drop 1)) = .error .badSignature := by decide
theorem test_reject_unknownLength : decode (.stream frameS3) = .error .unknownLength := by decide
theorem test_reject_truncated : decode (.stream (frameB1.take 31)) = .error .truncated := by decide
theorem test_reject_trailingBytes : decode (.stream (frameB1 ++ [0])) = .error .trailingBytes := by decide

/-- The opcode table's own numbering of a row: match values of CONFIG and FRAME24. -/
theorem test_table_words : decodeTableWord 16 0x2000 = some (.config 0 0 0 false) ∧
    decodeTableWord 32 0x424D0014 = some (.frame24 (List.replicate 9 0) 0) ∧ decodeTableWord 8 0 = none := by decide

end decode

section step

/-- V-HO1, V-HO2. -/
theorem test_init_attaches : gives (step (State.reset.withFetchWord 16 0x1000))
    (fun t => t.init && t.initDone && status t == 0x01) = true := by decide
theorem test_init_without_transport : gives (exec .init { State.reset with transportPresent := false })
    (fun t => !t.init && t.initDone && status t == 0x08) = true := by decide

/-- V-HO6, V-HO9. -/
theorem test_config_stores : gives (step (State.reset.withFetchWord 16 0x2268))
    (fun t => t.cfgVariant == 2 && t.cfgProj == 1 && t.cfgEvMode == 2 && t.cfgEvEn && t.result == .ok) = true := by decide
theorem test_config_stores_reserved_codes : gives (step (base.withFetchWord 16 0x2FFF))
    (fun t => t.cfgVariant == 15 && t.cfgProj == 3 && t.cfgEvMode == 3 && t.cfgEvEn && t.result == .ok) = true := by decide

/-- V-FR20 in its two legal forms. -/
theorem test_frameReady_race :
    gives (exec .frameReady { base with rx := [0], live := [.recv [], .recv [], .recv [], .recv [], .recv frameB1] })
      (fun t => t.rx == frameB1 && t.ret == some (.ready true)) = true ∧
    gives (exec .frameReady { base with rx := [0] })
      (fun t => t.rx == [] && t.ret == some (.ready false) && t.result == .notReady) = true := by decide
/-- R124: SIZE bytes with another head, arriving between the end of the loop and the count of step 3, are not ready. -/
theorem test_frameReady_needs_the_signature :
    gives (exec .frameReady { base with
        rx := [0], live := [.recv [], .recv [], .recv [], .recv [], .recv [], .recv (List.replicate 32 7)] })
      (fun t => t.rx.length == 32 && t.ret == some (.ready false) && t.result == .notReady) = true := by decide

/-- V-DE16; V-DE23 up to the hold. -/
theorem test_decode_checksum_mismatch : gives (exec .decode { base with rx := frameB1.set 11 0x04 })
    (fun t => t.result == .checksumMismatch && t.sum == 0x00CD && t.sumRx == 0x00CE && t.f.get 3 == 4 && t.rx == [] &&
      !t.fvalid && !t.valRcv) = true := by decide
theorem test_decode_holds : gives (exec .decode { base with rx := frameB1.take 20, fvalid := true })
    (fun t => t.job == .decode && t.phase == .field && t.idx == 8 && t.sum == 0x00CE && !t.fvalid && t.f.get 5 == 20) = true :=
  by decide

/-- V-PR18: the FCOUNT test; V-PR15 on a validated frame: unsigned values. -/
theorem test_project_refuses_short_frame :
    gives (exec .project { base with fvalid := true, fcount := 13, cfgVariant := 2, cfgProj := 1 })
      (fun t => t.result == .callerError && t.out == base.out) = true := by decide
theorem test_project_env_is_unsigned :
    gives (exec .project { base with
        fvalid := true, fcount := 17, cfgVariant := 2, cfgProj := 1
        f := #v[0, 0, 0, 0, 1, 0, 0, 0, 0, 0, 0, 0, 0, 0xFFF6, 0xFFFF, 0, 0] })
      (fun t => t.result == .ok && t.out == #v[⟨1, .by1⟩, ⟨0xFFF6, .by10⟩, ⟨0xFFFF, .by10⟩, ⟨0, .by1000⟩]) = true := by decide

/-- V-HO10, V-HO12. -/
theorem test_checkClear_reads_and_clears : gives (step ({ base with valRcv := true }.withFetchWord 16 0x6000))
    (fun t => t.ret == some (.received true) && !t.valRcv && t.result == .ok) = true := by decide
theorem test_checkClear_not_initialized : gives (exec .checkClear State.reset)
    (fun t => t.ret == some (.received false) && t.result == .notInitialized) = true := by decide

/-- V-HO13 (with a byte that arrives just before the flush and one after), V-HO15. -/
theorem test_flush_empties : gives (exec .flush { base with rx := [1, 2], live := [.recv [3], .recv [4]] })
    (fun t => t.rx == [] && t.live == [.recv [4]] && t.result == .ok) = true := by decide
theorem test_flush_not_initialized : gives (exec .flush { State.reset with rx := [1] })
    (fun t => t.rx == [1] && t.result == .notInitialized) = true := by decide

/-- S2 with the frame E40 (V-PR9); S3 (a). -/
theorem test_poll_env : gives (exec .poll { base with cfgVariant := 2, cfgProj := 1, rx := [0, 0xFF] ++ frameE40 })
    (fun t => t.out == #v[⟨2314, .by1⟩, ⟨6940, .by10⟩, ⟨7454, .by10⟩, ⟨6426, .by1000⟩] && t.rx == [] && t.valRcv &&
      t.sum == 0x0306 && status t == 0x07) = true := by decide
theorem test_poll_flushes_after_invalid_length : gives (step ({ base with rx := frameS3 }.withFetchWord 16 0x8000))
    (fun t => t.rx == [] && t.sum == 0x009F && t.diagLen == 0x0010 && status t == 0x21) = true := by decide

/-- V-HO16. -/
theorem test_reserved0 : gives (step ({ base with rx := frameB1 }.withFetchWord 16 0x0000))
    (fun t => t.result == .callerError && t.rx == frameB1) = true := by decide
theorem test_reserved9 : gives (step (State.reset.withFetchWord 16 0x9000)) (fun t => t.result == .callerError) = true := by
  decide
theorem test_reservedAB : gives (step (base.withFetchWord 16 0xA123)) (fun t => t.result == .callerError) = true := by decide
theorem test_reservedCF : gives (step (base.withFetchWord 16 0xFFFF)) (fun t => t.result == .callerError) = true := by decide

/-- V-CA4, V-CA5. -/
theorem test_catalog_reduced : gives (exec (.catalog 3) base) (fun t => t.ret == some (.entry ⟨24, 9, false, false⟩)) = true := by
  decide
theorem test_catalog_sentinel : gives (exec (.catalog 4) base) (fun t => t.ret == some (.entry ⟨0, 0, false, false⟩)) = true := by
  decide

/-- V-RD1; V-RD8 up to the hold. -/
theorem test_readU16_adds_bytes : gives (exec (.readU16 true) { base with rx := [0x01, 0xF4, 0x99], sum := 0x00AB })
    (fun t => t.ret == some (.value 0x01F4) && t.sum == 0x01A0 && t.rx == [0x99]) = true := by decide
theorem test_readU16_holds : gives (exec (.readU16 true) { base with rx := [0x42] })
    (fun t => t.job == .readU16 true && t.latch == some 0x42 && t.sum == 0 && t.rx == [] && t.ret == none) = true := by decide

/-- A frame joins RX (20_memory.md R46); V-DE24 and then V-DE1: it ends a DECODE that waited for it. -/
theorem test_frame32_joins_rx : gives (exec (.frame32 fieldsB1 0x00CE) { base with rx := [0xFF] })
    (fun t => t.rx == 0xFF :: frameB1) = true := by decide
theorem test_frame32_ends_a_waiting_decode :
    gives (exec (.frame32 fieldsB1 0x00CE) { base with job := .decode, phase := .hdr })
      (fun t => t.result == .ok && t.job == .none && t.fvalid && t.fcount == 13 && t.valRcv && t.sum == 0x00CE && t.rx == []) =
    true := by decide
theorem test_frame40_of_another_variant : gives (exec (.frame40 fieldsE40 0x0306) { base with job := .decode, phase := .hdr })
    (fun t => t.result == .invalidLength && t.diagLen == 0x0024 && t.rx == frameE40.drop 4) = true := by decide
theorem test_frame24_joins_rx : gives (step (base.withFetchWord 32 0x424D0014))
    (fun t => t.rx == [0x42, 0x4D, 0x00, 0x14] ++ List.replicate 20 0) = true := by decide

/-- V-RS2: a reset while a DECODE holds. -/
theorem test_reset_while_holding : gives (step { base with job := .decode, phase := .field, idx := 8, script := [.reset] })
    (fun t => t.job == .none && t.phase == .idle && !t.init && status t == 0x00) = true := by decide

end step

section witness

/-! For each obligation with hypotheses, a state and operands that meet them, at the edges of its clauses. -/

/-- A DECODE that waits for the first byte of its frame, and one that waits for its fifth field. -/
def waiting : State := { base with job := .decode, phase := .hdr }
def waitingField : State := { base with job := .decode, phase := .field, idx := 4, sum := 0xAB }

/-- A state with a validated frame of 17 fields under ENV_EXT. -/
def validated : State := { base with fvalid := true, fcount := 17, cfgVariant := 2 }

theorem witness_DecodeOfEncode : (Instr.config 15 3 3 true).wellFormed = true ∧
    encode (.config 15 3 3 true) = some (.cmd 0x2FF8) ∧ (Instr.frame24 fieldsR24 0xFFFF).wellFormed = true ∧
    encode (.frame24 fieldsR24 0xFFFF) = some (.stream (frameR24.take 22 ++ [0xFF, 0xFF])) := by decide

theorem witness_DecodedChunk : decode (.stream frameE40) = .ok (.frame40 fieldsE40 0x0306) := by decide

/-- The least and the greatest word of the ranges of MatchAndMask. -/
theorem witness_MatchAndMask :
    0x0FFF#16 &&& 0xF000#16 = 0x0000#16 ∧ 0x1000#16 &&& 0xF000#16 = 0x1000#16 ∧ 0x2FFF#16 &&& 0xF000#16 = 0x2000#16 ∧
    0x3FFF#16 &&& 0xF000#16 = 0x3000#16 ∧ 0x4000#16 &&& 0xF000#16 = 0x4000#16 ∧ 0x5FFF#16 &&& 0xF000#16 = 0x5000#16 ∧
    0x6000#16 &&& 0xF000#16 = 0x6000#16 ∧ 0x7FFF#16 &&& 0xF000#16 = 0x7000#16 ∧ 0x8000#16 &&& 0xF000#16 = 0x8000#16 ∧
    0x9FFF#16 &&& 0xF000#16 = 0x9000#16 ∧ 0xA000#16 &&& 0xE000#16 = 0xA000#16 ∧ 0xBFFF#16 &&& 0xE000#16 = 0xA000#16 ∧
    0xC000#16 &&& 0xC000#16 = 0xC000#16 ∧ 0xFFFF#16 &&& 0xC000#16 = 0xC000#16 := by decide

theorem witness_FrameLayout : 6 = 6 + 2 * ([] : List Word).length ∧ 40 = 6 + 2 * fieldsE40.length ∧ 16 < fieldsE40.length ∧
    65534 = 6 + 2 * (List.replicate 32764 (0 : Word)).length := by
  rw [List.length_replicate]; decide

theorem witness_StepRunsTheDecodedInstruction :
    ({ base with script := [eventOf (.cmd 0x8000), .reset] } : State).script = eventOf (.cmd 0x8000) :: [.reset] ∧
    decode (.cmd 0x8000) = .ok .poll ∧
    ({ base with script := [eventOf (.stream frameB1)] } : State).script = eventOf (.stream frameB1) :: [] ∧
    decode (.stream frameB1) = .ok (.frame32 fieldsB1 0x00CE) := by decide

theorem witness_ArrivalBetweenOperations : base.Idle ∧ base.Unbounded ∧ base.script = [] ∧
    ({ base with script := [.recv frameB1] } : State).Idle ∧ ({ base with script := [.recv []] } : State).Unbounded := by decide

theorem witness_CommandDuringAnOperation :
    ({ waiting with script := [.cmd 0x1000] } : State).job ≠ .none ∧
    ({ waiting with script := [.cmd 0x1000] } : State).script = .cmd 0x1000 :: [] := by decide

theorem witness_ResetEvent : ({ waitingField with script := [.reset] } : State).script = .reset :: [] := by decide

/-- A state with `rx` buffered and a reset before the primitive number n + 1. -/
def resetAt (n : Nat) (rx : List Byte) : State := { base with rx := rx, live := List.replicate n (.recv []) ++ [.reset] }

/-- A reset before the first byte and one before the flush; a frame cut off; a header with any length; any bytes. -/
theorem witness_ResetInsideDecode :
    (∀ n ≤ 32, (resetAt n (frameBytes 32 fieldsB1 0x00CE ++ [7])).Idle ∧
      (resetAt n (frameBytes 32 fieldsB1 0x00CE ++ [7])).Operates ∧
      (resetAt n (frameBytes 32 fieldsB1 0x00CE ++ [7])).ResetAfter n []) ∧
    fieldsB1.length = (configured base).nf ∧ 32 = (configured base).size ∧
    (frameBytes 32 fieldsB1 0x00CE ++ [7]).take 33 = frameBytes 32 fieldsB1 0x00CE ++ [7] ∧
    (resetAt 20 ((frameBytes 32 fieldsB1 0x00CE ++ []).take 12)).Idle ∧
    (resetAt 3 frameS3).Idle ∧ frameS3 = 0x42 :: 0x4D :: frameS3.drop 2 ∧ (resetAt 1 []).Idle ∧
    (resetAt 0 [9]).Operates := by decide

/-- A reset at each end of the range of each clause: garbage of two bytes, then a frame, a bad length, a second byte other
than 0x4D, nothing; and nothing at all. -/
theorem witness_ResetInsideTheOtherOperations :
    (resetAt 0 [1]).Idle ∧ (resetAt 0 [1]).ResetAfter 0 [] ∧ base.init = true ∧ (resetAt 1 [1]).ResetAfter 1 [] ∧
    (resetAt 9 ([1, 2] ++ frameB1)).Operates ∧ (0x42 : Byte) ∉ [1, 2] ∧ frameB1.head? = some 0x42 ∧
    9 = 3 * [1, 2].length + 3 ∧ (resetAt 8 ([1, 2] ++ [])).Operates ∧ 8 = 3 * [1, 2].length + 2 ∧
    (resetAt 42 ([1, 2] ++ frameB1)).Operates ∧ 42 = 3 * [1, 2].length + 4 + 32 ∧
    (configured base).size = frameB1.length ∧ frameB1 = frameBytes 32 fieldsB1 0x00CE ++ [] ∧
    (resetAt 14 ([1, 2] ++ frameS3)).Operates ∧ 14 = 3 * [1, 2].length + 4 + 4 ∧
    frameS3 = 0x42 :: 0x4D :: frameS3.drop 2 ∧ frameS3.length = 32 ∧
    (resetAt 11 ([1, 2] ++ 0x42 :: 0x4C :: frameB1.drop 2)).Idle ∧
    (resetAt 11 ([1, 2] ++ 0x42 :: 0x4C :: frameB1.drop 2)).Operates ∧
    (resetAt 11 ([1, 2] ++ 0x42 :: 0x4C :: frameB1.drop 2)).ResetAfter 11 [] ∧ 11 = 3 * [1, 2].length + 4 + 1 ∧
    (0x42 :: 0x4C :: frameB1.drop 2).head? = some 0x42 ∧ (0x42 :: 0x4C :: frameB1.drop 2).length = 32 ∧
    (resetAt 0 ([] ++ [])).Idle ∧ (resetAt 0 ([] ++ [])).Operates ∧ (resetAt 0 ([] ++ [])).ResetAfter 0 [] := by decide

/-- Both cases: a reset that a FLUSH does not reach, and one that aborts a POLL after bytes have arrived. -/
theorem witness_ResetAbortsWithoutAFlush : (resetAt 1 [1]).Idle ∧ (resetAt 1 [1]).Unbounded ∧
    (∃ t, exec .flush (resetAt 1 [1]) = .next t ∧ t.live = [.reset]) ∧
    ({ base with live := [.recv [1], .recv [2], .reset] } : State).Idle ∧ Gap.reset ∉ [.recv [1], .recv [2]] ∧
    (∃ t, exec .poll { base with live := [.recv [1], .recv [2], .reset] } = .next t ∧ t.init = false ∧ t.rx = [1, 2]) :=
  ⟨by decide, by decide, ⟨_, rfl, rfl⟩, by decide, by decide, ⟨_, rfl, rfl, rfl⟩⟩

theorem inv_base : base.Inv := 
  ⟨⟨rfl, rfl, rfl⟩, by unfold State.FrameOk; decide, by unfold State.LifeOk; decide,
    by simp [base, State.reset], by decide⟩
theorem inv_waitingField : waitingField.Inv :=
  ⟨⟨by decide, by decide, by decide⟩, by unfold State.FrameOk; decide, by unfold State.LifeOk; decide,
    by simp [waitingField, base, State.reset], by decide⟩

theorem witness_StepKeepsInvariant : waitingField.Inv ∧ ∃ t, step waitingField = .next t :=
  ⟨inv_waitingField, _, rfl⟩

theorem witness_StepKeepsSumBound : waitingField.SumOk ∧ ∃ t, step waitingField = .next t :=
  ⟨⟨by simp [waitingField], by decide, fun _ => ⟨by decide, by decide⟩⟩, _, rfl⟩

/-- The fields beyond the fourth are hidden from a DECODE that waits for the fifth. -/
theorem witness_HiddenFieldsNeverMatter :
    waitingField.Inv ∧ waitingField.SameButHidden { waitingField with f := waitingField.f.set 4 9 } ∧
    waitingField.f.set 4 9 ≠ waitingField.f := by
  refine ⟨inv_waitingField, ⟨rfl, fun j hj => ?_⟩, by decide⟩
  have h : j.val < 4 := by
    simpa [State.Exposed, waitingField, base, State.reset] using hj
  clear hj; revert h; revert j; decide

theorem witness_Catalog : (0 : BitVec 4).toNat < 4 ∧ (3 : BitVec 4).toNat < 4 ∧ 4 ≤ (4 : BitVec 4).toNat ∧
    4 ≤ (15 : BitVec 4).toNat := by decide

theorem witness_ReadU16 : ({ base with rx := [1, 2] } : State).Idle ∧ ({ base with rx := [1] } : State).Quiet ∧
    base.Quiet ∧ base.rx = [] := by decide

/-- A READ_U16 that holds its first byte; V-RD8. -/
def waitingLow : State := { base with job := .readU16 true, latch := some 0x42, script := [.recv [0x4D, 0x99]] }
theorem witness_HeldRead : waitingLow.job = .readU16 true ∧ waitingLow.phase = .idle ∧ waitingLow.idx = 0 ∧
    waitingLow.latch = some 0x42 ∧ waitingLow.rx = [] ∧ waitingLow.Quiet ∧ waitingLow.Unbounded ∧
    waitingLow.script = .recv (0x4D :: [0x99]) :: [] := by decide

/-- One byte short of a frame and exactly one frame behind garbage; not initialised; an unsupported variant. -/
theorem witness_FrameReadyScans :
    ({ base with rx := 7 :: frameB1.take 31 } : State).Idle ∧ ({ base with rx := 7 :: frameB1.take 31 } : State).Operates ∧
    base.Quiet ∧ ((7 :: frameB1.take 31).dropWhile (fun b => decide (b ≠ 0x42))).length = 31 ∧
    ((7 :: frameB1).dropWhile (fun b => decide (b ≠ 0x42))).length = 32 ∧ (configured base).size = 32 ∧
    State.reset.Idle ∧ State.reset.init = false ∧ (configured { base with cfgVariant := 4 }).size = 0 := by decide

/-- An operation during which garbage, a frame and nothing arrive. -/
def busy : State := { base with rx := [7], live := [.recv [8], .recv [], .recv frameB1, .recv [9]] }
theorem witness_FrameReadyUnderArrivals : busy.Idle ∧ busy.Operates ∧ busy.NoReset ∧ busy.Unbounded ∧ toCome busy ≠ [] := by
  decide

theorem witness_GarbageIsDiscarded :
    ({ base with rx := [1, 2] ++ 0x42 :: [] } : State).Idle ∧ ({ base with rx := [1, 2] ++ 0x42 :: [] } : State).Operates ∧
    base.Quiet ∧ (0x42 : Byte) ∉ [1, 2] ∧ (0x42 : Byte) ∉ [] := by decide

/-- A capacity of 31 bytes, one below SIZE, and an overrun to come. -/
def cramped : State := { base with rxCapacity := some 31, rx := frameB1.take 31, live := [.recv [1], .recv []] }
theorem witness_TooSmallACapacity : cramped.Idle ∧ cramped.Operates ∧ cramped.NoReset ∧ cramped.rxCapacity = some 31 ∧
    cramped.rx.length ≤ 31 ∧ 31 < (configured cramped).size := by decide

theorem witness_UnsupportedVariant : ({ base with cfgVariant := 4 } : State).Idle ∧
    ({ base with cfgVariant := 4 } : State).init = true ∧ 4 ≤ ({ base with cfgVariant := 4 } : State).cfgVariant.toNat ∧
    4 ≤ ({ base with cfgVariant := 15 } : State).cfgVariant.toNat := by decide

theorem witness_DecodeTests : State.reset.Idle ∧ State.reset.init = false ∧ ({ base with cfgVariant := 9 } : State).Idle ∧
    ({ base with cfgVariant := 9 } : State).init = true ∧ (configured { base with cfgVariant := 9 }).size = 0 := by decide

/-- V-DE10 and V-DE11: the second byte wrong, the first byte wrong. -/
theorem witness_DecodeFramingMismatch : base.Idle ∧ base.Operates ∧ base.Quiet ∧
    ¬ ((0x42 : Byte) = 0x42 ∧ (0x4C : Byte) = 0x4D) ∧ ¬ ((0x43 : Byte) = 0x42 ∧ (0x4D : Byte) = 0x4D) := by decide

/-- Declared lengths one below and one above 28, and the smallest and the greatest; a frame that is just ready. -/
theorem witness_InvalidLength : ({ base with rx := frameS3 } : State).Idle ∧ ({ base with rx := frameS3 } : State).Operates ∧
    ({ base with rx := frameS3 } : State).Quiet ∧ frameS3 = 0x42 :: 0x4D :: 0x00 :: 0x10 :: frameS3.drop 4 ∧
    0 * 256 + 27 ≠ (configured base).size - 4 ∧ 0 * 256 + 29 ≠ (configured base).size - 4 ∧
    0 * 256 + 0 ≠ (configured base).size - 4 ∧ 255 * 256 + 255 ≠ (configured base).size - 4 ∧
    (configured base).size = frameS3.length := by decide

/-- V-DE9 and V-DE18. -/
def good : State := { base with rx := frameBytes 32 fieldsB1 0x00CE ++ [1, 2] }
def bad : State := { base with rx := frameBytes 32 fieldsB1 0x01CE }
theorem witness_DecodeAcceptsAGoodFrame : good.Idle ∧ good.Operates ∧ good.Quiet ∧ fieldsB1.length = (configured good).nf ∧
    good.rx = frameBytes (configured good).size fieldsB1 0x00CE ++ [1, 2] ∧
    0x00CE#16 = BitVec.ofNat 16 ((good.rx.take ((configured good).size - 2)).map BitVec.toNat).sum := by decide
theorem witness_DecodeChecksumMismatch : bad.Idle ∧ bad.Operates ∧ bad.Quiet ∧ fieldsB1.length = (configured bad).nf ∧
    bad.rx = frameBytes (configured bad).size fieldsB1 0x01CE ++ [] ∧
    0x01CE#16 ≠ BitVec.ofNat 16 ((bad.rx.take ((configured bad).size - 2)).map BitVec.toNat).sum := by decide

/-- The first and the last byte of the signature, the length, the fields with the checksum; a wrong length. -/
theorem witness_LengthErrorsAndSingleBitErrors : ({ base with rx := frameB1 } : State).Idle ∧
    ({ base with rx := frameB1 } : State).Operates ∧ ({ base with rx := frameB1 } : State).Quiet ∧
    (∀ p ∈ [0, 1, 2, 3, 4, 31], p < frameB1.length ∧ p < (configured base).size) ∧
    (after (exec .decode { base with rx := frameB1 }) base).result = .ok ∧
    (after (exec .decode { base with rx := frameB1 }) base).job = .none ∧
    frameS3 = 0x42 :: 0x4D :: 0x00 :: 0x10 :: frameS3.drop 4 ∧ 0 * 256 + 16 ≠ (configured base).size - 4 := by decide

/-- V-DE19: the first and the last field can be exchanged. -/
theorem witness_ExchangedBytes : 0 < fieldsR24.length ∧ 8 < fieldsR24.length ∧
    ({ base with cfgVariant := 3, rx := frameBytes 24 fieldsR24 0x00D0 } : State).Idle ∧
    ({ base with cfgVariant := 3, rx := frameBytes 24 fieldsR24 0x00D0 } : State).Operates ∧
    fieldsR24.length = (configured { base with cfgVariant := 3 }).nf ∧
    (after (exec .decode { base with cfgVariant := 3, rx := frameBytes 24 fieldsR24 0x00D0 }) base).result = .ok ∧
    (after (exec .decode { base with cfgVariant := 3, rx := frameBytes 24 fieldsR24 0x00D0 }) base).job = .none := by decide

/-- V-DE23 and V-DE24: with 20 bytes and with none the DECODE waits. -/
theorem witness_DecodeGoesOn : ({ base with rx := frameB1.take 20 } : State).Idle ∧ base.Quiet ∧ base.Unbounded ∧
    (∃ t, exec .decode { base with rx := frameB1.take 20 } = .next t ∧ t.job ≠ .none) ∧
    (∃ t, exec .decode base = .next t ∧ t.job ≠ .none) :=
  ⟨by decide, by decide, by decide, ⟨_, rfl, by decide⟩, ⟨_, rfl, by decide⟩⟩

theorem witness_ArrivalsDuringDecode : ({ busy with rx := frameB1 } : State).Idle ∧
    ({ busy with rx := frameB1 } : State).Operates ∧ ({ busy with rx := frameB1 } : State).NoReset ∧
    ({ busy with rx := frameB1 } : State).Unbounded ∧ (configured busy).size = frameB1.length := by decide

theorem witness_ProjectMass : validated.Idle ∧ validated.Operates ∧ validated.fvalid = true ∧ validated.cfgProj = 0 ∧
    ({ base with cfgVariant := 3, fvalid := true, fcount := 9 } : State).Operates := by decide
theorem witness_ProjectEnv : ({ validated with cfgProj := 1, fcount := 15 } : State).Idle ∧
    ({ validated with cfgProj := 1, fcount := 15 } : State).init = true ∧ validated.cfgVariant = 2 ∧
    validated.fvalid = true ∧ 15 ≤ (15 : BitVec 5).toNat ∧ ({ validated with cfgVariant := 1 } : State).cfgVariant ≠ 2 ∧
    ({ validated with cfgVariant := 3 } : State).cfgVariant ≠ 2 := by decide
theorem witness_ProjectCount : ({ validated with cfgProj := 2, fcount := 12, cfgVariant := 1 } : State).Idle ∧
    ({ validated with cfgProj := 2, fcount := 12, cfgVariant := 1 } : State).init = true ∧
    11 < (12 : BitVec 5).toNat ∧ validated.fvalid = true := by decide
/-- Each case of refusal by its least and greatest values. -/
theorem witness_ProjectRefusals : base.Idle ∧ base.init = true ∧ base.fvalid = false ∧ 4 ≤ (4 : BitVec 4).toNat ∧
    4 ≤ (15 : BitVec 4).toNat ∧ (14 : BitVec 5).toNat < 15 ∧ (11 : BitVec 5).toNat ≤ 11 ∧ (1 : BitVec 4) ≠ 2 ∧
    ({ validated with cfgProj := 3 } : State).cfgProj = 3 := by decide
theorem witness_Events : ({ validated with cfgEvEn := true, cfgEvMode := 3 } : State).Idle ∧
    ∃ t, exec .project { validated with cfgEvEn := true, cfgEvMode := 3 } = .next t :=
  ⟨by decide, _, rfl⟩

theorem witness_Init : State.reset.Idle ∧ State.reset.initDone = false ∧ State.reset.transportPresent = true ∧
    ({ State.reset with transportPresent := false } : State).transportPresent = false ∧ base.Idle ∧ base.initDone = true ∧
    base.init = true ∧ ({ base with init := false } : State).init = false := by decide
theorem witness_Idle : base.Idle ∧ State.reset.Idle ∧ base.init = true ∧ State.reset.init = false := by decide
theorem witness_Flush : busy.Idle ∧ busy.init = true ∧ busy.NoReset ∧ busy.Unbounded ∧ State.reset.init = false := by decide
theorem witness_NotInitialized : State.reset.Idle ∧ State.reset.init = false := by decide

/-- POLL on garbage, a good frame and a tail, under each projection. -/
def pollMass : State := { base with rx := [1, 2] ++ frameBytes 32 fieldsB1 0x00CE ++ [0x42] }
def pollEnv : State := { base with cfgVariant := 2, cfgProj := 1, rx := [] ++ frameBytes 40 fieldsE40 0x0306 ++ [] }
def pollCount : State := { pollEnv with cfgProj := 2 }
theorem witness_PollDelivers : pollMass.Idle ∧ pollMass.Operates ∧ pollMass.Quiet ∧ (0x42 : Byte) ∉ [1, 2] ∧
    fieldsB1.length = (configured pollMass).nf ∧ pollMass.cfgProj = 0 ∧
    0x00CE#16 = BitVec.ofNat 16
      (((frameBytes (configured pollMass).size fieldsB1 0x00CE).take ((configured pollMass).size - 2)).map BitVec.toNat).sum := by
  decide
theorem witness_PollDelivers_env : pollEnv.Idle ∧ pollEnv.Operates ∧ pollEnv.Quiet ∧
    fieldsE40.length = (configured pollEnv).nf ∧ pollEnv.cfgProj = 1 ∧ (configured pollEnv).hasEnv = true ∧
    0x0306#16 = BitVec.ofNat 16
      (((frameBytes (configured pollEnv).size fieldsE40 0x0306).take ((configured pollEnv).size - 2)).map BitVec.toNat).sum := by
  decide
theorem witness_PollDelivers_count : pollCount.Idle ∧ pollCount.Operates ∧ pollCount.Quiet ∧ pollCount.cfgProj = 2 ∧
    (configured pollCount).hasCounts = true := by decide

/-- PollIsItsParts: not ready; ready and OK; ready and InvalidLength; ready and another failure. -/
theorem witness_PollIsItsParts : base.Idle ∧ busy.Idle ∧ busy.NoReset ∧ busy.Unbounded ∧ cramped.NoReset ∧
    (after (exec .frameReady base) base).result = .notReady ∧ (after (exec .frameReady busy) base).result = .ok ∧
    (after (exec .decode { base with rx := frameB1 }) base).result = .ok ∧
    (after (exec .decode { base with rx := frameS3 }) base).result = .invalidLength ∧
    (after (exec .decode bad) base).result = .checksumMismatch := by decide

/-- PollNeverHolds: with an overrun to come, and with a reset to come. -/
theorem witness_PollNeverHolds : cramped.Idle ∧ (resetAt 7 frameB1).Idle := by decide

/-- Exactly SIZE bytes, with the second byte wrong (V-HO19) and right (B1). -/
theorem witness_PollFlushes : ({ base with rx := 0x42 :: 0x4C :: frameB1.drop 2 } : State).Idle ∧
    ({ base with rx := 0x42 :: 0x4C :: frameB1.drop 2 } : State).Operates ∧ base.Quiet ∧
    (configured base).size = (0x42 :: 0x4C :: frameB1.drop 2).length ∧ (0x4C : Byte) ≠ 0x4D ∧
    frameB1 = 0x42 :: 0x4D :: frameB1.drop 2 := by decide

theorem witness_NotReady : ({ base with rx := 7 :: frameB1.take 31 } : State).Idle ∧
    ({ base with rx := 7 :: frameB1.take 31 } : State).Operates ∧ base.Quiet ∧
    ((7 :: frameB1.take 31).dropWhile (fun b => decide (b ≠ 0x42))).length + 1 = (configured base).size := by decide

theorem witness_ArrivingFrame : base.job = .none ∧ base.Unbounded := by decide

/-- DECODE from an empty RX under two variants; the three numbers of fields. -/
theorem witness_WaitingDecode : base.Idle ∧ base.Operates ∧ base.Quiet ∧ base.Unbounded ∧ base.rx = [] ∧
    exec .decode base = .next waiting ∧ ({ base with cfgVariant := 3 } : State).Operates ∧
    fieldsB1.length = 13 ∧ fieldsE40.length = 17 ∧ fieldsR24.length = 9 :=
  ⟨by decide, by decide, by decide, by decide, rfl, rfl, by decide, rfl, rfl, rfl⟩

/-- The flag set by a DECODE, cleared by CHECK_CLEAR, cleared by a reset inside an operation. -/
theorem witness_NewMeasurementFlag :
    (∃ t, exec .decode good = .next t ∧ good.valRcv = false ∧ t.valRcv = true ∧ t.result = .ok ∧ t.fvalid = true) ∧
    (∃ t, exec .checkClear { base with valRcv := true } = .next t ∧ t.valRcv = false) ∧
    (∃ t, exec .flush { base with valRcv := true, live := [.reset] } = .next t ∧ t.valRcv = false ∧ t.live = []) :=
  ⟨⟨_, rfl, by decide⟩, ⟨_, rfl, by decide⟩, ⟨_, rfl, rfl, rfl⟩⟩

theorem witness_SlotsChange : pollMass.NoReset ∧ ∃ t, exec .poll pollMass = .next t ∧ t.out ≠ pollMass.out :=
  ⟨by decide, _, rfl, by decide⟩

theorem witness_RegistersAreWritten : busy.NoReset ∧ (∃ t, exec .frameReady busy = .next t) ∧
    (∃ t, exec .init busy = .next t) ∧ (∃ t, exec (.frame32 fieldsB1 0) busy = .next t) ∧ busy.job = .none ∧
    (∃ bs, encode (.frame32 fieldsB1 0) = some (.stream bs)) :=
  ⟨by decide, ⟨_, rfl⟩, ⟨_, rfl⟩, ⟨_, rfl⟩, rfl, ⟨_, rfl⟩⟩

end witness

end Sys2Proof.Tests
end

section
/-!
PROOFS. The new-measurement flag (10_state.md R18): what each shared operation, and then each instruction, can do to VALRCV.
Every operation keeps it, validates a frame, or is aborted by a reset that it met in one of its gaps.
-/
namespace Sys2Proof.Machine

/-- The fields outside the block, but for RX and the gaps: an aborting reset leaves them alone (log entry 21). -/
def State.outside (s : State) : List Input × Option Returned × List Notification × Bool × Option Nat :=
  (s.script, s.ret, s.events, s.transportPresent, s.rxCapacity)

/-- The step from `s` to `t` inside an operation: VALRCV and what lies outside the block stay, FVALID is not raised, and no
gap that was passed brought a reset. -/
structure Ahead (s t : State) : Prop where
  flag : t.valRcv = s.valRcv
  valid : t.fvalid = true → s.fvalid = true
  outside : t.outside = s.outside
  gaps : ∃ before, Gap.reset ∉ before ∧ s.live = before ++ t.live

/-- `t` is `s` after a reset that the operation met in one of its gaps, the first one there is (R231). -/
def ResetTaken (s t : State) : Prop :=
  s.ResetTo t t.rx t.live ∧ ∃ before, Gap.reset ∉ before ∧ s.live = before ++ .reset :: t.live

/-- `t` holds the measurement of a DECODE that ended OK (R142). -/
structure Validated (t : State) : Prop where
  flag : t.valRcv = true
  valid : t.fvalid = true
  sums : t.sum = t.sumRx
  count : t.fcount.toNat = (configured t).nf

/-- How an operation from `s` to `t` can treat VALRCV; `decoding` is what lets it validate a frame. -/
inductive FlagOutcome (decoding : Prop) (s t : State) : Prop
  | kept (flag : t.valRcv = s.valRcv) (valid : t.fvalid = true → s.fvalid = true)
  | validated (may : decoding) (frame : Validated t)
  | aborted (reset : ResetTaken s t)

section relations
variable {s t u : State} {P Q : Prop}

/-- An update of other registers; for a record update all four premises are evident. -/
theorem Ahead.of_update (flag : t.valRcv = s.valRcv := by rfl) (valid : t.fvalid = true → s.fvalid = true := by exact id)
    (outside : t.outside = s.outside := by rfl) (live : t.live = s.live := by rfl) : Ahead s t :=
  ⟨flag, valid, outside, [], by simp, by simp [live]⟩

theorem Ahead.refl (s : State) : Ahead s s := .of_update

theorem Ahead.trans (h : Ahead s t) (k : Ahead t u) : Ahead s u := by
  obtain ⟨before, hb, hs⟩ := h.gaps
  obtain ⟨between, hb', ht⟩ := k.gaps
  exact ⟨k.flag.trans h.flag, h.valid ∘ k.valid, k.outside.trans h.outside, before ++ between, by simp [hb, hb'],
    by rw [hs, ht, List.append_assoc]⟩

/-- Bytes that arrive touch RX only. -/
theorem ahead_receive (bs : List Byte) (s : State) : Ahead s (receive bs s) :=
  .of_update (by simp) (by simp) (by simp [State.outside]) (by simp)

/-- A gap without a reset is passed. -/
theorem ahead_receive_gap {bs : List Byte} {rest : List Gap} (h : s.live = .recv bs :: rest) :
    Ahead s (receive bs { s with live := rest }) :=
  ⟨by simp, by simp, by simp [State.outside], [.recv bs], by simp, by simp [h]⟩

/-- A gap with a reset aborts. -/
theorem resetTaken_of_gap {rest : List Gap} (h : s.live = .reset :: rest) :
    ResetTaken s (blockReset { s with live := rest }) :=
  ⟨⟨_, _, rfl⟩, [], by simp, by simp [h]⟩

theorem ResetTaken.of_ahead (h : Ahead s t) (k : ResetTaken t u) : ResetTaken s u := by
  obtain ⟨⟨f, fresh, hu⟩, between, hb', ht⟩ := k
  obtain ⟨before, hb, hs⟩ := h.gaps
  have ho := h.outside
  simp only [State.outside, Prod.mk.injEq] at ho
  obtain ⟨hscript, hret, hevents, hpresent, hcapacity⟩ := ho
  rw [hscript, hret, hevents, hpresent, hcapacity] at hu
  exact ⟨⟨f, fresh, hu⟩, before ++ between, by simp [hb, hb'], by rw [hs, ht, List.append_assoc]⟩

theorem ResetTaken.flags (h : ResetTaken s t) : t.valRcv = false ∧ t.fvalid = false := by
  obtain ⟨⟨_, _, ht⟩, -⟩ := h
  rw [ht]
  exact ⟨rfl, rfl⟩

theorem FlagOutcome.of_ahead (h : Ahead s t) : FlagOutcome P s t := .kept h.flag h.valid

theorem FlagOutcome.after (h : Ahead s t) (k : FlagOutcome P t u) : FlagOutcome P s u := by
  cases k with
  | kept flag valid => exact .kept (flag.trans h.flag) (h.valid ∘ valid)
  | validated may frame => exact .validated may frame
  | aborted reset => exact .aborted (.of_ahead h reset)

/-- An operation that goes on from an update of other registers. -/
theorem FlagOutcome.of_update (k : FlagOutcome P t u) (flag : t.valRcv = s.valRcv := by rfl)
    (valid : t.fvalid = true → s.fvalid = true := by exact id) (outside : t.outside = s.outside := by rfl)
    (live : t.live = s.live := by rfl) : FlagOutcome P s u :=
  .after (.of_update flag valid outside live) k

theorem FlagOutcome.mono (h : FlagOutcome P s t) (k : P → Q) : FlagOutcome Q s t := by
  cases h with
  | kept flag valid => exact .kept flag valid
  | validated may frame => exact .validated (k may) frame
  | aborted reset => exact .aborted reset

end relations

section accesses

/-- An access from `s` gets ahead, or waits ahead, or is aborted by a reset it met. -/
abbrev Access.Advances {α : Type} (s : State) (m : Access α) : Prop :=
  m.Ends (fun _ => Ahead s) (Ahead s) (ResetTaken s)

theorem Access.Advances.after {α : Type} {s t : State} {m : Access α} (h : Ahead s t) (k : m.Advances t) : m.Advances s :=
  k.mono (fun _ _ => h.trans) (fun _ => h.trans) (fun _ => .of_ahead h)

/-- An access from an update of other registers. -/
theorem Access.Advances.of_update {α : Type} {s t : State} {m : Access α} (k : m.Advances t)
    (flag : t.valRcv = s.valRcv := by rfl) (valid : t.fvalid = true → s.fvalid = true := by exact id)
    (outside : t.outside = s.outside := by rfl) (live : t.live = s.live := by rfl) : m.Advances s :=
  .after (.of_update flag valid outside live) k

theorem Access.Advances.bind {α β : Type} {s : State} {m : Access α} {k : α → State → Access β} (h : m.Advances s)
    (hk : ∀ a t, (k a t).Advances t) : (m.bind k).Advances s :=
  Access.Ends.bind h (fun a t ht => (hk a t).after ht) (fun _ => id) (fun _ => id)

theorem Access.Advances.andThen {α : Type} {P : Prop} {s : State} {m : Access α} {k : α → State → State}
    (h : m.Advances s) (hk : ∀ a t, FlagOutcome P t (k a t)) : FlagOutcome P s (m.andThen k) :=
  Access.Ends.andThen h (fun a t ht => (hk a t).after ht) (fun _ => .of_ahead) (fun _ => .aborted)

theorem gap_advances (s : State) : (gap s).Advances s := by
  unfold gap
  split
  · exact Ahead.refl s
  · next h => exact ahead_receive_gap h
  · next h => exact resetTaken_of_gap h

theorem rxAvail_advances (s : State) : (rxAvail s).Advances s :=
  (gap_advances s).bind fun _ t => Ahead.refl t

theorem rxPeek_advances (s : State) : (rxPeek s).Advances s := by
  refine (gap_advances s).bind fun _ t => ?_
  split
  · exact Ahead.refl t
  · exact Ahead.of_update

theorem rxReadWait_advances (live : List Gap) (s : State) (h : s.live = live) : (rxReadWait live s).Advances s := by
  induction live generalizing s with
  | nil =>
    unfold rxReadWait
    split
    · exact Ahead.of_update
    · exact Ahead.refl s
  | cons g live ih =>
    cases g with
    | reset => exact resetTaken_of_gap h
    | recv bs =>
      have passed := ahead_receive_gap h
      simp only [rxReadWait]
      split
      · exact passed.trans .of_update
      · exact (ih _ (by simp)).after passed

theorem rxRead_advances (s : State) : (rxRead s).Advances s := rxReadWait_advances s.live s rfl

theorem rxFlush_advances (s : State) : (rxFlush s).Advances s :=
  (gap_advances s).bind fun _ _ => Ahead.of_update

theorem readLow_advances (acc : Bool) (hi : Byte) (s : State) : (readLow acc hi s).Advances s :=
  (rxRead_advances s).bind fun _ _ => Ahead.of_update

theorem readU16_advances (acc : Bool) (s : State) : (readU16 acc s).Advances s := by
  unfold readU16
  split
  · exact readLow_advances acc _ s
  · exact (rxRead_advances s).bind fun hi t => (readLow_advances acc hi _).of_update

theorem discard_advances (n : Nat) (s : State) : (discard n s).Advances s := by
  induction n generalizing s with
  | zero => exact Ahead.refl s
  | succ n ih =>
    refine (rxAvail_advances s).bind fun k t => ?_
    split
    · exact Ahead.refl t
    refine (rxPeek_advances t).bind fun b u => ?_
    split
    · exact Ahead.refl u
    exact (rxRead_advances u).bind fun _ => ih

theorem sync_advances (size : Nat) (s : State) : (sync size s).Advances s := by
  refine (rxAvail_advances s).bind fun k t => ?_
  split
  · exact Ahead.refl t
  refine (discard_advances _ t).bind fun _ u => (rxAvail_advances u).bind fun k v => ?_
  split <;> exact Ahead.refl v

theorem frameReady_advances (s : State) : (frameReady s).Advances s := by
  unfold frameReady
  split
  · exact Ahead.refl s
  split
  · exact Ahead.refl s
  exact (sync_advances _ _).of_update

end accesses

section operations
variable {P : Prop} (s : State)

/-- What PROJECT can do at all: it writes OUT and appends notifications, and ends (R160, R165). -/
theorem project_eq_finish : ∃ r out events, project s = finish r { s with out := out, events := events } := by
  by_cases hinit : s.init = true
  · cases hslots : projected s with
    | none => exact ⟨.callerError, s.out, s.events, project_of_none hinit hslots⟩
    | some slots => exact ⟨.ok, slots, _, project_of_some hinit hslots⟩
  · exact ⟨.notInitialized, s.out, s.events, if_pos (by simpa using hinit)⟩

theorem project_outcome : FlagOutcome P s (project s) := by
  obtain ⟨_, _, _, h⟩ := project_eq_finish s
  rw [h]
  exact .kept rfl id

theorem Validated.finish {s : State} (h : Validated s) (r : ResultCode) : Validated (finish r s) :=
  ⟨h.flag, h.valid, h.sums, h.count⟩

theorem Validated.project {s : State} (h : Validated s) : Validated (project s) := by
  obtain ⟨_, _, _, hp⟩ := project_eq_finish s
  rw [hp]
  exact ⟨h.flag, h.valid, h.sums, h.count⟩

/-- The flush of POLL and that of FLUSH, and the end after it (R188, R191). -/
theorem flush_finish_outcome (r : ResultCode) :
    FlagOutcome P s ((rxFlush { s with phase := .flushing }).andThen fun _ s => finish r s) :=
  ((rxFlush_advances _).of_update).andThen fun _ _ => .kept rfl id

theorem pollEnd_outcome (r : ResultCode) : FlagOutcome P s (pollEnd r s) := by
  unfold pollEnd
  split
  · exact project_outcome s
  · exact flush_finish_outcome s .invalidLength
  · exact .kept rfl id

theorem decodeEnd_outcome (r : ResultCode) : FlagOutcome P s (decodeEnd r s) := by
  unfold decodeEnd
  split
  · exact pollEnd_outcome s r
  · exact .kept rfl id

theorem Validated.decodeEnd {s : State} (h : Validated s) : Validated (decodeEnd .ok s) := by
  unfold Machine.decodeEnd
  split
  · exact h.project
  · exact h.finish .ok

/-- FCOUNT is wide enough for the number of fields of every variant (R12, R105). -/
theorem configured_nf_toNat : (BitVec.ofNat 5 (configured s).nf).toNat = (configured s).nf := by
  have hcases := catalog_cases s.cfgVariant
  have hlt : (configured s).nf < 2 ^ 5 := by unfold configured; omega
  exact Nat.mod_eq_of_lt hlt

theorem decodeCompare_outcome : FlagOutcome True s (decodeCompare s) := by
  unfold decodeCompare
  split
  · next hsum => exact .validated trivial (Validated.decodeEnd ⟨rfl, rfl, hsum, configured_nf_toNat s⟩)
  · exact decodeEnd_outcome s .checksumMismatch

theorem decodeChecksum_outcome : FlagOutcome True s (decodeChecksum s) := by
  refine (readU16_advances false s).andThen fun v t => ?_
  refine ((rxFlush_advances _).of_update).andThen fun _ u => ?_
  exact (decodeCompare_outcome _).of_update

theorem decodeFields_outcome (n : Nat) : FlagOutcome True s (decodeFields n s) := by
  induction n generalizing s with
  | zero => exact (decodeChecksum_outcome _).of_update
  | succ n ih =>
    exact (readU16_advances true s).andThen fun v t => (ih _).of_update

theorem decodeLength_outcome : FlagOutcome True s (decodeLength s) := by
  refine (readU16_advances true s).andThen fun v t => ?_
  split
  · exact (decodeFields_outcome _ _).of_update
  · exact (decodeEnd_outcome _ _).of_update

theorem decodeHeader_outcome : FlagOutcome True s (decodeHeader s) := by
  refine (readU16_advances true s).andThen fun v t => ?_
  split
  · exact (decodeLength_outcome _).of_update
  · exact decodeEnd_outcome t .framingMismatch

theorem decodeFrom_outcome : FlagOutcome True s (decodeFrom s) := by
  unfold decodeFrom
  split
  · exact decodeEnd_outcome s .notInitialized
  split
  · exact decodeEnd_outcome s .callerError
  · exact (decodeHeader_outcome _).of_update (valid := nofun)

theorem byteReader_outcome (acc : Bool) : FlagOutcome P s (byteReader acc s) :=
  (readU16_advances acc s).andThen fun _ _ => .kept rfl id

/-- An operation in progress validates a frame only where it is a DECODE, its own or that of a POLL. -/
theorem resume_outcome : FlagOutcome (s.job = .decode ∨ s.job = .poll) s (resume s) := by
  unfold resume
  split
  · exact .of_ahead (.refl s)
  · exact byteReader_outcome s _
  all_goals
    next hjob =>
      refine FlagOutcome.mono (P := True) ?_ fun _ => by simp [hjob]
      split
      · exact decodeHeader_outcome s
      · exact decodeLength_outcome s
      · exact decodeFields_outcome s _
      · exact decodeChecksum_outcome s
      all_goals exact .of_ahead (.refl s)

theorem deliver_outcome (bs : List Byte) : FlagOutcome (s.job = .decode ∨ s.job = .poll) s (deliver bs s) := by
  have resumed := resume_outcome (receive bs s)
  rw [receive_job] at resumed
  exact resumed.after (ahead_receive bs s)

theorem opInit_outcome : FlagOutcome P s (opInit s) := by
  unfold opInit
  split
  · exact .kept rfl id
  split <;> exact .kept rfl id

theorem opFrameReady_outcome : FlagOutcome P s (opFrameReady s) :=
  (frameReady_advances s).andThen fun _ _ => .kept rfl id

theorem opFlush_outcome : FlagOutcome P s (opFlush s) := by
  unfold opFlush
  split
  · exact .kept rfl id
  · exact flush_finish_outcome s .ok

theorem opPoll_outcome : FlagOutcome True s (opPoll s) := by
  refine (frameReady_advances s).andThen fun r t => ?_
  split
  · exact (decodeFrom_outcome _).of_update
  · exact .kept rfl id

/-- CHECK_CLEAR never sets VALRCV (R186). -/
theorem opCheckClear_not_sets (h : s.valRcv = false) : (opCheckClear s).valRcv = false := by
  unfold opCheckClear
  split
  · exact h
  · rfl

/-- DECODE either ends at one of its first two tests, with another code than OK, or starts with FVALID cleared (R143, R144). -/
theorem opDecode_cases : (∃ r, r ≠ .ok ∧ opDecode s = finish r s) ∨ FlagOutcome True { s with fvalid := false } (opDecode s) := by
  unfold opDecode decodeFrom
  split
  · exact .inl ⟨.notInitialized, nofun, rfl⟩
  split
  · exact .inl ⟨.callerError, nofun, rfl⟩
  · exact .inr (decodeHeader_outcome _).of_update

/-- A DECODE that ends OK with a valid frame has set VALRCV (R142). -/
theorem opDecode_sets (hok : (opDecode s).result = .ok) (hvalid : (opDecode s).fvalid = true) :
    (opDecode s).valRcv = true := by
  obtain ⟨r, hr, h⟩ | outcome := opDecode_cases s
  · rw [h] at hok
    exact absurd hok hr
  cases outcome with
  | kept _ valid => cases valid hvalid
  | validated _ frame => exact frame.flag
  | aborted reset => simp [reset.flags] at hvalid

end operations

/-- The instructions and operations in progress in which a DECODE runs. -/
def Decodes (i : Instr) (s : State) : Prop := i = .decode ∨ i = .poll ∨ s.job = .decode ∨ s.job = .poll

theorem command_outcome {P : Prop} {s t : State} {run : State → State} (h : command s run = .next t)
    (k : FlagOutcome P s (run s)) : FlagOutcome P s t := (command_next h).2 ▸ k

/-- What an instruction other than CHECK_CLEAR can do to VALRCV (R18). -/
theorem exec_outcome {i : Instr} {s t : State} (h : exec i s = .next t) (hi : i ≠ .checkClear) :
    FlagOutcome (Decodes i s) s t := by
  have delivers (bs : List Byte) : FlagOutcome (Decodes i s) s (deliver bs s) :=
    (deliver_outcome s bs).mono fun job => .inr (.inr job)
  cases i with
  | checkClear => exact absurd rfl hi
  | init => exact command_outcome h (opInit_outcome s)
  | config =>
    simp only [exec, execConfig] at h
    exact command_outcome h (.kept rfl id)
  | frameReady => exact command_outcome h (opFrameReady_outcome s)
  | decode => exact command_outcome h ((decodeFrom_outcome _).of_update.mono fun _ => .inl rfl)
  | project => exact command_outcome h (project_outcome s)
  | flush => exact command_outcome h (opFlush_outcome s)
  | poll => exact command_outcome h ((opPoll_outcome s).mono fun _ => .inr (.inl rfl))
  | reserved0 | reserved9 | reservedAB | reservedCF => exact command_outcome h (.kept rfl id)
  | catalog => cases h; exact .kept rfl id
  | readU16 acc =>
    simp only [exec, execReadU16] at h
    exact command_outcome h (byteReader_outcome _ acc).of_update
  | frame32 | frame40 | frame24 => cases h; exact delivers _

/-- Settles O55: every instruction but CHECK_CLEAR keeps VALRCV, validates a frame or is aborted by a reset. -/
theorem newMeasurementFlagSetAndClearedOnlySo : Obligations.NewMeasurementFlagSetAndClearedOnlySo := by
  intro i s t h
  refine ⟨fun hset hclear => ?_, fun hclear hset => ?_, fun hi hok hvalid => ?_⟩
  · by_cases hi : i = .checkClear
    · exact .inl hi
    cases exec_outcome h hi with
    | kept flag _ => simp [flag, hset] at hclear
    | validated _ frame => simp [frame.flag] at hclear
    | aborted reset => exact .inr reset
  · by_cases hi : i = .checkClear
    · subst hi
      obtain ⟨-, rfl⟩ := command_next h
      simp [opCheckClear_not_sets s hclear] at hset
    cases exec_outcome h hi with
    | kept flag _ => simp [flag, hclear] at hset
    | validated may frame => exact ⟨frame.valid, frame.sums, frame.count, may⟩
    | aborted reset => simp [reset.flags] at hset
  · subst hi
    obtain ⟨-, rfl⟩ := command_next h
    exact opDecode_sets s hok hvalid

end Sys2Proof.Machine
end

section
/-!
PROOFS. The instruction CATALOG (40_variant_catalog.md R100) and the zero-size sentinel of the codes 4 to 15 (R102).
-/
namespace Sys2Proof.Machine

theorem exec_catalog (v : BitVec 4) (s : State) :
    exec (.catalog v) s = .next { s with ret := some (.entry (catalog v)) } := rfl

/-- The codes 4 to 15 are none of the four supported ones (R101), which leaves the sentinel (R102). -/
theorem catalog_eq_sentinel {v : BitVec 4} (h : 4 ≤ v.toNat) : catalog v = catalogSentinel := by
  have differs {code : BitVec 4} (supported : code.toNat < 4) : v ≠ code := by
    rintro rfl
    omega
  simp only [catalog, if_neg (differs (code := Config.codeBase) (by decide)),
    if_neg (differs (code := Config.codeCountExt) (by decide)), if_neg (differs (code := Config.codeEnvExt) (by decide)),
    if_neg (differs (code := Config.codeReduced) (by decide))]

/-- A supported variant has at least the six bytes around its fields (R105). -/
theorem catalog_size_ne_zero {v : BitVec 4} (h : v.toNat < 4) : (catalog v).size ≠ 0 := by
  obtain ⟨-, -, unsupported⟩ | ⟨size, -, -⟩ := catalog_cases v <;> omega

namespace VariantCatalog

/-- Settles O20: CATALOG delivers its entry, which is the sentinel for the unsupported codes and has a size for the others. -/
theorem catalogSentinel : Obligations.CatalogSentinel := fun v s =>
  ⟨fun unsupported => by rw [exec_catalog, catalog_eq_sentinel unsupported, Machine.catalogSentinel],
    fun supported => ⟨catalog v, exec_catalog v s, catalog_size_ne_zero supported⟩⟩

end VariantCatalog

end Sys2Proof.Machine
end

section
/-!
PROOFS. READ_U16 (41_byte_reader.md R110) in a quiet environment: where it waits for want of a byte (20_memory.md R44), and
the instruction that starts it on its own.
-/
namespace Sys2Proof.Machine

section quiet
variable {s : State}

/-- With one byte there, READ_U16 waits for the second: the first is removed and held, and not yet added (R115). -/
theorem readU16_quiet_one {hi : Byte} (acc : Bool) (h : s.live = []) (hl : s.latch = none) (hr : s.rx = [hi]) :
    readU16 acc s = .hold { s with rx := [], latch := some hi } := by
  simp only [readU16, hl, readLow, rxRead_quiet h hr, Access.done_bind]
  rw [rxRead_quiet_empty (by exact h) rfl, Access.hold_bind]

/-- With no byte there, READ_U16 waits for the first. -/
theorem readU16_quiet_empty (acc : Bool) (h : s.live = []) (hl : s.latch = none) (hr : s.rx = []) :
    readU16 acc s = .hold s := by
  simp only [readU16, hl, rxRead_quiet_empty h hr, Access.hold_bind]

end quiet

/-- An idle block starts READ_U16: the operation is in progress, with no byte held yet. -/
theorem exec_readU16_of_idle {s : State} (idle : s.Idle) (acc : Bool) :
    exec (.readU16 acc) s = .next (byteReader acc { s with job := .readU16 acc }) := by
  obtain ⟨hjob, -, -, hlatch⟩ := idle
  simp only [exec, execReadU16, command_of_idle hjob, ← hlatch]

/-- The value read, as a number: the byte read first is the high one (R49). -/
theorem u16_eq_ofNat (hi lo : Byte) : u16 hi lo = BitVec.ofNat 16 (hi.toNat * 256 + lo.toNat) := by
  rw [← u16_toNat, BitVec.ofNat_toNat, BitVec.setWidth_eq]

/-- SUM after the two bytes, as a number modulo 2^16 (R110). -/
theorem add_bytes_eq_ofNat (x : Word) (hi lo : Byte) :
    x + hi.setWidth 16 + lo.setWidth 16 = BitVec.ofNat 16 (x.toNat + hi.toNat + lo.toNat) := by
  apply BitVec.eq_of_toNat_eq
  simp [BitVec.toNat_add]

/-- Settles O21: the three lengths of RX are the three ways in which READ_U16 ends or waits. -/
theorem readU16ReadsBigEndianAndAccumulatesBytes : Obligations.ReadU16ReadsBigEndianAndAccumulatesBytes := by
  intro s acc idle quiet
  have started := exec_readU16_of_idle idle acc
  obtain ⟨hjob, -, -, hlatch⟩ := idle
  refine ⟨rfl, fun hi lo rest hrx => ?_, fun hi hrx => ?_, fun hrx => ?_⟩
  · rw [started, byteReader, readU16_quiet acc (by exact quiet) (by exact hlatch) (by exact hrx), Access.done_andThen,
      u16_eq_ofNat, add_bytes_eq_ofNat, ← hjob]
  · rw [started, byteReader, readU16_quiet_one acc (by exact quiet) (by exact hlatch) (by exact hrx), Access.hold_andThen]
  · rw [started, byteReader, readU16_quiet_empty acc (by exact quiet) (by exact hlatch) (by exact hrx),
      Access.hold_andThen]

end Sys2Proof.Machine
end

section
/-!
PROOFS. FRAME_READY as an operation of its own (42_frame_synchronizer.md R120): the two tests that touch nothing (R127), the
scan when nothing arrives, and what its end leaves of an idle block.
-/
namespace Sys2Proof.Machine

section frameReady
variable {s : State}

theorem frameReady_of_not_init (hinit : s.init = false) : frameReady s = .done .notInitialized s := if_pos hinit

theorem frameReady_of_unsupported (hinit : s.init = true) (hsize : (configured s).size = 0) :
    frameReady s = .done .callerError s := by
  rw [frameReady, if_neg (by simp [hinit]), if_pos hsize]

theorem frameReady_quiet (operates : s.Operates) (quiet : s.Quiet) :
    frameReady s = .done
      (if (s.rx.dropWhile (fun b => decide (b ≠ 0x42))).length < (configured s).size then .notReady else .ok)
      { s with rx := s.rx.dropWhile (fun b => decide (b ≠ 0x42)), phase := .sync } := by
  obtain ⟨hinit, hsize⟩ := operates
  rw [frameReady, if_neg (by simp [hinit]), if_neg hsize]
  exact sync_quiet _ { s with phase := .sync } quiet hsize

/-- On an idle block, a FRAME_READY that answers leaves RX as the scan left it, RESULT and the delivered bit; PHASE is IDLE
again (R30). -/
theorem exec_frameReady_of_done (idle : s.Idle) {r : ResultCode} {rx : List Byte} {p : Phase}
    (h : frameReady s = .done r { s with rx := rx, phase := p }) :
    exec .frameReady s = .next { s with rx := rx, result := r, ret := some (.ready (decide (r = .ok))) } := by
  have ended := finish_of_idle (s := { s with rx := rx, ret := some (.ready (decide (r = .ok))) }) idle r
  rw [exec, execFrameReady, command_of_idle idle.1, opFrameReady, h, Access.done_andThen]
  exact congrArg Host.Outcome.next ended

end frameReady

/-- Settles O23: each of the two tests ends FRAME_READY at once; behind them the scan answers by the count of what it left. -/
theorem frameReadyScansToTheSignature : Obligations.FrameReadyScansToTheSignature := by
  intro s idle
  refine ⟨fun hinit => ?_, fun hinit hsize => ?_, fun operates quiet => ?_⟩
  · exact exec_frameReady_of_done idle (frameReady_of_not_init hinit)
  · exact exec_frameReady_of_done idle (frameReady_of_unsupported hinit hsize)
  · have scanned := frameReady_quiet operates quiet
    refine ⟨fun short => ?_, fun enough => ?_⟩
    · rw [if_pos short] at scanned
      exact exec_frameReady_of_done idle scanned
    · rw [if_neg (Nat.not_lt.2 enough)] at scanned
      exact exec_frameReady_of_done idle scanned

end Sys2Proof.Machine
end

section
/-!
PROOFS. DECODE as an operation of its own (43_frame_decoder.md R135) in a quiet environment: the two tests that touch nothing
(R144), a header that is not the signature (R137), a frame whose checksum is right (R142).
-/
namespace Sys2Proof.Machine

section decode
variable {s : State}

/-- As an operation of its own DECODE returns to the host where it ends; inside POLL it would not (R190). -/
theorem exec_decode_of_end (idle : s.Idle) {r : ResultCode} {t : State}
    (ended : decodeFrom { s with job := .decode } = decodeEnd r t) (hjob : t.job = .decode) :
    exec .decode s = .next (finish r t) := by
  rw [exec, execDecode, command_of_idle idle.1, opDecode, ended, decodeEnd, hjob]

theorem decodeFrom_of_not_init (hinit : s.init = false) : decodeFrom s = decodeEnd .notInitialized s := if_pos hinit

theorem decodeFrom_of_unsupported (hinit : s.init = true) (hsize : (configured s).size = 0) :
    decodeFrom s = decodeEnd .callerError s := by
  rw [decodeFrom, if_neg (by simp [hinit]), if_pos hsize]

theorem decodeFrom_of_operates (operates : s.Operates) :
    decodeFrom s = decodeHeader { s with sum := 0, fvalid := false, phase := .hdr, idx := 0, latch := none } := by
  obtain ⟨hinit, hsize⟩ := operates
  rw [decodeFrom, if_neg (by simp [hinit]), if_neg hsize]

/-- The two bytes of the header are taken and added, whatever they are; only the signature goes on to the length (R137). -/
theorem decodeHeader_quiet_of_ne_sig {hi lo : Byte} {rest : List Byte} (h : s.live = []) (hl : s.latch = none)
    (hr : s.rx = hi :: lo :: rest) (hsig : u16 hi lo ≠ Config.sig) :
    decodeHeader s =
      decodeEnd .framingMismatch { s with rx := rest, sum := s.sum + hi.setWidth 16 + lo.setWidth 16 } := by
  rw [decodeHeader, readU16_quiet true h hl hr, Access.done_andThen, if_neg hsig, if_pos rfl]

theorem decodeCompare_of_equal (h : s.sum = s.sumRx) :
    decodeCompare s =
      decodeEnd .ok { s with fvalid := true, fcount := BitVec.ofNat 5 (configured s).nf, valRcv := true } := if_pos h

/-- A frame whose checksum field is right ends DECODE with OK, up to what the end of the operation itself writes (R142). -/
theorem decodeFrom_frame_of_checksum {fields : List Word} {checksum : Word} {tail : List Byte} (operates : s.Operates)
    (quiet : s.Quiet) (hlen : fields.length = (configured s).nf)
    (hrx : s.rx = frameBytes (configured s).size fields checksum ++ tail)
    (right : frameChecksum (configured s).size fields = checksum) :
    decodeFrom s = decodeEnd .ok { s with
      f := loadFields s.f 0 fields, rx := [], sum := checksum, sumRx := checksum, fvalid := true
      fcount := BitVec.ofNat 5 (configured s).nf, valRcv := true, phase := .cmp, idx := 0, latch := none } := by
  rw [decodeFrom_frame s fields checksum tail operates quiet hlen hrx, right, decodeCompare_of_equal rfl]
  rfl

end decode

/-- Only the bytes 42 4D form the signature (R70, R114). -/
theorem u16_ne_sig {hi lo : Byte} (h : ¬ (hi = 0x42 ∧ lo = 0x4D)) : u16 hi lo ≠ Config.sig :=
  fun heq => h (u16_inj (c := Config.sig1) (d := Config.sig2) heq)

/-- The bytes before the checksum field, cut out of a stream that begins with a frame, have the frame's checksum as their
sum (R73). -/
theorem frameChecksum_eq_sum_take {size : Nat} {fields : List Word} (checksum : Word) (tail : List Byte)
    (hsize : size = 6 + 2 * fields.length) :
    frameChecksum size fields =
      BitVec.ofNat 16 (((frameBytes size fields checksum ++ tail).take (size - 2)).map BitVec.toNat).sum := by
  have before : (be16 Config.sig ++ be16 (lengthField size) ++ fields.flatMap be16).length = size - 2 := by
    simp only [List.length_append, be16_length, flatMap_be16_length]
    omega
  rw [frameBytes, List.append_assoc _ (be16 checksum), List.take_left' before, frameChecksum, byteSum_eq]

/-- Settles O28: each of the two tests ends DECODE before anything is written. -/
theorem decodeTestsThatTouchNothing : Obligations.DecodeTestsThatTouchNothing := by
  refine fun s idle => ⟨fun hinit => ?_, fun hinit hsize => ?_⟩
  · rw [exec_decode_of_end idle (decodeFrom_of_not_init hinit) rfl]
    exact congrArg Host.Outcome.next (finish_of_idle idle _)
  · rw [exec_decode_of_end idle (decodeFrom_of_unsupported hinit hsize) rfl]
    exact congrArg Host.Outcome.next (finish_of_idle idle _)

/-- Settles O29: the header is read and added from SUM = 0, and DECODE ends there. -/
theorem decodeFramingMismatch : Obligations.DecodeFramingMismatch := by
  intro s b0 b1 rest idle operates quiet hrx hne
  have summed : (0 : Word) + b0.setWidth 16 + b1.setWidth 16 = BitVec.ofNat 16 (b0.toNat + b1.toNat) := by
    simpa using add_bytes_eq_ofNat 0 b0 b1
  have decoded := (decodeFrom_of_operates (s := { s with job := .decode }) operates).trans
    (decodeHeader_quiet_of_ne_sig quiet rfl hrx (u16_ne_sig hne))
  have ended := finish_of_idle (s := { s with
    rx := rest, sum := BitVec.ofNat 16 (b0.toNat + b1.toNat), fvalid := false }) idle .framingMismatch
  rw [exec_decode_of_end idle decoded rfl, summed]
  exact congrArg Host.Outcome.next ended

/-- Settles O31: the frame is read up to the comparison, the two sums are equal, and the registers loaded are F[0..nf-1]. -/
theorem decodeAcceptsAGoodFrame : Obligations.DecodeAcceptsAGoodFrame := by
  intro s fields checksum tail idle operates quiet hlen hrx hsum
  have right : frameChecksum (configured s).size fields = checksum := by
    rw [hsum, hrx]
    exact frameChecksum_eq_sum_take checksum tail (hlen ▸ Operates.size operates)
  have decoded := decodeFrom_frame_of_checksum (s := { s with job := .decode }) operates quiet hlen hrx right
  have ended := finish_of_idle (s := { s with
    f := loadFields s.f 0 fields, rx := [], sum := checksum, sumRx := checksum, fvalid := true
    fcount := BitVec.ofNat 5 (configured s).nf, valRcv := true }) idle .ok
  refine ⟨loadFields s.f 0 fields, ?_, fun i => by simp [loadFields_get]⟩
  rw [exec_decode_of_end idle decoded rfl]
  exact congrArg Host.Outcome.next ended

end Sys2Proof.Machine
end

section
/-!
PROOFS. PROJECT as an operation of its own (44_field_multiplexer.md R160): where it projects, what its end leaves of an idle
block, and the slots of the MASS projection (R162).
-/
namespace Sys2Proof.Machine

section project
variable {s : State}

/-- On an idle block a PROJECT that projects writes OUT and RESULT and appends its notifications; PHASE is IDLE again (R30). -/
theorem exec_project_of_some (idle : s.Idle) (hinit : s.init = true) {slots : Vector Slot Config.nSlots}
    (hslots : projected s = some slots) :
    exec .project s = .next { s with out := slots, result := .ok, events := s.events ++ eventSet s } := by
  have ended := finish_of_idle (s := { s with out := slots, events := s.events ++ eventSet s }) idle .ok
  rw [exec, execProject, command_of_idle idle.1, project_of_some hinit hslots]
  exact congrArg Host.Outcome.next ended

/-- MASS needs a supported variant and a validated frame, and nothing of FCOUNT (R160, R162). -/
theorem projected_mass (hsize : (configured s).size ≠ 0) (hvalid : s.fvalid = true) (hproj : s.cfgProj = 0) :
    projected s = some #v[⟨s.f[3], .by1⟩, ⟨s.f[4], .by1⟩, ⟨s.f[5], .by1⟩, ⟨0, .by1⟩] := by
  have mass : projectionOf s.cfgProj = some .mass := if_pos hproj
  rw [projected, if_neg (by simp [hsize, hvalid]), mass]
  rfl

end project

/-- A slot of divisor 1 holds its RAW as an integer (R161). -/
theorem slotValue_by1 (x : Word) : slotValue ⟨x, .by1⟩ = x.toNat := by simp [slotValue, divisor]

/-- Settles O37: the notifications are those of the event qualifier, whichever the open set selects. -/
theorem projectMass : Obligations.ProjectMass := by
  intro s idle ⟨hinit, hsize⟩ hvalid hproj
  have slots := projected_mass hsize hvalid hproj
  exact ⟨eventSet s, exec_project_of_some idle hinit slots, by simp [slotValue_by1], slotValue_by1⟩

end Sys2Proof.Machine
end

section
/-!
PROOFS. The host operations INIT, CONFIG and CHECK_CLEAR (45_host_operations.md R180, R183, R186): none of them touches the
transport, so each starts on an idle block and ends there at once.
-/
namespace Sys2Proof.Machine

section hostOperations
variable {s : State}

/-- An operation that runs on an idle block straight to its end leaves what it wrote and RESULT; PHASE is IDLE (R30). -/
theorem command_of_finish {run : State → State} {t : State} {r : ResultCode} (idle : s.Idle) (ended : run s = finish r t)
    (kept : t.Idle) : command s run = .next { t with result := r } := by
  rw [command_of_idle idle.1, ended, finish_of_idle kept]

/-- The first INIT latches whether there is a transport (R180, R181). -/
theorem opInit_first (first : s.initDone = false) :
    opInit s = finish (if s.transportPresent then .ok else .notInitialized)
      { s with initDone := true, init := s.transportPresent } := by
  rw [opInit, if_neg (by simp [first])]
  cases s.transportPresent <;> rfl

/-- A later INIT reports the outcome that stands (R181). -/
theorem opInit_later (later : s.initDone = true) : opInit s = finish (if s.init then .ok else .notInitialized) s :=
  if_pos later

theorem exec_init_first (idle : s.Idle) (first : s.initDone = false) :
    exec .init s = .next { s with
      initDone := true, init := s.transportPresent
      result := if s.transportPresent then .ok else .notInitialized } :=
  command_of_finish idle (opInit_first first) idle

theorem exec_init_later (idle : s.Idle) (later : s.initDone = true) :
    exec .init s = .next { s with result := if s.init then .ok else .notInitialized } :=
  command_of_finish idle (opInit_later later) idle

theorem opCheckClear_of_init (hinit : s.init = true) :
    opCheckClear s = finish .ok { s with ret := some (.received s.valRcv), valRcv := false } :=
  if_neg (by simp [hinit])

theorem opCheckClear_of_not_init (hinit : s.init = false) :
    opCheckClear s = finish .notInitialized { s with ret := some (.received false) } :=
  if_pos hinit

end hostOperations

/-- Settles O42: the first INIT by whether there is a transport, a later one by the INIT that stands. -/
theorem initAttachesOnce : Obligations.InitAttachesOnce := by
  refine fun s idle => ⟨fun first present => ?_, fun first absent => ?_, fun later hinit => ?_, fun later hinit => ?_⟩
  · simp [exec_init_first idle first, present]
  · simp [exec_init_first idle first, absent]
  · simp [exec_init_later idle later, hinit]
  · simp [exec_init_later idle later, hinit]

/-- Settles O43: CONFIG writes its operands and ends, with no test before it. -/
theorem configStoresItsOperands : Obligations.ConfigStoresItsOperands := by
  intro s variant proj evmode even idle
  have ended := finish_of_idle (s := { s with
    cfgVariant := variant, cfgProj := proj, cfgEvMode := evmode, cfgEvEn := even }) idle .ok
  rw [exec, execConfig, command_of_idle idle.1]
  exact congrArg Host.Outcome.next ended

/-- Settles O44: the two branches of the test of INIT. -/
theorem checkClearReadsAndClears : Obligations.CheckClearReadsAndClears := fun _ idle =>
  ⟨fun hinit => command_of_finish idle (opCheckClear_of_init hinit) idle,
    fun hinit => command_of_finish idle (opCheckClear_of_not_init hinit) idle⟩

end Sys2Proof.Machine
end

section
/-!
PROOFS. POLL up to its DECODE (45_host_operations.md R190): what a FRAME_READY that is not ready leaves of an idle block
(60_exceptions.md R203), and where DECODE takes over from one that is.
-/
namespace Sys2Proof.Machine

section poll
variable {s : State}

/-- A POLL that finds no frame ends with the result of its FRAME_READY and delivers no bit of it to the host (R190). -/
theorem exec_poll_of_not_ready (idle : s.Idle) {r : ResultCode} {rx : List Byte} {p : Phase}
    (h : frameReady s = .done r { s with rx := rx, phase := p }) (hr : r ≠ .ok) :
    exec .poll s = .next { s with rx := rx, result := r } := by
  have ended := finish_of_idle (s := { s with rx := rx }) idle r
  rw [exec, execPoll, command_of_idle idle.1, opPoll, h, Access.done_andThen, if_neg hr]
  exact congrArg Host.Outcome.next ended

/-- A POLL that finds a frame goes on as the DECODE of it (R190). -/
theorem exec_poll_of_ready (idle : s.Idle) {t : State} (h : frameReady s = .done .ok t) :
    exec .poll s = .next (decodeFrom { t with job := .poll }) := by
  rw [exec, execPoll, command_of_idle idle.1, opPoll, h, Access.done_andThen, if_pos rfl]

/-- A stream of SIZE bytes that begins with the signature byte is ready as it stands (R124). -/
theorem frameReady_quiet_of_candidate {rest : List Byte} (operates : s.Operates) (quiet : s.Quiet)
    (hrx : s.rx = 0x42 :: rest) (enough : (configured s).size ≤ s.rx.length) :
    frameReady s = .done .ok { s with phase := .sync } := by
  have kept : s.rx.dropWhile (fun b => decide (b ≠ 0x42)) = s.rx := by simp [hrx]
  rw [frameReady_quiet operates quiet, kept, if_neg (Nat.not_lt.2 enough)]

end poll

/-- Settles O52: the scan leaves fewer than SIZE bytes, and both operations end with what it answers. -/
theorem notReadyDiscardsOnlyGarbage : Obligations.NotReadyDiscardsOnlyGarbage := by
  intro s idle operates quiet short
  have scanned := frameReady_quiet operates quiet
  rw [if_pos short] at scanned
  exact ⟨exec_poll_of_not_ready idle scanned nofun, exec_frameReady_of_done idle scanned⟩

end Sys2Proof.Machine
end

section
/-!
PROOFS. How DECODE rejects a frame in a quiet environment: a wrong declared length (43_frame_decoder.md R138, 60_exceptions.md
R205) and, after all fields, a wrong checksum (R141, R207).
-/
namespace Sys2Proof.Machine

section rejections
variable {s : State}

/-- The signature is taken and added, and DECODE goes on to the length (R137). -/
theorem decodeHeader_quiet_of_sig {rest : List Byte} (h : s.live = []) (hl : s.latch = none)
    (hr : s.rx = 0x42 :: 0x4D :: rest) :
    decodeHeader s = decodeLength { s with rx := rest, sum := s.sum + 143, phase := .len } := by
  have added : s.sum + (0x42 : Byte).setWidth 16 + (0x4D : Byte).setWidth 16 = s.sum + 143 := BitVec.add_assoc ..
  have signature : u16 0x42 0x4D = Config.sig := rfl
  rw [decodeHeader, readU16_quiet true h hl hr, Access.done_andThen, if_pos signature, if_pos rfl, added]

/-- A declared length other than the expected one is taken, added and kept in DIAG_LEN, and ends DECODE (R138). -/
theorem decodeLength_quiet_of_ne {hi lo : Byte} {rest : List Byte} (h : s.live = []) (hl : s.latch = none)
    (hr : s.rx = hi :: lo :: rest) (hne : u16 hi lo ≠ expectedLength s) :
    decodeLength s = decodeEnd .invalidLength { s with
      rx := rest, sum := s.sum + hi.setWidth 16 + lo.setWidth 16, diagLen := u16 hi lo } := by
  rw [decodeLength, readU16_quiet true h hl hr, Access.done_andThen]
  exact if_neg hne

/-- The declared length that DECODE expects, as a number (R72). -/
theorem lengthField_toNat (s : State) : (lengthField (configured s).size).toNat = (configured s).size - 4 := by
  have cases := catalog_cases s.cfgVariant
  have small : (configured s).size - 4 < 2 ^ 16 := by unfold configured; omega
  exact Nat.mod_eq_of_lt small

/-- A wrong declared length ends DECODE after four bytes, up to what the end of the operation itself writes (R205). -/
theorem decodeFrom_of_wrong_length {l0 l1 : Byte} {rest : List Byte} (operates : s.Operates) (quiet : s.Quiet)
    (hrx : s.rx = 0x42 :: 0x4D :: l0 :: l1 :: rest) (wrong : l0.toNat * 256 + l1.toNat ≠ (configured s).size - 4) :
    decodeFrom s = decodeEnd .invalidLength { s with
      rx := rest, sum := BitVec.ofNat 16 (143 + l0.toNat + l1.toNat), fvalid := false
      diagLen := BitVec.ofNat 16 (l0.toNat * 256 + l1.toNat), phase := .len, idx := 0, latch := none } := by
  have hne : u16 l0 l1 ≠ lengthField (configured s).size := fun heq =>
    wrong (by rw [← u16_toNat, heq, lengthField_toNat])
  have decoded := ((decodeFrom_of_operates operates).trans (decodeHeader_quiet_of_sig quiet rfl hrx)).trans
    (decodeLength_quiet_of_ne quiet rfl rfl hne)
  rw [u16_eq_ofNat, add_bytes_eq_ofNat] at decoded
  exact decoded

/-- Inside a POLL a wrong length is followed by a flush, and only then the operation ends (R191). -/
theorem decodeEnd_invalidLength_of_poll (hjob : s.job = .poll) (quiet : s.Quiet) :
    decodeEnd .invalidLength s = finish .invalidLength { s with rx := [] } := by
  have flushed := rxFlush_quiet (s := { s with phase := .flushing }) quiet
  rw [decodeEnd, hjob]
  exact congrArg (Access.andThen · fun _ => finish .invalidLength) flushed

/-- A frame with any other checksum field ends DECODE with ChecksumMismatch, up to what the end of the operation itself
writes (R207). -/
theorem decodeFrom_frame_of_wrong_checksum {fields : List Word} {checksum : Word} {tail : List Byte} (operates : s.Operates)
    (quiet : s.Quiet) (hlen : fields.length = (configured s).nf)
    (hrx : s.rx = frameBytes (configured s).size fields checksum ++ tail)
    (wrong : frameChecksum (configured s).size fields ≠ checksum) :
    decodeFrom s = decodeEnd .checksumMismatch { s with
      f := loadFields s.f 0 fields, rx := [], sum := frameChecksum (configured s).size fields, sumRx := checksum
      fvalid := false, phase := .cmp, idx := 0, latch := none } := by
  rw [decodeFrom_frame s fields checksum tail operates quiet hlen hrx]
  exact if_neg wrong

end rejections

/-- Settles O30: DECODE ends at the length, and POLL, for which the candidate is ready, ends there with a flush. -/
theorem invalidLengthInDecodeAndPoll : Obligations.InvalidLengthInDecodeAndPoll := by
  intro s l0 l1 rest idle operates quiet hrx wrong
  have ended (rx : List Byte) := finish_of_idle (s := { s with
    rx := rx, sum := BitVec.ofNat 16 (143 + l0.toNat + l1.toNat), fvalid := false
    diagLen := BitVec.ofNat 16 (l0.toNat * 256 + l1.toNat) }) idle .invalidLength
  refine ⟨?_, fun enough => ?_⟩
  · have decoded := decodeFrom_of_wrong_length (s := { s with job := .decode }) operates quiet hrx wrong
    rw [exec_decode_of_end idle decoded rfl]
    exact congrArg Host.Outcome.next (ended rest)
  · have decoded := (decodeFrom_of_wrong_length (s := { s with phase := .sync, job := .poll }) operates quiet hrx
      wrong).trans (decodeEnd_invalidLength_of_poll rfl quiet)
    rw [exec_poll_of_ready idle (frameReady_quiet_of_candidate operates quiet hrx enough), decoded]
    exact congrArg Host.Outcome.next (ended [])

/-- Settles O32: the frame is read up to the comparison, and the two sums differ. -/
theorem decodeChecksumMismatch : Obligations.DecodeChecksumMismatch := by
  intro s fields checksum tail idle operates quiet hlen hrx hsum
  rw [hrx, ← frameChecksum_eq_sum_take checksum tail (hlen ▸ Operates.size operates)] at hsum ⊢
  have decoded :=
    decodeFrom_frame_of_wrong_checksum (s := { s with job := .decode }) operates quiet hlen hrx (Ne.symm hsum)
  have ended := finish_of_idle (s := { s with
    f := loadFields s.f 0 fields, rx := [], sum := frameChecksum (configured s).size fields, sumRx := checksum
    fvalid := false }) idle .checksumMismatch
  refine ⟨loadFields s.f 0 fields, ?_, fun i => by simp [loadFields_get]⟩
  rw [exec_decode_of_end idle decoded rfl]
  exact congrArg Host.Outcome.next ended

end Sys2Proof.Machine
end

section
/-!
PROOFS. What a DECODE that ended OK in a quiet environment has read (43_frame_decoder.md R142, 30_encoding.md R76): a whole
frame of the configured variant with the right checksum. Each step of DECODE is inverted once.
-/
namespace Sys2Proof.Machine

/-- The operation is over and its result is OK. -/
def State.EndedOk (t : State) : Prop := t.job = .none ∧ t.result = .ok

/-- A DECODE of its own is in progress in a quiet environment, with no byte held: where each of its READ_U16s starts. -/
def State.DecodesQuietly (s : State) : Prop := s.job = .decode ∧ s.live = [] ∧ s.latch = none

section accepted
variable {s : State}

/-- What DECODE of its own ends with is RESULT. -/
theorem ok_of_decodeEnd_endedOk {r : ResultCode} (hjob : s.job = .decode) (ended : (decodeEnd r s).EndedOk) : r = .ok := by
  rw [decodeEnd, hjob] at ended
  exact ended.2

/-- A READ_U16 inside an operation that ended found both its bytes; otherwise the operation would wait for them (R44). -/
theorem readU16_of_endedOk {acc : Bool} {k : Word → State → State} (decodes : s.DecodesQuietly)
    (ended : ((readU16 acc s).andThen k).EndedOk) :
    ∃ v rest sum, s.rx = be16 v ++ rest ∧ (k v { s with rx := rest, sum := sum }).EndedOk := by
  obtain ⟨hjob, h, hl⟩ := decodes
  match hr : s.rx with
  | [] =>
    rw [readU16_quiet_empty acc h hl hr] at ended
    cases hjob.symm.trans ended.1
  | [hi] =>
    rw [readU16_quiet_one acc h hl hr] at ended
    cases hjob.symm.trans ended.1
  | hi :: lo :: rest =>
    rw [readU16_quiet acc h hl hr] at ended
    exact ⟨u16 hi lo, rest, _, by rw [be16_u16]; rfl, ended⟩

theorem decodeChecksum_of_endedOk (decodes : s.DecodesQuietly) (ended : (decodeChecksum s).EndedOk) :
    ∃ checksum tail, s.rx = be16 checksum ++ tail := by
  obtain ⟨checksum, tail, _, hrx, -⟩ := readU16_of_endedOk decodes ended
  exact ⟨checksum, tail, hrx⟩

theorem decodeFields_of_endedOk (n : Nat) (decodes : s.DecodesQuietly) (ended : (decodeFields n s).EndedOk) :
    ∃ (fields : List Word) (checksum : Word) (tail : List Byte), fields.length = n ∧
      s.rx = fields.flatMap be16 ++ be16 checksum ++ tail := by
  induction n generalizing s with
  | zero =>
    obtain ⟨checksum, tail, hrx⟩ := decodeChecksum_of_endedOk (by exact decodes) ended
    exact ⟨[], checksum, tail, rfl, hrx⟩
  | succ n ih =>
    obtain ⟨v, rest, _, hv, ended⟩ := readU16_of_endedOk decodes ended
    obtain ⟨fields, checksum, tail, hlen, (rfl : rest = _)⟩ := ih (by exact decodes) ended
    exact ⟨v :: fields, checksum, tail, by rw [List.length_cons, hlen], by simp [hv]⟩

theorem decodeLength_of_endedOk (decodes : s.DecodesQuietly) (ended : (decodeLength s).EndedOk) :
    ∃ (fields : List Word) (checksum : Word) (tail : List Byte), fields.length = (configured s).nf ∧
      s.rx = be16 (expectedLength s) ++ (fields.flatMap be16 ++ be16 checksum ++ tail) := by
  obtain ⟨v, rest, _, hrx, ended⟩ := readU16_of_endedOk decodes ended
  split at ended
  · next expected =>
    obtain ⟨fields, checksum, tail, hlen, (rfl : rest = _)⟩ := decodeFields_of_endedOk _ (by exact decodes) ended
    rw [expected] at hrx
    exact ⟨fields, checksum, tail, hlen, hrx⟩
  · cases ok_of_decodeEnd_endedOk (by exact decodes.1) ended

theorem decodeHeader_of_endedOk (decodes : s.DecodesQuietly) (ended : (decodeHeader s).EndedOk) :
    ∃ (fields : List Word) (checksum : Word) (tail : List Byte), fields.length = (configured s).nf ∧
      s.rx = frameBytes (configured s).size fields checksum ++ tail := by
  obtain ⟨v, rest, _, hrx, ended⟩ := readU16_of_endedOk decodes ended
  split at ended
  · next signature =>
    obtain ⟨fields, checksum, tail, hlen, (hrest : rest = be16 (expectedLength s) ++ _)⟩ :=
      decodeLength_of_endedOk (by exact decodes) ended
    rw [signature, hrest] at hrx
    exact ⟨fields, checksum, tail, hlen, by simpa [frameBytes, expectedLength] using hrx⟩
  · cases ok_of_decodeEnd_endedOk (by exact decodes.1) ended

/-- A DECODE that ended OK has accepted a frame: RX began with one, and its checksum field is right (R142). -/
theorem frame_of_decode_ok {t : State} (idle : s.Idle) (operates : s.Operates) (quiet : s.Quiet)
    (decoded : exec .decode s = .next t) (ended : t.EndedOk) :
    ∃ (fields : List Word) (checksum : Word) (tail : List Byte), fields.length = (configured s).nf ∧
      s.rx = frameBytes (configured s).size fields checksum ++ tail ∧
      frameChecksum (configured s).size fields = checksum := by
  rw [exec, execDecode, command_of_idle idle.1] at decoded
  cases decoded
  have header := ended
  rw [opDecode, decodeFrom_of_operates (by exact operates)] at header
  obtain ⟨fields, checksum, tail, hlen, hrx⟩ := decodeHeader_of_endedOk (by exact ⟨rfl, quiet, rfl⟩) header
  refine ⟨fields, checksum, tail, hlen, hrx, ?_⟩
  by_contra wrong
  have rejected := decodeFrom_frame_of_wrong_checksum (s := { s with job := .decode }) operates quiet hlen hrx wrong
  rw [opDecode, rejected] at ended
  cases ok_of_decodeEnd_endedOk (by rfl) ended

end accepted

end Sys2Proof.Machine
end

section
/-!
PROOFS. What becomes of a frame when one of its bytes changes (43_frame_decoder.md, the detection law of single bits): it shows
in the signature, in the declared length, or as a checksum field that is no longer the sum of the bytes before it.
-/
namespace Sys2Proof

/-- Bytes in pairs are the bytes of words (R49). -/
theorem exists_words (n : Nat) (bs : List Byte) (h : bs.length = 2 * n) :
    ∃ ws : List Word, ws.length = n ∧ bs = ws.flatMap be16 := by
  induction n generalizing bs with
  | zero => exact ⟨[], rfl, List.eq_nil_of_length_eq_zero h⟩
  | succ n ih =>
    match bs with
    | [] | [_] => simp only [List.length] at h; omega
    | hi :: lo :: bs =>
      obtain ⟨ws, hlen, rfl⟩ := ih bs (by simp at h; omega)
      exact ⟨u16 hi lo :: ws, by simp [hlen], by simp [be16_u16]⟩

/-- Changing one byte changes the sum modulo 2^16 (R73). -/
theorem byteSum_set_of_changed {bs : List Byte} {p : Nat} {b : Byte} (changed : bs.set p b ≠ bs) :
    byteSum (bs.set p b) ≠ byteSum bs := by
  induction bs generalizing p with
  | nil => exact absurd rfl changed
  | cons c bs ih =>
    cases p with
    | zero =>
      have hne : b ≠ c := fun same => changed (by rw [same]; rfl)
      simp only [List.set_cons_zero, byteSum_cons]
      intro same
      have wide : b.setWidth 16 = c.setWidth 16 := add_right_cancel same
      exact hne (by bv_omega)
    | succ p =>
      have rest : bs.set p b ≠ bs := fun same => changed (by rw [List.set_cons_succ, same])
      simp only [List.set_cons_succ, byteSum_cons]
      exact fun same => ih rest (add_left_cancel same)

/-- A byte changed in the first of two parts of a stream changes that part alone. -/
theorem set_append_left_of_changed {xs ys : List Byte} {p : Nat} {b : Byte} (hp : p < xs.length)
    (changed : (xs ++ ys).set p b ≠ xs ++ ys) : (xs ++ ys).set p b = xs.set p b ++ ys ∧ xs.set p b ≠ xs := by
  rw [List.set_append_left _ _ hp] at changed ⊢
  exact ⟨rfl, fun same => changed (by rw [same])⟩

/-- A byte changed behind the first `n` bytes of a stream changes what stands behind them alone. -/
theorem set_append_right_of_changed {xs ys : List Byte} {n p : Nat} {b : Byte} (hn : xs.length = n) (hp : n ≤ p)
    (changed : (xs ++ ys).set p b ≠ xs ++ ys) :
    (xs ++ ys).set p b = xs ++ ys.set (p - n) b ∧ ys.set (p - n) b ≠ ys := by
  subst hn
  rw [List.set_append_right _ _ hp] at changed ⊢
  exact ⟨rfl, fun same => changed (by rw [same])⟩

/-- Changing one byte of a run of words gives as many words, with another sum (R73, R114). -/
theorem words_set_of_changed {ws : List Word} {rest : List Byte} {p : Nat} {b : Byte} (hp : p < 2 * ws.length)
    (changed : (ws.flatMap be16 ++ rest).set p b ≠ ws.flatMap be16 ++ rest) :
    ∃ vs : List Word, vs.length = ws.length ∧ (ws.flatMap be16 ++ rest).set p b = vs.flatMap be16 ++ rest ∧
      byteSum (vs.flatMap be16) ≠ byteSum (ws.flatMap be16) := by
  obtain ⟨hset, ne⟩ := set_append_left_of_changed (by rwa [flatMap_be16_length]) changed
  obtain ⟨vs, hlen, hvs⟩ := exists_words ws.length ((ws.flatMap be16).set p b)
    (by rw [List.length_set, flatMap_be16_length])
  exact ⟨vs, hlen, by rw [hset, hvs], hvs ▸ byteSum_set_of_changed ne⟩

/-- Changing one byte of a word gives another word (R114). -/
theorem be16_set_of_changed {w : Word} {rest : List Byte} {p : Nat} {b : Byte} (hp : p < 2)
    (changed : (be16 w ++ rest).set p b ≠ be16 w ++ rest) : ∃ v, v ≠ w ∧ (be16 w ++ rest).set p b = be16 v ++ rest := by
  obtain ⟨vs, hlen, hset, ne⟩ := words_set_of_changed (ws := [w]) (rest := rest) hp (by simpa using changed)
  obtain ⟨v, rfl⟩ := List.length_eq_one_iff.1 hlen
  exact ⟨v, fun same => ne (by rw [same]), by simpa using hset⟩

/-- The three ways in which the head of the stream `rx` fails to be a well-formed frame of the format with `size` bytes and
`nf` fields. Byte `p` lies in the part of the frame where it fails. -/
inductive Damaged (size nf : Nat) (rx : List Byte) (p : Nat) : Prop
  | signature (v : Word) (rest : List Byte) (here : p < 2) (hrx : rx = be16 v ++ rest) (ne : v ≠ Config.sig)
  | length (v : Word) (rest : List Byte) (here : 2 ≤ p ∧ p < 4) (hrx : rx = be16 Config.sig ++ (be16 v ++ rest))
    (ne : v ≠ lengthField size)
  | sums (fields : List Word) (checksum : Word) (tail : List Byte) (here : 4 ≤ p) (hlen : fields.length = nf)
    (hrx : rx = frameBytes size fields checksum ++ tail) (ne : frameChecksum size fields ≠ checksum)

/-- The checksum is the sum of the four bytes at the head and the sum of the fields' bytes (R73). -/
theorem frameChecksum_eq_add (size : Nat) (fields : List Word) :
    frameChecksum size fields = byteSum (be16 Config.sig ++ be16 (lengthField size)) + byteSum (fields.flatMap be16) :=
  byteSum_append ..

/-- A frame and what follows it, part by part (R70). -/
theorem frameBytes_append (size : Nat) (fields : List Word) (checksum : Word) (tail : List Byte) :
    frameBytes size fields checksum ++ tail =
      be16 Config.sig ++ (be16 (lengthField size) ++ (fields.flatMap be16 ++ (be16 checksum ++ tail))) := by
  simp only [frameBytes, List.append_assoc]

/-- One changed byte damages a well-formed frame, in the part of the frame where it lies. -/
theorem damaged_of_changed {size nf p : Nat} {fields : List Word} {checksum : Word} {rx tail : List Byte} {b : Byte}
    (hlen : fields.length = nf) (hrx : rx = frameBytes size fields checksum ++ tail)
    (right : frameChecksum size fields = checksum) (hp : p < 6 + 2 * nf) (changed : rx.set p b ≠ rx) :
    Damaged size nf (rx.set p b) p := by
  subst hlen hrx
  rw [frameBytes_append] at changed ⊢
  by_cases in_sig : p < 2
  · obtain ⟨v, ne, hset⟩ := be16_set_of_changed in_sig changed
    exact .signature v _ in_sig hset ne
  obtain ⟨behind_sig, changed⟩ := set_append_right_of_changed (be16_length _) (by omega) changed
  rw [behind_sig]
  by_cases in_length : p < 4
  · obtain ⟨v, ne, hset⟩ := be16_set_of_changed (by omega) changed
    exact .length v _ ⟨by omega, in_length⟩ (by rw [hset]) ne
  obtain ⟨behind_length, changed⟩ := set_append_right_of_changed (be16_length _) (by omega) changed
  rw [behind_length]
  by_cases in_fields : p < 4 + 2 * fields.length
  · obtain ⟨fields', hlen, hset, ne⟩ := words_set_of_changed (by omega) changed
    refine .sums fields' checksum tail (by omega) hlen (by rw [hset, frameBytes_append]) fun same => ne ?_
    rw [← right, frameChecksum_eq_add, frameChecksum_eq_add] at same
    exact add_left_cancel same
  obtain ⟨behind_fields, changed⟩ := set_append_right_of_changed (flatMap_be16_length _) (by omega) changed
  rw [behind_fields]
  obtain ⟨v, ne, hset⟩ := be16_set_of_changed (by omega) changed
  exact .sums fields v tail (by omega) rfl (by rw [hset, frameBytes_append]) (right.trans_ne ne.symm)

/-- Flipping a bit changes the byte, wherever the byte stands. -/
theorem set_flip_ne {bs : List Byte} {p : Nat} (h : p < bs.length) {k : Nat} (hk : k < 8) :
    bs.set p (bs[p] ^^^ (1#8 <<< k)) ≠ bs := by
  intro same
  have byte : bs[p] ^^^ (1#8 <<< k) = bs[p] := by
    have := congrArg (·[p]?) same
    simpa [h] using this
  have bit := congrArg (·.getLsbD k) byte
  simp [hk] at bit

end Sys2Proof

namespace Sys2Proof.Machine

/-- DECODE ends with the code `r`, validates nothing and leaves VALRCV and OUT alone. -/
def Rejects (s : State) (r : ResultCode) : Prop :=
  ∃ u, exec .decode s = .next u ∧ u.result = r ∧ u.fvalid = false ∧ u.valRcv = s.valRcv ∧ u.out = s.out

section rejects
variable {s : State} (idle : s.Idle) (operates : s.Operates) (quiet : s.Quiet)
include idle operates quiet

theorem rejects_wrong_signature {v : Word} {rest : List Byte} (hrx : s.rx = be16 v ++ rest) (ne : v ≠ Config.sig) :
    Rejects s .framingMismatch := by
  have bytes : ¬ (v.extractLsb' 8 8 = 0x42 ∧ v.extractLsb' 0 8 = 0x4D) := fun ⟨h0, h1⟩ =>
    ne (by rw [← u16_be16 v, h0, h1]; rfl)
  exact ⟨_, decodeFramingMismatch s _ _ rest idle operates quiet hrx bytes, rfl, rfl, rfl, rfl⟩

theorem rejects_wrong_length {l0 l1 : Byte} {rest : List Byte} (hrx : s.rx = 0x42 :: 0x4D :: l0 :: l1 :: rest)
    (wrong : l0.toNat * 256 + l1.toNat ≠ (configured s).size - 4) : Rejects s .invalidLength :=
  ⟨_, (invalidLengthInDecodeAndPoll s l0 l1 rest idle operates quiet hrx wrong).1, rfl, rfl, rfl, rfl⟩

theorem rejects_wrong_checksum {fields : List Word} {checksum : Word} {tail : List Byte}
    (hlen : fields.length = (configured s).nf) (hrx : s.rx = frameBytes (configured s).size fields checksum ++ tail)
    (wrong : frameChecksum (configured s).size fields ≠ checksum) : Rejects s .checksumMismatch := by
  have decoded := decodeFrom_frame_of_wrong_checksum (s := { s with job := .decode }) operates quiet hlen hrx wrong
  exact ⟨_, exec_decode_of_end idle decoded rfl, rfl, rfl, rfl, rfl⟩

/-- A damaged frame is rejected by the first step of DECODE that meets the damage. -/
theorem rejects_damaged {p : Nat} (damaged : Damaged (configured s).size (configured s).nf s.rx p) :
    Rejects s (if p < 2 then .framingMismatch else if p < 4 then .invalidLength else .checksumMismatch) := by
  cases damaged with
  | signature v rest here hrx ne =>
    rw [if_pos here]
    exact rejects_wrong_signature idle operates quiet hrx ne
  | length v rest here hrx ne =>
    have wrong : (v.extractLsb' 8 8).toNat * 256 + (v.extractLsb' 0 8).toNat ≠ (configured s).size - 4 := by
      rw [← u16_toNat, u16_be16, ← lengthField_toNat]
      exact fun same => ne (BitVec.eq_of_toNat_eq same)
    rw [if_neg (by omega), if_pos here.2]
    exact rejects_wrong_length idle operates quiet hrx wrong
  | sums fields checksum tail here hlen hrx ne =>
    rw [if_neg (by omega), if_neg (by omega)]
    exact rejects_wrong_checksum idle operates quiet hlen hrx ne

end rejects

/-- Settles O33: RX of an accepted frame begins with a well-formed one, a flipped bit damages it, and DECODE rejects that. -/
theorem lengthErrorsAndSingleBitErrorsAreCaught : Obligations.LengthErrorsAndSingleBitErrorsAreCaught := by
  intro s idle operates quiet
  refine ⟨fun l0 l1 rest hrx wrong => ?_, fun t decoded hok hjob p h k hp hk => ?_⟩
  · obtain ⟨t, decoded, hresult, -, hvalRcv, hout⟩ := rejects_wrong_length idle operates quiet hrx wrong
    exact ⟨t, decoded, hresult, hout, hvalRcv⟩
  · obtain ⟨fields, checksum, tail, hlen, hrx, right⟩ := frame_of_decode_ok idle operates quiet decoded ⟨hjob, hok⟩
    rw [Operates.size operates] at hp
    exact rejects_damaged (s := { s with rx := s.rx.set p (s.rx[p] ^^^ (1#8 <<< k)) }) idle operates quiet
      (damaged_of_changed hlen hrx right hp (set_flip_ne h hk))

end Sys2Proof.Machine
end

section
/-!
PROOFS. The encoder and the decoder undo each other (30_encoding.md sections 1, 3, 5): command words by their opcode, frames
by their first four bytes.
-/
namespace Sys2Proof

section commands

/-- CMD[15:12] of a word put together from opcode and operand (R80). -/
theorem opcode_append (op : BitVec 4) (operand : BitVec 12) : opcode (op ++ operand) = op :=
  BitVec.extractLsb'_append_eq_left

/-- The parts of a concatenation stand where the widths behind them put them (R81). -/
theorem parts_of_append (op variant : BitVec 4) (proj evmode : BitVec 2) (even : Bool) :
    let w := op ++ (variant ++ proj ++ evmode ++ BitVec.ofBool even ++ 0#3)
    w.extractLsb' 8 4 = variant ∧ w.extractLsb' 6 2 = proj ∧ w.extractLsb' 4 2 = evmode ∧ w.getLsbD 3 = even := by
  simp [-Nat.reduceAdd, BitVec.extractLsb'_append_eq_ite, BitVec.getElem_append]

/-- The operand of CONFIG is read as it was written (R81). -/
theorem decodeConfig_configOperand (op variant : BitVec 4) (proj evmode : BitVec 2) (even : Bool) :
    decodeConfig (op ++ configOperand variant proj evmode even) = .config variant proj evmode even := by
  simp only [decodeConfig, Instr.config.injEq]
  exact parts_of_append op variant proj evmode even

/-- A command word decodes by its opcode, and only that of CONFIG has an operand (R80, R81). -/
theorem decodeCommand_of_opcode {w : Word} {op : BitVec 4} (h : opcode w = op) :
    decodeCommand w = if op = Config.cmdConfig then decodeConfig w else decodeCommand (op ++ 0#12) := by
  unfold decodeCommand
  rw [opcode_append, h]
  dsimp only
  by_cases config : op = Config.cmdConfig
  · rw [config]
    rfl
  · rw [if_neg config, if_neg config, if_neg config]

theorem decode_encode_command {i : Instr} {w : Word} (h : encode i = some (.cmd w)) : decode (.cmd w) = .ok i := by
  cases i with
  | config variant proj evmode even =>
    cases h
    rw [decode, decodeCommand_of_opcode (opcode_append ..), if_pos rfl, decodeConfig_configOperand]
  | reservedAB lo => cases h; revert lo; decide
  | reservedCF lo => cases h; revert lo; decide
  | catalog | readU16 | frame32 | frame40 | frame24 => cases h
  | init | frameReady | decode | project | checkClear | flush | poll | reserved0 | reserved9 => cases h; rfl

/-- A mask that covers CMD[15:12] keeps the opcode (R80). -/
theorem opcode_and (w mask : Word) : opcode (w &&& mask) = opcode w &&& opcode mask := BitVec.extractLsb'_and

theorem opcode_of_match {w value : Word} (h : w &&& 0xF000#16 = value) : opcode w = opcode value := by
  have kept : opcode w &&& opcode 0xF000#16 = opcode w := BitVec.and_allOnes
  rw [← h, opcode_and, kept]

/-- The words of the opcodes 0xA and 0xB (R86). -/
theorem decode_reservedAB {w : Word} (h : w &&& 0xE000#16 = 0xA000#16) : ∃ lo, decode (.cmd w) = .ok (.reservedAB lo) := by
  have range : ∀ op : BitVec 4, op &&& 0xE = 0xA → op = 0xA ∨ op = 0xB := by decide
  have masked : opcode w &&& 0xE = 0xA := (opcode_and w 0xE000#16).symm.trans (congrArg opcode h)
  obtain hop | hop := range _ masked
  · exact ⟨0, by rw [decode, decodeCommand_of_opcode hop]; rfl⟩
  · exact ⟨1, by rw [decode, decodeCommand_of_opcode hop]; rfl⟩

/-- The words of the opcodes 0xC to 0xF (R86). -/
theorem decode_reservedCF {w : Word} (h : w &&& 0xC000#16 = 0xC000#16) : ∃ lo, decode (.cmd w) = .ok (.reservedCF lo) := by
  have range : ∀ op : BitVec 4, op &&& 0xC = 0xC → ∃ lo : BitVec 2, op = Config.cmdReservedCF ++ lo := by decide
  have masked : opcode w &&& 0xC = 0xC := (opcode_and w 0xC000#16).symm.trans (congrArg opcode h)
  obtain ⟨lo, hop⟩ := range _ masked
  have row : ∀ lo : BitVec 2, decodeCommand ((Config.cmdReservedCF ++ lo) ++ 0#12) = .reservedCF lo := by decide
  have noConfig : ∀ lo : BitVec 2, Config.cmdReservedCF ++ lo ≠ Config.cmdConfig := by decide
  exact ⟨lo, by rw [decode, decodeCommand_of_opcode hop, if_neg (noConfig lo), row lo]⟩

/-- Every command word is that of some instruction, with its ignored bits written 0 (R86). -/
theorem encode_decodeCommand (w : Word) : ∃ w', encode (decodeCommand w) = some (.cmd w') := by
  have rows : ∀ op : BitVec 4, encode (decodeCommand (op ++ 0#12)) = some (.cmd (op ++ 0#12)) := by decide
  rw [decodeCommand_of_opcode rfl]
  split
  · exact ⟨_, rfl⟩
  · exact ⟨_, rows _⟩

end commands

section frames

theorem decodeBody_words (mk : List Word → Word → Instr) (fields : List Word) (checksum : Word) :
    decodeBody fields.length mk (fields.flatMap be16 ++ be16 checksum) = .ok (mk fields checksum, []) := by
  rw [decodeBody, takeWords_flatMap_be16]
  simp [be16]

/-- What a decoded body consists of (R70). -/
theorem decodeBody_eq_ok {nf : Nat} {mk : List Word → Word → Instr} {bs rest : List Byte} {i : Instr}
    (h : decodeBody nf mk bs = .ok (i, rest)) :
    ∃ fields checksum, fields.length = nf ∧ i = mk fields checksum ∧ bs = fields.flatMap be16 ++ be16 checksum ++ rest := by
  unfold decodeBody at h
  split at h
  · next fields hi lo rest' taken =>
    obtain ⟨hlen, rfl⟩ := takeWords_eq_some taken
    cases h
    exact ⟨fields, u16 hi lo, hlen, rfl, by simp [be16_u16]⟩
  · cases h

/-- The signature and the declared length at the head of a frame select its format (R76). -/
theorem decodeFrame_words (size : Nat) (body : List Byte) :
    decodeFrame (be16 Config.sig ++ (be16 (lengthField size) ++ body)) =
      if lengthField size = lengthField Config.sizeBase then decodeBody Config.nfBase .frame32 body
      else if lengthField size = lengthField Config.sizeEnvExt then decodeBody Config.nfEnvExt .frame40 body
      else if lengthField size = lengthField Config.sizeReduced then decodeBody Config.nfReduced .frame24 body
      else .error .unknownLength := by
  simp only [be16, List.cons_append, List.nil_append, decodeFrame, u16_be16, ne_eq, not_true_eq_false, if_false]

theorem decode_stream_of_frame {bs : List Byte} {i : Instr} (h : decodeFrame bs = .ok (i, [])) :
    decode (.stream bs) = .ok i := by
  rw [decode, h]

theorem decode_encode_frame {i : Instr} {bs : List Byte} (wf : i.wellFormed = true) (h : encode i = some (.stream bs)) :
    decode (.stream bs) = .ok i := by
  apply decode_stream_of_frame
  cases i with
  | frame32 fields checksum | frame40 fields checksum | frame24 fields checksum =>
    cases h
    have hlen := eq_of_beq wf
    simp only [frameBytes, List.append_assoc, decodeFrame_words, ← hlen, decodeBody_words]
    rfl
  | _ => cases h

/-- What a decoded chunk is, format by format. -/
theorem decodeFrame_eq_ok {bs rest : List Byte} {i : Instr} (h : decodeFrame bs = .ok (i, rest)) :
    ∃ size fields checksum, bs = frameBytes size fields checksum ++ rest ∧
      (size = Config.sizeBase ∧ fields.length = Config.nfBase ∧ i = .frame32 fields checksum ∨
        size = Config.sizeEnvExt ∧ fields.length = Config.nfEnvExt ∧ i = .frame40 fields checksum ∨
        size = Config.sizeReduced ∧ fields.length = Config.nfReduced ∧ i = .frame24 fields checksum) := by
  have whole {b0 b1 b2 b3 : Byte} {size : Nat} {body : List Byte} {fields : List Word} {checksum : Word}
      (hsig : u16 b0 b1 = Config.sig) (hlen : u16 b2 b3 = lengthField size)
      (hbody : body = fields.flatMap be16 ++ be16 checksum ++ rest) :
      b0 :: b1 :: b2 :: b3 :: body = frameBytes size fields checksum ++ rest := by
    rw [frameBytes_append, ← hsig, ← hlen, be16_u16, be16_u16, hbody, List.append_assoc]
    rfl
  unfold decodeFrame at h
  split at h
  · next b0 b1 b2 b3 body =>
    split at h
    · cases h
    next hsig =>
    rw [ne_eq, not_not] at hsig
    split at h
    · next hlen =>
      obtain ⟨fields, checksum, hn, rfl, hbody⟩ := decodeBody_eq_ok h
      exact ⟨_, fields, checksum, whole hsig hlen hbody, .inl ⟨rfl, hn, rfl⟩⟩
    split at h
    · next hlen =>
      obtain ⟨fields, checksum, hn, rfl, hbody⟩ := decodeBody_eq_ok h
      exact ⟨_, fields, checksum, whole hsig hlen hbody, .inr (.inl ⟨rfl, hn, rfl⟩)⟩
    split at h
    · next hlen =>
      obtain ⟨fields, checksum, hn, rfl, hbody⟩ := decodeBody_eq_ok h
      exact ⟨_, fields, checksum, whole hsig hlen hbody, .inr (.inr ⟨rfl, hn, rfl⟩)⟩
    · cases h
  · cases h

theorem decode_stream_eq_ok {bs : List Byte} {i : Instr} (h : decode (.stream bs) = .ok i) : decodeFrame bs = .ok (i, []) := by
  rw [decode] at h
  split at h <;> cases h
  assumption

/-- The two bytes of a word stand where the bytes before it end, high byte first (R49). -/
theorem word_at {bs before after : List Byte} {v : Word} {k : Nat} (hbs : bs = before ++ (be16 v ++ after))
    (hk : before.length = k) :
    ∃ hi lo, bs[k]? = some hi ∧ bs[k + 1]? = some lo ∧ hi.toNat * 256 + lo.toNat = v.toNat := by
  subst hbs hk
  exact ⟨v.extractLsb' 8 8, v.extractLsb' 0 8, by simp [be16], by simp [be16], by rw [← u16_toNat, u16_be16]⟩

end frames

/-- Settles O2: command words by their opcode, frames by their first four bytes. -/
theorem decodeOfEncodeGivesTheInstruction : Obligations.DecodeOfEncodeGivesTheInstruction := by
  rintro i (w | bs) wf encoded
  · exact decode_encode_command encoded
  · exact decode_encode_frame wf encoded

/-- Settles O3: the chunk is the frame of the format that its declared length selects. -/
theorem decodedChunkIsExactlyItsFrame : Obligations.DecodedChunkIsExactlyItsFrame := by
  intro bs i decoded
  obtain ⟨size, fields, checksum, hbs, format⟩ := decodeFrame_eq_ok (decode_stream_eq_ok decoded)
  rw [List.append_nil] at hbs
  subst hbs
  obtain ⟨rfl, hn, rfl⟩ | ⟨rfl, hn, rfl⟩ | ⟨rfl, hn, rfl⟩ := format <;> exact ⟨beq_of_eq hn, rfl⟩

/-- Settles O4: the match gives the opcode, and the opcode the row. -/
theorem matchAndMaskSelectTheInstruction : Obligations.MatchAndMaskSelectTheInstruction := by
  intro w
  refine ⟨fun h => ?_, fun h => ?_, fun h => ?_, fun h => ?_, fun h => ?_, fun h => ?_, fun h => ?_, fun h => ?_,
    fun h => ?_, fun h => ?_, decode_reservedAB, decode_reservedCF⟩ <;>
  · rw [decode, decodeCommand_of_opcode (opcode_of_match h)]
    rfl

/-- Settles O6: each item of the layout is a word behind a run of bytes of known length. -/
theorem frameLayout : Obligations.FrameLayout := by
  intro size fields checksum hsize small bs
  have parts : bs = be16 Config.sig ++ (be16 (lengthField size) ++ (fields.flatMap be16 ++ be16 checksum)) := by
    simp only [bs, frameBytes, List.append_assoc]
  refine ⟨by rw [frameBytes_length, hsize], by rw [parts]; rfl, by rw [parts]; rfl, ?_, fun i h => ?_, ?_⟩
  · have declared : (lengthField size).toNat = size - 4 :=
      Nat.mod_eq_of_lt (show size - 4 < 2 ^ 16 by omega)
    rw [← declared]
    exact word_at parts rfl
  · have split : fields = fields.take i ++ fields[i] :: fields.drop (i + 1) := by simp
    have at_i : bs = (be16 Config.sig ++ be16 (lengthField size) ++ (fields.take i).flatMap be16) ++
        (be16 fields[i] ++ ((fields.drop (i + 1)).flatMap be16 ++ be16 checksum)) := by
      rw [parts]
      conv_lhs => rw [split]
      simp only [List.flatMap_append, List.flatMap_cons, List.append_assoc]
    have k : 5 + 2 * i = 4 + 2 * i + 1 := by omega
    rw [k]
    refine word_at at_i ?_
    simp only [List.length_append, be16_length, flatMap_be16_length, List.length_take]
    omega
  · have k : size - 1 = size - 2 + 1 := by omega
    rw [k]
    refine word_at (before := be16 Config.sig ++ be16 (lengthField size) ++ fields.flatMap be16) (after := [])
      (by rw [parts]; simp only [List.append_assoc, List.append_nil]) ?_
    simp only [List.length_append, be16_length, flatMap_be16_length]
    omega

/-- Settles O1. -/
theorem sampleWordsDecode : Obligations.SampleWordsDecode := by
  unfold Obligations.SampleWordsDecode
  decide

/-- Settles O5: whatever decodes has an encoding, and only the two internal operations have none. -/
theorem onlyInternalOperationsHaveNoEncoding : Obligations.OnlyInternalOperationsHaveNoEncoding := by
  have encodes {e : Encoding} {i : Instr} (decoded : decode e = .ok i) : encode i ≠ none := by
    match e with
    | .cmd w =>
      cases decoded
      obtain ⟨w', encoded⟩ := encode_decodeCommand w
      rw [encoded]
      exact nofun
    | .stream bs => rw [(decodedChunkIsExactlyItsFrame bs i decoded).2]; exact nofun
  refine ⟨fun e v decoded => encodes decoded rfl, fun e acc decoded => encodes decoded rfl, fun i => ⟨fun none => ?_, ?_⟩⟩
  · cases i with
    | catalog v => exact .inl ⟨v, rfl⟩
    | readU16 acc => exact .inr ⟨acc, rfl⟩
    | _ => cases none
  · rintro (⟨v, rfl⟩ | ⟨acc, rfl⟩) <;> rfl

end Sys2Proof
end

section
/-!
PROOFS. The read-only view STATUS (10_state.md R22).
-/
namespace Sys2Proof.Machine

/-- The flags and the code of RESULT keep their places in the concatenation. -/
theorem parts_of_status (code : BitVec 3) (fvalid valRcv init : Bool) :
    let x := 0#2 ++ code ++ BitVec.ofBool fvalid ++ BitVec.ofBool valRcv ++ BitVec.ofBool init
    x.getLsbD 0 = init ∧ x.getLsbD 1 = valRcv ∧ x.getLsbD 2 = fvalid ∧ x.extractLsb' 3 3 = code ∧
      x.extractLsb' 6 2 = 0 := by
  simp [-Nat.reduceAdd, BitVec.extractLsb'_append_eq_ite, BitVec.getElem_append]

/-- Settles O7: the places of the parts, and the seven codes. -/
theorem statusPacksFlagsAndResult : Obligations.StatusPacksFlagsAndResult :=
  ⟨fun s => parts_of_status (resultCode s.result) s.fvalid s.valRcv s.init, rfl, rfl, rfl, rfl, rfl, rfl, rfl, rfl⟩

end Sys2Proof.Machine
end

section
/-!
PROOFS. DECODE as passes of its sequencer (10_state.md R30, 43_frame_decoder.md R135): one READ_U16, and then either the next
one or the end. What READ_U16 can do is said once, and with it the two rules of induction over the passes, for one run and
for two runs side by side.
-/
namespace Sys2Proof.Machine

section reader

/-- READ_U16 completed: only the transport, SUM and the byte held have changed, and at most two bytes were taken (R110). -/
structure ReadDone (acc : Bool) (s t : State) : Prop where
  keeps : t = { s with rx := t.rx, live := t.live, fresh := t.fresh, latch := none, sum := t.sum }
  within : Within s → Within t
  noReset : s.NoReset → t.NoReset
  taken : s.rx.length ≤ t.rx.length + 2
  sum : t.sum.toNat ≤ s.sum.toNat + 2 * maxByte
  sum_kept : acc = false → t.sum = s.sum

/-- READ_U16 waits: nothing but the transport and the byte held has changed, and RX is empty with nothing to come (R44). -/
structure ReadWaits (s t : State) : Prop where
  keeps : t = { s with rx := t.rx, live := t.live, fresh := t.fresh, latch := t.latch }
  rx : t.rx = []
  live : t.live = []
  wanting : s.rx.length < 2

theorem sum_le_of_two_bytes (x : Word) (hi lo : Byte) :
    (x + hi.setWidth 16 + lo.setWidth 16).toNat ≤ x.toNat + 2 * maxByte := by
  rw [add_bytes_eq_ofNat, BitVec.toNat_ofNat, maxByte]
  have := Nat.mod_le (x.toNat + hi.toNat + lo.toNat) (2 ^ 16)
  omega

theorem readLow_ends (acc : Bool) (hi : Byte) (s : State) :
    (readLow acc hi s).Ends (fun _ t => ReadDone acc s t ∧ s.rx.length ≤ t.rx.length + 1)
      (fun t => Drift s t ∧ t.rx = [] ∧ t.live = [] ∧ s.rx = []) (AbortedFrom s) := by
  refine (rxRead_ends s).bind ?_ ?_ (fun _ => id)
  · rintro lo t ⟨⟨only, within, noReset⟩, taken, -⟩
    have hsum : t.sum = s.sum := by rw [only]
    refine ⟨⟨?_, within, noReset, by simp only; omega, ?_, ?_⟩, taken⟩
    · rw [only]
    · cases acc
      · simp [hsum]
      · exact hsum ▸ sum_le_of_two_bytes t.sum hi lo
    · rintro rfl
      exact hsum
  · rintro t ⟨drift, hrx, hlive, hempty, -⟩
    exact ⟨drift, hrx, hlive, hempty⟩

/-- Everything READ_U16 can do. -/
theorem readU16_ends (acc : Bool) (s : State) :
    (readU16 acc s).Ends (fun _ => ReadDone acc s) (ReadWaits s) (AbortedFrom s) := by
  unfold readU16
  split
  · next hi hlatch =>
    refine (readLow_ends acc hi s).mono (fun _ _ h => h.1) ?_ (fun _ => id)
    rintro t ⟨drift, hrx, hlive, hempty⟩
    exact ⟨by rw [drift.only], hrx, hlive, by simp [hempty]⟩
  · refine (rxRead_ends s).bind ?_ ?_ (fun _ => id)
    · rintro hi u ⟨first, taken, -⟩
      refine (readLow_ends acc hi { u with latch := some hi }).mono ?_ ?_ ?_
      · rintro _ t ⟨⟨keeps, within, noReset, -, sum, sum_kept⟩, taken'⟩
        have hsum : u.sum = s.sum := by rw [first.only]
        refine ⟨?_, within ∘ first.within, noReset ∘ first.noReset, by simp only at taken'; omega, hsum ▸ sum, hsum ▸ sum_kept⟩
        rw [keeps, first.only]
      · rintro t ⟨second, hrx, hlive, hempty⟩
        refine ⟨?_, hrx, hlive, ?_⟩
        · rw [second.only, first.only]
        · rw [show u.rx = [] from hempty] at taken
          simp only [List.length_nil] at taken
          omega
      · rintro t ⟨resets, v, second, rfl⟩
        refine ⟨fun none => resets (first.noReset none), { v with latch := s.latch }, ⟨?_, ?_, ?_⟩, rfl⟩
        · rw [OnlyTransport, second.only, first.only]
        · exact second.within ∘ first.within
        · exact second.noReset ∘ first.noReset
    · rintro t ⟨drift, hrx, hlive, hempty, -⟩
      exact ⟨by rw [drift.only], hrx, hlive, by simp [hempty]⟩

end reader

section passes

/-- A DECODE, of its own or that of a POLL, is where one of its READ_U16s starts or waits. -/
structure State.AtRead (s : State) : Prop where
  job : s.job = .decode ∨ s.job = .poll
  operates : s.Operates
  phase : s.phase = .hdr ∨ s.phase = .len ∨ s.phase = .field ∧ s.idx.toNat < (configured s).nf ∨ s.phase = .csum

/-- The bytes of the checksum field are not accumulated (R140). -/
def accumulates : Phase → Bool
  | .csum => false
  | .idle | .sync | .hdr | .len | .field | .flushing | .cmp | .proj => true

/-- What a completed READ_U16 leads to: the next one, or the end of the operation. -/
inductive Pass where
  | more (s : State)
  | last (s : State)

def Pass.run : Pass → State
  | .more s => resume s
  | .last s => s

/-- What DECODE does with the value `v` it has read in its PHASE (R137 to R141). -/
def advance (v : Word) (s : State) : Pass :=
  match s.phase with
  | .hdr => if v = Config.sig then .more { s with phase := .len } else .last (decodeEnd .framingMismatch s)
  | .len =>
    if v = expectedLength s then .more { s with phase := .field, idx := 0 }
    else .last (decodeEnd .invalidLength { s with diagLen := v })
  | .field =>
    if s.idx.toNat + 1 < (configured s).nf then
      .more { s with f := s.f.setIfInBounds s.idx.toNat v, idx := s.idx + 1 }
    else .more { s with f := s.f.setIfInBounds s.idx.toNat v, phase := .csum, idx := 0 }
  | .idle | .sync | .csum | .flushing | .cmp | .proj =>
    .last ((rxFlush { s with sumRx := v, phase := .flushing }).andThen fun _ s => decodeCompare { s with phase := .cmp })

variable {s t u : State} {v : Word}

theorem advance_of_hdr (h : s.phase = .hdr) :
    advance v s = if v = Config.sig then .more { s with phase := .len } else .last (decodeEnd .framingMismatch s) := by
  rw [advance, h]

theorem advance_of_len (h : s.phase = .len) :
    advance v s = if v = expectedLength s then .more { s with phase := .field, idx := 0 }
      else .last (decodeEnd .invalidLength { s with diagLen := v }) := by
  rw [advance, h]

theorem advance_of_field (h : s.phase = .field) :
    advance v s = if s.idx.toNat + 1 < (configured s).nf then
        .more { s with f := s.f.setIfInBounds s.idx.toNat v, idx := s.idx + 1 }
      else .more { s with f := s.f.setIfInBounds s.idx.toNat v, phase := .csum, idx := 0 } := by
  rw [advance, h]

theorem advance_of_csum (h : s.phase = .csum) :
    advance v s = .last ((rxFlush { s with sumRx := v, phase := .flushing }).andThen fun _ s =>
      decodeCompare { s with phase := .cmp }) := by
  rw [advance, h]

/-- The number of fields is small enough for the field pointer (R30, R105). -/
theorem configured_nf_le (s : State) : (configured s).nf ≤ 17 := by
  have cases := catalog_cases s.cfgVariant
  unfold configured
  omega

/-- The field pointer does not wrap before the last field (R30). -/
theorem idx_add_one (h : s.idx.toNat < (configured s).nf) : (s.idx + 1).toNat = s.idx.toNat + 1 := by
  have := configured_nf_le s
  rw [BitVec.toNat_add]
  exact Nat.mod_eq_of_lt (show s.idx.toNat + 1 < 32 by omega)

theorem State.AtRead.of_eq (h : s.AtRead) (job : t.job = s.job) (init : t.init = s.init)
    (variant : t.cfgVariant = s.cfgVariant) (phase : t.phase = s.phase) (idx : t.idx = s.idx) : t.AtRead := by
  obtain ⟨hjob, ⟨hinit, hsize⟩, hphase⟩ := h
  have hconf : configured t = configured s := congrArg catalog variant
  exact ⟨job ▸ hjob, ⟨init ▸ hinit, hconf ▸ hsize⟩, by rw [phase, idx, hconf]; exact hphase⟩

theorem ReadDone.atRead {acc : Bool} (h : ReadDone acc s t) (at_read : s.AtRead) : t.AtRead := by
  rw [h.keeps]
  exact at_read.of_eq rfl rfl rfl rfl rfl

/-- Where one pass leads to another, DECODE is at its next READ_U16. -/
theorem advance_atRead (h : t.AtRead) (more : advance v t = .more u) : u.AtRead := by
  obtain ⟨job, operates, hphase⟩ := h
  have some_fields : 0 < (configured t).nf := by have := Operates.nf operates; omega
  obtain hphase | hphase | ⟨hphase, hidx⟩ | hphase := hphase
  · rw [advance_of_hdr hphase] at more
    split at more <;> cases more
    exact ⟨job, operates, .inr (.inl rfl)⟩
  · rw [advance_of_len hphase] at more
    split at more <;> cases more
    exact ⟨job, operates, .inr (.inr (.inl ⟨rfl, some_fields⟩))⟩
  · rw [advance_of_field hphase] at more
    split at more <;> cases more
    · next next_field => exact ⟨job, operates, .inr (.inr (.inl ⟨hphase, by rw [idx_add_one hidx]; exact next_field⟩))⟩
    · exact ⟨job, operates, .inr (.inr (.inr rfl))⟩
  · rw [advance_of_csum hphase] at more
    cases more

/-- How many READ_U16s DECODE still makes if nothing goes wrong. -/
def readsLeft (s : State) : Nat :=
  match s.phase with
  | .hdr => (configured s).nf + 3
  | .len => (configured s).nf + 2
  | .field => (configured s).nf - s.idx.toNat + 1
  | .idle | .sync | .csum | .flushing | .cmp | .proj => 1

theorem advance_readsLeft (h : t.AtRead) (more : advance v t = .more u) : readsLeft u + 1 = readsLeft t := by
  obtain hphase | hphase | ⟨hphase, hidx⟩ | hphase := h.phase
  · rw [advance_of_hdr hphase] at more
    split at more <;> cases more
    simp only [readsLeft, hphase]
    rfl
  · rw [advance_of_len hphase] at more
    split at more <;> cases more
    simp only [readsLeft, hphase]
    rfl
  · rw [advance_of_field hphase] at more
    split at more <;> cases more
    · next next_field =>
      have left : (configured t).nf - (t.idx.toNat + 1) + 1 + 1 = (configured t).nf - t.idx.toNat + 1 := by omega
      simp only [readsLeft, hphase, idx_add_one hidx]
      exact left
    · simp only [readsLeft, hphase]
      omega
  · rw [advance_of_csum hphase] at more
    cases more

/-- Continuations that agree wherever an access can end give the same operation. -/
theorem Access.Ends.andThen_congr {α : Type} {m : Access α} {k k' : α → State → State} {D : α → State → Prop}
    {H A : State → Prop} (h : m.Ends D H A) (hk : ∀ a s, D a s → k a s = k' a s) : m.andThen k = m.andThen k' := by
  cases m with
  | done a s => exact hk a s h
  | hold s => rfl
  | aborted s => rfl

theorem resume_of_phase_hdr (job : s.job = .decode ∨ s.job = .poll) (h : s.phase = .hdr) : resume s = decodeHeader s := by
  obtain job | job := job <;> simp only [resume, job, h]

theorem resume_of_phase_len (job : s.job = .decode ∨ s.job = .poll) (h : s.phase = .len) : resume s = decodeLength s := by
  obtain job | job := job <;> simp only [resume, job, h]

theorem resume_of_phase_field (job : s.job = .decode ∨ s.job = .poll) (h : s.phase = .field) :
    resume s = decodeFields ((configured s).nf - s.idx.toNat) s := by
  obtain job | job := job <;> simp only [resume, job, h]

theorem resume_of_phase_csum (job : s.job = .decode ∨ s.job = .poll) (h : s.phase = .csum) :
    resume s = decodeChecksum s := by
  obtain job | job := job <;> simp only [resume, job, h]

/-- An operation at a READ_U16 goes on with it, and then as its value says (R30, R44). -/
theorem resume_of_atRead (h : s.AtRead) :
    resume s = (readU16 (accumulates s.phase) s).andThen fun v t => (advance v t).run := by
  obtain hphase | hphase | ⟨hphase, hidx⟩ | hphase := h.phase
  · rw [resume_of_phase_hdr h.job hphase, hphase]
    refine (readU16_ends true s).andThen_congr fun v t read => ?_
    have at_t := read.atRead h
    have ht : t.phase = .hdr := by rw [read.keeps]; exact hphase
    rw [advance_of_hdr ht]
    split
    · exact (resume_of_phase_len (by exact at_t.job) rfl).symm
    · rfl
  · rw [resume_of_phase_len h.job hphase, hphase]
    refine (readU16_ends true s).andThen_congr fun v t read => ?_
    have at_t := read.atRead h
    have ht : t.phase = .len := by rw [read.keeps]; exact hphase
    rw [advance_of_len ht]
    split
    · refine Eq.trans ?_ (resume_of_phase_field (by exact at_t.job) (by rfl)).symm
      rfl
    · rfl
  · rw [resume_of_phase_field h.job hphase, hphase]
    obtain ⟨n, hn⟩ : ∃ n, (configured s).nf - s.idx.toNat = n + 1 := ⟨(configured s).nf - s.idx.toNat - 1, by omega⟩
    rw [hn, decodeFields]
    refine (readU16_ends true s).andThen_congr fun v t read => ?_
    have at_t := read.atRead h
    have ht : t.phase = .field := by rw [read.keeps]; exact hphase
    have hconf : configured t = configured s := by rw [read.keeps]; rfl
    have hti : t.idx = s.idx := by rw [read.keeps]
    rw [advance_of_field ht]
    split
    · next next_field =>
      have left : (configured t).nf - (t.idx + 1).toNat = n := by
        rw [idx_add_one (by rw [hti, hconf]; exact hidx), hconf, hti]
        omega
      refine Eq.trans ?_ (resume_of_phase_field (by exact at_t.job) (by exact ht)).symm
      exact congrArg (decodeFields · _) left.symm
    · next last_field =>
      obtain rfl : n = 0 := by rw [hconf, hti] at last_field; omega
      exact (resume_of_phase_csum (by exact at_t.job) rfl).symm
  · rw [resume_of_phase_csum h.job hphase, hphase]
    refine (readU16_ends false s).andThen_congr fun v t read => ?_
    have ht : t.phase = .csum := by rw [read.keeps]; exact hphase
    rw [advance_of_csum ht]
    rfl

end passes

section rules

/-- A pass leads to a READ_U16 where `I` holds, or to an end where `P` does. -/
def Pass.Leads (I P : State → Prop) : Pass → Prop
  | .more s => I s
  | .last s => P s

/-- Two passes side by side both lead to a READ_U16 where `R` holds, or both to an end where `P` does. -/
def Pass.LeadBoth (R P : State → State → Prop) : Pass → Pass → Prop
  | .more s, .more t => R s t
  | .last s, .last t => P s t
  | .more _, .last _ | .last _, .more _ => False

/-- Two operations in step: as long as `R` relates their states, either what is left of both ends as `P` says, or both read
and go on together. -/
theorem resume_lockstep {R P : State → State → Prop}
    (pass : ∀ s s', R s s' → s.AtRead ∧ s'.AtRead ∧ (P (resume s) (resume s') ∨ ∃ v t v' t',
      readU16 (accumulates s.phase) s = .done v t ∧ readU16 (accumulates s'.phase) s' = .done v' t' ∧
        Pass.LeadBoth R P (advance v t) (advance v' t')))
    {s s' : State} (h : R s s') : P (resume s) (resume s') := by
  induction hn : readsLeft s generalizing s s' with
  | zero =>
    have positive : 0 < readsLeft s := by unfold readsLeft; split <;> omega
    omega
  | succ n ih =>
    obtain ⟨at_read, at_read', done | ⟨v, t, v', t', hread, hread', leads⟩⟩ := pass s s' h
    · exact done
    have read := readU16_ends (accumulates s.phase) s
    rw [hread] at read
    have same : readsLeft t = readsLeft s := by rw [read.keeps]; rfl
    rw [resume_of_atRead at_read, resume_of_atRead at_read', hread, hread', Access.done_andThen, Access.done_andThen]
    cases hmore : advance v t with
    | more u =>
      rw [hmore] at leads
      have left := advance_readsLeft (read.atRead at_read) hmore
      cases hmore' : advance v' t' with
      | more u' => rw [hmore'] at leads; exact ih leads (by omega)
      | last u' => rw [hmore'] at leads; exact leads.elim
    | last u =>
      rw [hmore] at leads
      cases hmore' : advance v' t' with
      | more u' => rw [hmore'] at leads; exact leads.elim
      | last u' => rw [hmore'] at leads; exact leads

/-- One operation: `I` holds at each of its READ_U16s, and `P` wherever it ends, waits or is aborted. -/
theorem resume_induction {I P : State → Prop}
    (pass : ∀ s, I s → s.AtRead ∧
      (readU16 (accumulates s.phase) s).Ends (fun v t => (advance v t).Leads I P) P P)
    {s : State} (h : I s) : P (resume s) := by
  refine resume_lockstep (R := fun s s' => I s ∧ s' = s) (P := fun t _ => P t) ?_ (⟨h, rfl⟩ : I s ∧ s = s)
  rintro s s' ⟨h, same⟩
  subst same
  obtain ⟨at_read, ends⟩ := pass s' h
  refine ⟨at_read, at_read, ?_⟩
  rw [resume_of_atRead at_read]
  cases hread : readU16 (accumulates s'.phase) s' with
  | done v t =>
    rw [hread] at ends
    refine .inr ⟨v, t, v, t, rfl, rfl, ?_⟩
    simp only [Access.Ends] at ends
    cases hmore : advance v t with
    | more u => rw [hmore] at ends; exact ⟨ends, rfl⟩
    | last u => rw [hmore] at ends; exact ends
  | hold t => rw [hread] at ends; exact .inl ends
  | aborted t => rw [hread] at ends; exact .inl ends

end rules

section start

/-- Where DECODE stands after its two tests: at the READ_U16 of the header (R143). -/
def decodeStart (s : State) : State := { s with sum := 0, fvalid := false, phase := .hdr, idx := 0, latch := none }

theorem decodeStart_atRead {s : State} (job : s.job = .decode ∨ s.job = .poll) (operates : s.Operates) :
    (decodeStart s).AtRead := ⟨job, operates, .inl rfl⟩

theorem decodeFrom_eq_resume {s : State} (job : s.job = .decode ∨ s.job = .poll) (operates : s.Operates) :
    decodeFrom s = resume (decodeStart s) :=
  (decodeFrom_of_operates operates).trans (resume_of_phase_hdr (by exact job) rfl).symm

/-- DECODE ends at one of its two tests, or starts (R135). -/
theorem decodeFrom_cases {s : State} (job : s.job = .decode ∨ s.job = .poll) :
    (decodeFrom s = decodeEnd .notInitialized s ∨ decodeFrom s = decodeEnd .callerError s) ∨
      s.Operates ∧ decodeFrom s = resume (decodeStart s) := by
  by_cases hinit : s.init = true
  · by_cases hsize : (configured s).size = 0
    · exact .inl (.inr (decodeFrom_of_unsupported hinit hsize))
    · exact .inr ⟨⟨hinit, hsize⟩, decodeFrom_eq_resume job ⟨hinit, hsize⟩⟩
  · exact .inl (.inl (decodeFrom_of_not_init (by simpa using hinit)))

end start

end Sys2Proof.Machine
end

section
/-!
PROOFS. What a step does with each event of the script (log entry 1): a command word runs its instruction, bytes are
delivered whether they are a frame or not, a reset resets.
-/
namespace Sys2Proof.Machine

section events
variable {s : State} {rest : List Input}

/-- A whole frame runs as its instruction, which delivers its bytes like any others (R71, R85). -/
theorem exec_of_encode_stream {i : Instr} {bs : List Byte} (h : encode i = some (.stream bs)) (s : State) :
    exec i s = .next (deliver bs s) := by
  cases i with
  | frame32 | frame40 | frame24 => cases h; rfl
  | _ => cases h

/-- An instruction with a command word starts only when no operation is in progress (log entry 4). -/
theorem exec_of_encode_cmd {i : Instr} {w : Word} (h : encode i = some (.cmd w)) (busy : s.job ≠ .none) :
    exec i s = .fault .operationRunning := by
  have refused (run : State → State) : command s run = .fault .operationRunning := if_neg busy
  cases i with
  | catalog | readU16 | frame32 | frame40 | frame24 => cases h
  | config =>
    simp only [exec, execConfig]
    exact refused _
  | _ => exact refused _

theorem step_of_nil (h : s.script = []) : step s = .next (resume s) := by
  rw [step, fetch, h]

theorem step_of_cmd {w : Word} (h : s.script = .cmd w :: rest) :
    step s = exec (decodeCommand w) { s with script := rest } := by
  rw [step, fetch, h]
  rfl

theorem step_of_recv {bs : List Byte} (h : s.script = .recv bs :: rest) :
    step s = .next (deliver bs { s with script := rest }) := by
  rw [step, fetch, h]
  cases decoded : decode (.stream bs) with
  | ok i =>
    simp only [fetchEncoded, decoded]
    exact exec_of_encode_stream (decodedChunkIsExactlyItsFrame bs i decoded).2 _
  | error e => simp only [fetchEncoded, decoded]

theorem step_of_reset (h : s.script = .reset :: rest) : step s = .next (blockReset { s with script := rest }) := by
  rw [step, fetch, h]

theorem resume_of_idle (h : s.job = .none) : resume s = s := by
  rw [resume, h]

/-- A READ_U16 that holds its first byte takes the second (R115). -/
theorem readU16_quiet_held {hi lo : Byte} {more : List Byte} (acc : Bool) (h : s.live = []) (hl : s.latch = some hi)
    (hr : s.rx = lo :: more) :
    readU16 acc s = .done (u16 hi lo)
      { s with rx := more, latch := none, sum := if acc then s.sum + hi.setWidth 16 + lo.setWidth 16 else s.sum } := by
  rw [readU16, hl]
  simp only [readLow, rxRead_quiet h hr, Access.done_bind]

/-- With no operation in progress, bytes that arrive join RX and nothing else happens (R46). -/
theorem deliver_of_idle (h : s.job = .none) (bs : List Byte) : deliver bs s = receive bs s :=
  resume_of_idle ((receive_job bs s).trans h)

end events

/-- Settles O8: the two kinds of events that carry an encoding are fetched as it decodes. -/
theorem stepRunsTheDecodedInstruction : Obligations.StepRunsTheDecodedInstruction := by
  rintro s (w | bs) rest i hscript decoded
  · cases decoded
    exact step_of_cmd hscript
  · rw [step_of_recv hscript]
    exact (exec_of_encode_stream (decodedChunkIsExactlyItsFrame bs i decoded).2 _).symm

/-- Settles O9: with nothing to resume, a step keeps the state or receives the bytes. -/
theorem arrivalBetweenOperationsOnlyAppends : Obligations.ArrivalBetweenOperationsOnlyAppends := by
  rintro s ⟨hjob, -⟩ unbounded
  refine ⟨fun hscript => ?_, fun bs rest hscript => ?_⟩
  · rw [step_of_nil hscript, resume_of_idle hjob]
  · rw [step_of_recv hscript, deliver_of_idle (by exact hjob), receive_of_unbounded _ _ (by exact unbounded)]

/-- Settles O10: every command word decodes to an instruction of the host. -/
theorem commandDuringAnOperationStops : Obligations.CommandDuringAnOperationStops := by
  intro s w rest busy hscript
  obtain ⟨w', encoded⟩ := encode_decodeCommand w
  rw [step_of_cmd hscript]
  exact exec_of_encode_cmd encoded busy

/-- Settles O11: the state after reset, field by field. -/
theorem resetValues : Obligations.ResetValues := by
  refine ⟨rfl, rfl, rfl, rfl, rfl, fun k => ?_, rfl, rfl, rfl, rfl, rfl, rfl, rfl, rfl, rfl, rfl⟩
  exact Vector.getElem_replicate k.isLt

/-- Settles O12: the event is taken off the script, and the reset is `blockReset`. -/
theorem resetEventResetsTheBlockOnly : Obligations.ResetEventResetsTheBlockOnly := fun _ _ hscript =>
  ⟨_, step_of_reset hscript, _, _, rfl⟩

/-- Settles O22: the byte that arrives is in RX when READ_U16 goes on with the byte it holds. -/
theorem heldReadCompletesWithTheArrivingByte : Obligations.HeldReadCompletesWithTheArrivingByte := by
  intro s acc hi lo more rest hjob hphase hidx hlatch hrx quiet unbounded hscript
  have resumed : resume { s with script := rest, rx := lo :: more } =
      byteReader acc { s with script := rest, rx := lo :: more } := by rw [resume, hjob]
  rw [step_of_recv hscript, deliver, receive_of_unbounded _ _ (by exact unbounded)]
  simp only [hrx, List.nil_append]
  rw [resumed, byteReader, readU16_quiet_held acc (by exact quiet) (by exact hlatch) rfl, Access.done_andThen,
    u16_eq_ofNat, add_bytes_eq_ofNat]

/-- Settles O53: the three frames are delivered with no operation to go on. -/
theorem arrivingFrameIsAppended : Obligations.ArrivingFrameIsAppended := by
  intro s fields checksum hjob unbounded
  have appended (bs : List Byte) : Host.Outcome.next (φ := Fault) (ρ := Refusal) (deliver bs s) =
      .next { s with rx := s.rx ++ bs } := by
    rw [deliver_of_idle hjob, receive_of_unbounded _ _ unbounded]
  exact ⟨appended _, appended _, appended _⟩

end Sys2Proof.Machine
end

section
/-!
PROOFS. How operations conclude (60_exceptions.md R217, 70_reset_and_hazards.md R231): what lies behind the last byte read,
the flush and the projection among it, touches OUT, the notifications and the transport, and then the operation finishes or
is aborted. Said once for all operations of the host.
-/
namespace Sys2Proof.Machine

/-- What the conclusion of an operation may have changed before it finishes. -/
structure Closing (s t : State) : Prop where
  keeps : t = { s with
    out := t.out, events := t.events, phase := t.phase, ret := t.ret, rx := t.rx, live := t.live, fresh := t.fresh }
  within : Within s → Within t
  noReset : s.NoReset → t.NoReset

/-- An operation finishes, or a reset aborts it. -/
inductive Concludes (s t : State) : Prop
  | finished (r : ResultCode) (u : State) (closing : Closing s u) (ended : t = finish r u)
  | aborted (u : State) (resets : ¬ s.NoReset) (closing : Closing s u) (ended : t = blockReset u)

section conclusion
variable {s t u : State}

/-- An update of the registers that a conclusion may change; all premises are evident. -/
theorem Closing.of_update
    (keeps : t = { s with
      out := t.out, events := t.events, phase := t.phase, ret := t.ret, rx := t.rx, live := t.live, fresh := t.fresh } :=
        by rfl)
    (rx : t.rx = s.rx := by rfl) (rxCapacity : t.rxCapacity = s.rxCapacity := by rfl) (live : t.live = s.live := by rfl) :
    Closing s t :=
  ⟨keeps, by rw [Within, Within, rx, rxCapacity]; exact id, by rw [State.NoReset, State.NoReset, live]; exact id⟩

theorem Closing.of_drift (drift : Drift s t) : Closing s t := ⟨by rw [drift.only], drift.within, drift.noReset⟩

theorem Closing.trans (h : Closing s t) (k : Closing t u) : Closing s u :=
  ⟨by rw [k.keeps, h.keeps], k.within ∘ h.within, k.noReset ∘ h.noReset⟩

theorem Concludes.after (h : Closing s t) (k : Concludes t u) : Concludes s u := by
  cases k with
  | finished r v closing ended => exact .finished r v (h.trans closing) ended
  | aborted v resets closing ended => exact .aborted v (resets ∘ h.noReset) (h.trans closing) ended

theorem Concludes.finish (r : ResultCode) (s : State) : Concludes s (finish r s) := .finished r s .of_update rfl

theorem AbortedFrom.concludes (h : AbortedFrom s t) : Concludes s t := by
  obtain ⟨resets, u, drift, rfl⟩ := h
  exact .aborted u resets (.of_drift drift) rfl

/-- However an operation concludes, it is over (R30, R231). -/
theorem Concludes.idle (h : Concludes s t) : t.Idle := by
  cases h with
  | finished r u _ ended => exact ended ▸ finish_idle r u
  | aborted u _ _ ended => exact ended ▸ blockReset_idle u

theorem project_concludes (s : State) : Concludes s (project s) := by
  obtain ⟨r, out, events, ended⟩ := project_eq_finish s
  exact .finished r { s with out := out, events := events } .of_update ended

/-- A flush, and the end after it (R188, R191). -/
theorem flush_concludes (r : ResultCode) (s : State) :
    Concludes s ((rxFlush { s with phase := .flushing }).andThen fun _ s => Machine.finish r s) := by
  refine Concludes.after (t := { s with phase := .flushing }) .of_update ?_
  exact (rxFlush_ends _).andThen (fun _ _ flushed => .after (.of_drift flushed.1) (.finish r _)) (fun _ => False.elim)
    (fun _ => AbortedFrom.concludes)

theorem decodeEnd_of_poll (h : s.job = .poll) (r : ResultCode) : decodeEnd r s = pollEnd r s := by
  rw [decodeEnd, h]

theorem decodeEnd_of_not_poll (h : s.job ≠ .poll) (r : ResultCode) : decodeEnd r s = finish r s := by
  unfold decodeEnd
  split
  · next poll => exact absurd poll h
  · rfl

theorem decodeEnd_concludes (r : ResultCode) (s : State) : Concludes s (decodeEnd r s) := by
  unfold decodeEnd pollEnd
  split
  · split
    · exact project_concludes s
    · exact flush_concludes _ s
    · exact .finish _ s
  · exact .finish r s

theorem opFlush_concludes (s : State) : Concludes s (opFlush s) := by
  unfold opFlush
  split
  · exact .finish _ s
  · exact flush_concludes _ s

/-- FRAME_READY up to its answer: it answers at one of its two tests, or scans with PHASE = SYNC (R120). -/
theorem frameReady_cases (s : State) :
    (frameReady s = .done .notInitialized s ∨ frameReady s = .done .callerError s) ∨
      s.Operates ∧ frameReady s = sync (configured s).size { s with phase := .sync } := by
  by_cases hinit : s.init = true
  · by_cases hsize : (configured s).size = 0
    · exact .inl (.inr (frameReady_of_unsupported hinit hsize))
    · exact .inr ⟨⟨hinit, hsize⟩, by rw [frameReady, if_neg (by simp [hinit]), if_neg hsize]⟩
  · exact .inl (.inl (frameReady_of_not_init (by simpa using hinit)))

/-- Everything FRAME_READY can do up to its answer; ready says that a candidate frame is in RX (R120 to R125). -/
theorem frameReady_ends (s : State) :
    (frameReady s).Ends
      (fun r t => Closing s t ∧
        (r = .ok → s.Operates ∧ (configured s).size ≤ t.rx.length ∧ t.rx.head? = some Config.sig1))
      (fun _ => False) (Concludes s) := by
  obtain (answer | answer) | ⟨operates, scan⟩ := frameReady_cases s
  · rw [answer]
    exact ⟨.of_update, nofun⟩
  · rw [answer]
    exact ⟨.of_update, nofun⟩
  · have scanning : Closing s { s with phase := .sync } := .of_update
    rw [scan]
    refine (sync_ends _ _).mono ?_ (fun _ => id) (fun _ aborted => aborted.concludes.after scanning)
    rintro r t ⟨drift, -, ready⟩
    refine ⟨scanning.trans (.of_drift drift), fun ok => ⟨operates, ?_⟩⟩
    obtain ⟨-, enough, head⟩ | notReady := ready
    · exact ⟨enough, head⟩
    · cases ok.symm.trans notReady

theorem opFrameReady_concludes (s : State) : Concludes s (opFrameReady s) :=
  (frameReady_ends s).andThen
    (fun r t found => .after found.1 (.after (t := { t with ret := some (.ready (decide (r = .ok))) })
      .of_update (.finish r _)))
    (fun _ => False.elim) (fun _ => id)

end conclusion

end Sys2Proof.Machine
end

section
/-!
PROOFS. The invariant of the machine (10_state.md section 8, 60_exceptions.md section 6). The part of it that does not speak
of the sequencer is kept by everything an operation does; the rest follows from where the operation ends or waits.
-/
namespace Sys2Proof.Machine

/-- The invariant but for the sequencer: of the validated frame, the life state and the capacity of RX. -/
structure State.Sound (s : State) : Prop where
  frame : s.FrameOk
  life : s.LifeOk
  within : Within s

section sound
variable {s t : State}

/-- An update of registers that the invariant does not speak of; all premises are evident. -/
theorem State.Sound.of_update (h : s.Sound) (fvalid : t.fvalid = s.fvalid := by rfl) (fcount : t.fcount = s.fcount := by rfl)
    (init : t.init = s.init := by rfl) (initDone : t.initDone = s.initDone := by rfl)
    (valRcv : t.valRcv = s.valRcv := by rfl) (rx : t.rx = s.rx := by rfl)
    (rxCapacity : t.rxCapacity = s.rxCapacity := by rfl) : t.Sound := by
  refine ⟨?_, ?_, ?_⟩
  · rw [State.FrameOk, fvalid, fcount, init]
    exact h.frame
  · rw [State.LifeOk, init, initDone, valRcv]
    exact h.life
  · rw [Within, rxCapacity, rx]
    exact h.within

theorem State.Sound.receive (h : s.Sound) (bs : List Byte) : (receive bs s).Sound := by
  refine ⟨?_, ?_, fun c hc => receive_within bs s c (by simpa using hc) (h.within c (by simpa using hc))⟩
  · simpa [State.FrameOk] using h.frame
  · simpa [State.LifeOk] using h.life

/-- Between operations the invariant is its part without the sequencer. -/
theorem State.Sound.inv (h : s.Sound) (idle : s.Idle) : s.Inv := by
  obtain ⟨hjob, hphase, hidx, hlatch⟩ := idle
  refine ⟨?_, h.frame, h.life, h.within, fun busy => absurd hjob busy⟩
  rw [State.SequencerOk, hjob]
  exact ⟨hphase, hidx, hlatch⟩

/-- Reset leaves no frame, no measurement and an uninitialised block (R35). -/
theorem inv_blockReset (h : Within s) : (blockReset s).Inv :=
  State.Sound.inv ⟨nofun, ⟨nofun, nofun⟩, h⟩ (blockReset_idle s)

theorem State.Sound.of_closing (h : s.Sound) (closing : Closing s t) : t.Sound := by
  refine ⟨?_, ?_, closing.within h.within⟩
  · rw [closing.keeps]
    exact h.frame
  · rw [closing.keeps]
    exact h.life

/-- An operation that concludes from a sound state ends in the invariant. -/
theorem State.Sound.concludes (h : s.Sound) (k : Concludes s t) : t.Inv := by
  cases k with
  | finished r u closing ended =>
    rw [ended]
    exact (h.of_closing closing).of_update.inv (finish_idle r u)
  | aborted u _ closing ended => exact ended ▸ inv_blockReset (closing.within h.within)

/-- Where the sums agree, the frame that is validated has the field count of the variant (R142, R12). -/
theorem State.Sound.decodeCompare (h : s.Sound) (operates : s.Operates) : (decodeCompare s).Inv := by
  unfold Machine.decodeCompare
  split
  · refine State.Sound.concludes ?_ (decodeEnd_concludes .ok _)
    refine ⟨fun _ => ⟨operates.1, ?_⟩, ⟨h.life.1, fun _ => operates.1⟩, h.within⟩
    obtain nf | nf | nf := Operates.nf operates <;> simp only [nf] <;> decide
  · exact h.concludes (decodeEnd_concludes _ s)

end sound

section sequencer
variable {s t : State}

/-- What DECODE keeps at each of its READ_U16s: nothing is validated, and IDX counts fields only (R30, R143). -/
structure State.DecodesSoundly (s : State) : Prop where
  at_read : s.AtRead
  sound : s.Sound
  invalid : s.fvalid = false
  idx : s.phase ≠ .field → s.idx = 0

theorem ReadDone.decodesSoundly {acc : Bool} (read : ReadDone acc s t) (h : s.DecodesSoundly) : t.DecodesSoundly := by
  refine ⟨read.atRead h.at_read, ⟨?_, ?_, read.within h.sound.within⟩, ?_, ?_⟩ <;> rw [read.keeps]
  · exact h.sound.frame
  · exact h.sound.life
  · exact h.invalid
  · exact h.idx

theorem State.DecodesSoundly.sequencerOk (h : s.DecodesSoundly) : s.SequencerOk := by
  have place : s.Operates ∧ s.fvalid = false ∧ (((s.phase = .hdr ∨ s.phase = .len ∨ s.phase = .csum) ∧ s.idx = 0) ∨
      (s.phase = .field ∧ s.idx.toNat < (configured s).nf)) := by
    refine ⟨h.at_read.operates, h.invalid, ?_⟩
    obtain hphase | hphase | field | hphase := h.at_read.phase
    · exact .inl ⟨.inl hphase, h.idx (by simp [hphase])⟩
    · exact .inl ⟨.inr (.inl hphase), h.idx (by simp [hphase])⟩
    · exact .inr field
    · exact .inl ⟨.inr (.inr hphase), h.idx (by simp [hphase])⟩
  obtain job | job := h.at_read.job <;> rw [State.SequencerOk, job] <;> exact place

theorem State.DecodesSoundly.waits (h : s.DecodesSoundly) (waits : ReadWaits s t) : t.Inv := by
  have keeps := waits.keeps
  have soundly : t.DecodesSoundly := by
    refine ⟨?_, ⟨?_, ?_, fun c _ => by simp [waits.rx]⟩, ?_, ?_⟩ <;> rw [keeps]
    · exact h.at_read.of_eq rfl rfl rfl rfl rfl
    · exact h.sound.frame
    · exact h.sound.life
    · exact h.invalid
    · exact h.idx
  exact ⟨soundly.sequencerOk, soundly.sound.frame, soundly.sound.life, soundly.sound.within,
    fun _ => ⟨waits.rx, waits.live⟩⟩

/-- One pass keeps it, or ends in the invariant. -/
theorem advance_soundly (v : Word) (h : t.DecodesSoundly) : (advance v t).Leads State.DecodesSoundly State.Inv := by
  have sound := h.sound
  have goes_on {u : State} (more : advance v t = .more u) (sound : u.Sound) (invalid : u.fvalid = false)
      (idx : u.phase ≠ .field → u.idx = 0) : u.DecodesSoundly := ⟨advance_atRead h.at_read more, sound, invalid, idx⟩
  obtain hphase | hphase | ⟨hphase, hidx⟩ | hphase := h.at_read.phase
  · rw [advance_of_hdr hphase] at goes_on ⊢
    split
    · next expected =>
      exact goes_on (if_pos expected) sound.of_update h.invalid fun _ => h.idx (by simp [hphase])
    · exact sound.concludes (decodeEnd_concludes _ t)
  · rw [advance_of_len hphase] at goes_on ⊢
    split
    · next expected => exact goes_on (if_pos expected) sound.of_update h.invalid fun _ => rfl
    · exact sound.of_update.concludes (decodeEnd_concludes _ _)
  · rw [advance_of_field hphase] at goes_on ⊢
    split
    · next another =>
      exact goes_on (if_pos another) sound.of_update h.invalid fun other => absurd hphase other
    · next last => exact goes_on (if_neg last) sound.of_update h.invalid fun _ => rfl
  · rw [advance_of_csum hphase]
    have flushing : State.Sound { t with sumRx := v, phase := .flushing } := sound.of_update
    refine (rxFlush_ends _).andThen (fun _ u flushed => ?_) (fun _ => False.elim)
      (fun _ aborted => flushing.concludes aborted.concludes)
    have sound' := flushing.of_closing (.of_drift flushed.1)
    refine State.Sound.decodeCompare sound'.of_update ?_
    rw [flushed.1.only]
    exact h.at_read.operates

theorem State.DecodesSoundly.resume (h : s.DecodesSoundly) : (resume s).Inv :=
  resume_induction (fun s h => ⟨h.at_read, (readU16_ends _ s).mono (fun v _ read => advance_soundly v (read.decodesSoundly h))
    (fun _ => h.waits) (fun _ aborted => h.sound.concludes aborted.concludes)⟩) h

theorem State.Sound.decodeFrom (h : s.Sound) (job : s.job = .decode ∨ s.job = .poll) : (decodeFrom s).Inv := by
  obtain (ended | ended) | ⟨operates, started⟩ := decodeFrom_cases job
  · exact ended ▸ h.concludes (decodeEnd_concludes _ s)
  · exact ended ▸ h.concludes (decodeEnd_concludes _ s)
  · rw [started]
    exact State.DecodesSoundly.resume
      ⟨decodeStart_atRead job operates, ⟨nofun, h.life, h.within⟩, rfl, fun _ => rfl⟩

/-- READ_U16 on its own ends between operations, or waits (R110). -/
theorem State.Sound.byteReader {acc : Bool} (h : s.Sound) (job : s.job = .readU16 acc) (hphase : s.phase = .idle)
    (hidx : s.idx = 0) : (byteReader acc s).Inv := by
  refine (readU16_ends acc s).andThen (fun v t read => ?_) (fun t waits => ?_) (fun _ aborted => h.concludes aborted.concludes)
  · have keeps := read.keeps
    refine State.Sound.inv ⟨?_, ?_, read.within h.within⟩ ⟨rfl, ?_⟩ <;> rw [keeps]
    · exact h.frame
    · exact h.life
    · exact ⟨hphase, hidx, rfl⟩
  · have keeps := waits.keeps
    refine ⟨?_, ?_, ?_, fun c _ => by simp [waits.rx], fun _ => ⟨waits.rx, waits.live⟩⟩ <;> rw [keeps]
    · simp only [State.SequencerOk, job]
      exact ⟨hphase, hidx⟩
    · exact h.frame
    · exact h.life

/-- An operation that goes on from where the sequencer can be (R30, R44). -/
theorem State.Sound.resume (h : s.Sound) (place : s.SequencerOk) : (resume s).Inv := by
  cases job : s.job with
  | none =>
    rw [State.SequencerOk, job] at place
    rw [resume_of_idle job]
    exact h.inv ⟨job, place⟩
  | readU16 acc =>
    rw [State.SequencerOk, job] at place
    rw [Machine.resume, job]
    exact h.byteReader job place.1 place.2
  | decode | poll =>
    rw [State.SequencerOk, job] at place
    obtain ⟨operates, invalid, place⟩ := place
    refine State.DecodesSoundly.resume ⟨⟨by simp [job], operates, ?_⟩, h, invalid, fun other => ?_⟩
    · obtain ⟨hphase | hphase | hphase, -⟩ | field := place
      · exact .inl hphase
      · exact .inr (.inl hphase)
      · exact .inr (.inr (.inr hphase))
      · exact .inr (.inr (.inl field))
    · obtain ⟨-, hidx⟩ | ⟨hphase, -⟩ := place
      · exact hidx
      · exact absurd hphase other

end sequencer

section instructions
variable {s t : State}

/-- INIT initialises a block at most once, and only together with INITDONE (R180, R220). -/
theorem State.Sound.opInit (h : s.Sound) : (opInit s).Inv := by
  by_cases later : s.initDone = true
  · rw [opInit_later later]
    exact h.concludes (.finish _ s)
  · have first : s.initDone = false := by simpa using later
    have not_init : ¬ s.init = true := fun hinit => later (h.life.1 hinit)
    rw [opInit_first first]
    refine State.Sound.concludes ?_ (.finish _ _)
    refine ⟨fun valid => ?_, ⟨fun _ => rfl, fun received => ?_⟩, h.within⟩
    · exact absurd (h.frame valid).1 not_init
    · exact absurd (h.life.2 received) not_init

theorem State.Sound.opCheckClear (h : s.Sound) : (opCheckClear s).Inv := by
  unfold Machine.opCheckClear
  split
  · exact h.of_update.concludes (.finish _ _)
  · refine State.Sound.concludes ?_ (.finish _ _)
    exact ⟨h.frame, ⟨h.life.1, nofun⟩, h.within⟩

theorem State.Sound.opPoll (h : s.Sound) : (opPoll s).Inv := by
  refine (frameReady_ends s).andThen (fun r t found => ?_) (fun _ => False.elim) (fun _ => h.concludes)
  have sound := h.of_closing found.1
  split
  · exact State.Sound.decodeFrom sound.of_update (.inr rfl)
  · exact sound.concludes (.finish r t)

theorem State.Inv.sound (h : s.Inv) : s.Sound := by
  obtain ⟨-, frame, life, within, -⟩ := h
  exact ⟨frame, life, within⟩

theorem State.Inv.deliver (h : s.Inv) (bs : List Byte) : (deliver bs s).Inv := by
  refine (h.sound.receive bs).resume ?_
  simpa [State.SequencerOk, State.Operates, configured] using h.1

/-- Every instruction that answers keeps the invariant. -/
theorem exec_keeps_inv {i : Instr} (h : s.Inv) (answer : exec i s = .next t) : t.Inv := by
  have sound := h.sound
  have ran {run : State → State} (answer : command s run = .next t) (kept : s.Idle → (run s).Inv) : t.Inv := by
    obtain ⟨job, rfl⟩ := command_next answer
    refine kept ⟨job, ?_⟩
    have place := h.1
    rwa [State.SequencerOk, job] at place
  cases i with
  | init => exact ran answer fun _ => sound.opInit
  | config =>
    simp only [exec, execConfig] at answer
    exact ran answer fun _ => sound.of_update.concludes (.finish _ _)
  | frameReady => exact ran answer fun _ => sound.concludes (opFrameReady_concludes s)
  | decode => exact ran answer fun _ => State.Sound.decodeFrom sound.of_update (.inl rfl)
  | project => exact ran answer fun _ => sound.concludes (project_concludes s)
  | checkClear => exact ran answer fun _ => sound.opCheckClear
  | flush => exact ran answer fun _ => sound.concludes (opFlush_concludes s)
  | poll => exact ran answer fun _ => sound.opPoll
  | reserved0 | reserved9 | reservedAB | reservedCF => exact ran answer fun _ => sound.concludes (.finish _ s)
  | catalog => cases answer; exact h
  | readU16 acc =>
    simp only [exec, execReadU16] at answer
    exact ran answer fun ⟨_, hphase, hidx, _⟩ =>
      State.Sound.byteReader sound.of_update rfl hphase hidx
  | frame32 | frame40 | frame24 => cases answer; exact h.deliver _

end instructions

/-- Settles O14: nothing is in progress, validated, initialised or buffered. -/
theorem invariantAtReset : Obligations.InvariantAtReset :=
  State.Sound.inv ⟨nofun, ⟨nofun, nofun⟩, nofun⟩ ⟨rfl, rfl, rfl, rfl⟩

/-- Settles O15: by the event that the step takes. -/
theorem stepKeepsInvariant : Obligations.StepKeepsInvariant := by
  intro s t h answer
  match hscript : s.script with
  | [] =>
    rw [step_of_nil hscript] at answer
    cases answer
    exact h.sound.resume h.1
  | .cmd w :: rest =>
    rw [step_of_cmd hscript] at answer
    exact exec_keeps_inv (s := { s with script := rest }) h answer
  | .recv bs :: rest =>
    rw [step_of_recv hscript] at answer
    cases answer
    exact State.Inv.deliver (s := { s with script := rest }) h bs
  | .reset :: rest =>
    rw [step_of_reset hscript] at answer
    cases answer
    exact inv_blockReset (by exact h.sound.within)

end Sys2Proof.Machine
end

section
/-!
PROOFS. The bound on SUM (41_byte_reader.md R113): each READ_U16 adds at most two bytes, and a DECODE makes at most as many
of them before the checksum field as the longest frame has words there.
-/
namespace Sys2Proof.Machine

section bound
variable {s t : State}

theorem sumOk_of_idle (idle : s.Idle) (bound : s.sum.toNat ≤ maxSum) : s.SumOk :=
  ⟨fun _ => by simp [idle.1], bound, fun busy => absurd idle.1 busy⟩

/-- The conclusion of an operation adds nothing to SUM. -/
theorem Concludes.sumOk (k : Concludes s t) (bound : s.sum.toNat ≤ maxSum) : t.SumOk := by
  refine sumOk_of_idle k.idle ?_
  cases k with
  | finished r u closing ended =>
    rw [ended, finish_sum, closing.keeps]
    exact bound
  | aborted u _ _ ended =>
    rw [ended]
    exact Nat.zero_le _

/-- A DECODE is in progress and SUM is within its bound. -/
abbrev State.Sums (s : State) : Prop := s.SumOk ∧ s.job ≠ .none

theorem State.Sums.atRead (h : s.Sums) : s.AtRead := by
  obtain ⟨⟨noReader, -, place⟩, busy⟩ := h
  obtain ⟨operates, place⟩ := place busy
  refine ⟨?_, operates, ?_⟩
  · cases job : s.job with
    | none => exact absurd job busy
    | readU16 acc => exact absurd job (noReader acc)
    | decode => exact .inl rfl
    | poll => exact .inr rfl
  · obtain ⟨hphase, -⟩ | ⟨hphase, -⟩ | ⟨hphase, hidx, -⟩ | hphase := place
    · exact .inl hphase
    · exact .inr (.inl hphase)
    · exact .inr (.inr (.inl ⟨hphase, hidx⟩))
    · exact .inr (.inr (.inr hphase))

theorem State.AtRead.busy (h : s.AtRead) : s.job ≠ .none := by
  obtain job | job := h.job <;> simp [job]

theorem State.AtRead.noReader (h : s.AtRead) (acc : Bool) : s.job ≠ .readU16 acc := by
  obtain job | job := h.job <;> simp [job]

/-- The READ_U16s of a DECODE never add up to more than `maxSum` (R113). -/
theorem maxSumAfter_le {n : Nat} (h : n ≤ 19) : maxSumAfter n ≤ maxSum := by
  have longest : maxSumAfter 19 = maxSum := by decide
  exact longest ▸ Nat.mul_le_mul_right (2 * maxByte) h

theorem maxSumAfter_succ (n : Nat) : maxSumAfter (n + 1) = maxSumAfter n + 2 * maxByte := Nat.succ_mul n _

/-- Where DECODE waits, SUM is what it was. -/
theorem State.Sums.waits (h : s.Sums) (waits : ReadWaits s t) : t.SumOk := by
  rw [waits.keeps]
  exact h.1

/-- One pass keeps the bound: SUM before it is bounded by the place of the pass, and the pass adds two bytes. -/
theorem advance_sums (v : Word) (h : s.Sums) (read : ReadDone (accumulates s.phase) s t) :
    (advance v t).Leads State.Sums State.SumOk := by
  have at_t := read.atRead h.atRead
  have hphase : t.phase = s.phase := by rw [read.keeps]
  have hidx : t.idx = s.idx := by rw [read.keeps]
  have hconf : configured t = configured s := by rw [read.keeps]; rfl
  have added := read.sum
  have nf_le := configured_nf_le s
  have goes_on {u : State} (more : advance v t = .more u) (job : u.job = t.job) (bound : u.sum.toNat ≤ maxSum)
      (place : (u.phase = .len ∧ u.sum.toNat ≤ maxSumAfter 1) ∨ (u.phase = .field ∧ u.idx.toNat < (configured u).nf ∧
        u.sum.toNat ≤ maxSumAfter (2 + u.idx.toNat)) ∨ u.phase = .csum) : u.Sums := by
    have at_u := advance_atRead at_t more
    exact ⟨⟨at_u.noReader, bound, fun _ => ⟨at_u.operates, .inr place⟩⟩, at_u.busy⟩
  obtain ⟨here, sum⟩ | ⟨here, sum⟩ | ⟨here, in_field, sum⟩ | here := (h.1.2.2 h.2).2
  · have bound : t.sum.toNat ≤ maxSumAfter 1 := by
      rw [sum] at added
      exact added
    rw [advance_of_hdr (hphase.trans here)] at goes_on ⊢
    split
    · next signature =>
      exact goes_on (if_pos signature) rfl (bound.trans (maxSumAfter_le (by decide))) (.inl ⟨rfl, bound⟩)
    · exact (decodeEnd_concludes _ t).sumOk (bound.trans (maxSumAfter_le (by decide)))
  · have bound : t.sum.toNat ≤ maxSumAfter 2 := by
      rw [maxSumAfter_succ]
      omega
    have le_max := bound.trans (maxSumAfter_le (by decide))
    rw [advance_of_len (hphase.trans here)] at goes_on ⊢
    split
    · next expected =>
      have some_fields : 0 < (configured t).nf := by have := Operates.nf at_t.operates; omega
      exact goes_on (if_pos expected) rfl le_max (.inr (.inl ⟨rfl, some_fields, bound⟩))
    · exact (decodeEnd_concludes _ _).sumOk le_max
  · have bound : t.sum.toNat ≤ maxSumAfter (2 + (t.idx.toNat + 1)) := by
      rw [hidx, ← Nat.add_assoc, maxSumAfter_succ]
      omega
    have le_max := bound.trans (maxSumAfter_le (by rw [hidx]; omega))
    rw [advance_of_field (hphase.trans here)] at goes_on ⊢
    split
    · next another =>
      have next_idx := idx_add_one (s := t) (by omega)
      refine goes_on (if_pos another) rfl le_max (.inr (.inl ⟨hphase.trans here, ?_, ?_⟩))
      · exact next_idx ▸ another
      · exact next_idx ▸ bound
    · next last => exact goes_on (if_neg last) rfl le_max (.inr (.inr rfl))
  · have same : t.sum = s.sum := read.sum_kept (by rw [here]; rfl)
    have bound : t.sum.toNat ≤ maxSum := same ▸ h.1.2.1
    rw [advance_of_csum (hphase.trans here)]
    refine (rxFlush_ends _).andThen (fun _ u flushed => ?_) (fun _ => False.elim)
      (fun _ aborted => aborted.concludes.sumOk (by exact bound))
    have kept : u.sum = t.sum := by rw [flushed.1.only]
    have bound : u.sum.toNat ≤ maxSum := kept ▸ bound
    unfold decodeCompare
    split <;> exact (decodeEnd_concludes _ _).sumOk bound

theorem State.Sums.resume (h : s.Sums) : (resume s).SumOk :=
  resume_induction (I := State.Sums) (fun s h => ⟨h.atRead, (readU16_ends _ s).mono (fun v _ => advance_sums v h)
    (fun _ => h.waits) (fun _ aborted => aborted.concludes.sumOk h.1.2.1)⟩) h

theorem State.SumOk.resume (h : s.SumOk) : (resume s).SumOk := by
  by_cases job : s.job = .none
  · rwa [resume_of_idle job]
  · exact State.Sums.resume ⟨h, job⟩

theorem State.SumOk.deliver (h : s.SumOk) (bs : List Byte) : (deliver bs s).SumOk := by
  have received : (receive bs s).SumOk := by simpa [State.SumOk, State.Operates, configured] using h
  exact received.resume

theorem decodeFrom_sumOk (job : s.job = .decode ∨ s.job = .poll) (bound : s.sum.toNat ≤ maxSum) : (decodeFrom s).SumOk := by
  obtain (ended | ended) | ⟨operates, started⟩ := decodeFrom_cases job
  · exact ended ▸ (decodeEnd_concludes _ s).sumOk bound
  · exact ended ▸ (decodeEnd_concludes _ s).sumOk bound
  · have at_start := decodeStart_atRead job operates
    rw [started]
    exact State.Sums.resume
      ⟨⟨at_start.noReader, Nat.zero_le _, fun _ => ⟨operates, .inl ⟨rfl, rfl⟩⟩⟩, at_start.busy⟩

/-- Every instruction that answers keeps the bound; READ_U16 on its own, which no step starts, is left out. -/
theorem exec_keeps_sumOk {i : Instr} (h : s.SumOk) (answer : exec i s = .next t) (noReader : ∀ acc, i ≠ .readU16 acc) :
    t.SumOk := by
  have bound := h.2.1
  have ran {run : State → State} (answer : command s run = .next t) (kept : (run s).SumOk) : t.SumOk :=
    (command_next answer).2 ▸ kept
  have ended {r : ResultCode} {u : State} (same : u.sum = s.sum) : (finish r u).SumOk :=
    (Concludes.finish r u).sumOk (same ▸ bound)
  cases i with
  | init =>
    refine ran answer ?_
    by_cases later : s.initDone = true
    · exact opInit_later later ▸ ended rfl
    · exact opInit_first (by simpa using later) ▸ ended rfl
  | config =>
    simp only [exec, execConfig] at answer
    exact ran answer (ended rfl)
  | frameReady => exact ran answer ((opFrameReady_concludes s).sumOk bound)
  | decode => exact ran answer (decodeFrom_sumOk (.inl rfl) bound)
  | project => exact ran answer ((project_concludes s).sumOk bound)
  | checkClear =>
    refine ran answer ?_
    unfold opCheckClear
    split <;> exact ended rfl
  | flush => exact ran answer ((opFlush_concludes s).sumOk bound)
  | poll =>
    refine ran answer ((frameReady_ends s).andThen (fun r u found => ?_) (fun _ => False.elim) (fun _ k => k.sumOk bound))
    have same : u.sum = s.sum := by rw [found.1.keeps]
    split
    · exact decodeFrom_sumOk (.inr rfl) (same ▸ bound)
    · exact ended same
  | reserved0 | reserved9 | reservedAB | reservedCF => exact ran answer (ended rfl)
  | catalog => cases answer; exact h
  | readU16 acc => exact absurd rfl (noReader acc)
  | frame32 | frame40 | frame24 => cases answer; exact h.deliver _

end bound

/-- Settles O16: by the event that the step takes; no command word starts READ_U16 on its own. -/
theorem stepKeepsSumBound : Obligations.StepKeepsSumBound := by
  intro s t h answer
  match hscript : s.script with
  | [] =>
    rw [step_of_nil hscript] at answer
    cases answer
    exact h.resume
  | .cmd w :: rest =>
    rw [step_of_cmd hscript] at answer
    refine exec_keeps_sumOk (s := { s with script := rest }) h answer fun acc reader => ?_
    exact onlyInternalOperationsHaveNoEncoding.2.1 (.cmd w) acc (congrArg Except.ok reader)
  | .recv bs :: rest =>
    rw [step_of_recv hscript] at answer
    cases answer
    exact State.SumOk.deliver (s := { s with script := rest }) h bs
  | .reset :: rest =>
    rw [step_of_reset hscript] at answer
    cases answer
    exact sumOk_of_idle (blockReset_idle _) (Nat.zero_le _)

/-- Settles O17: SUM is 0 after reset; the longest frame has 38 bytes before its checksum field. -/
theorem sumBoundAtReset : Obligations.SumBoundAtReset :=
  ⟨sumOk_of_idle ⟨rfl, rfl, rfl, rfl⟩ (Nat.zero_le _), rfl⟩

end Sys2Proof.Machine
end

section
/-!
PROOFS. The transport and the byte reader do not look at F, at RESULT or at which operation is in progress: an access from a
state that differs there does the same and ends in a state that differs there alike.
-/
namespace Sys2Proof.Machine

/-- The state with other field registers, another operation in progress and another RESULT. -/
def State.redress (f : Vector Word Config.maxFields → Vector Word Config.maxFields) (job : Job → Job)
    (result : ResultCode → ResultCode) (s : State) : State :=
  { s with f := f s.f, job := job s.job, result := result s.result }

/-- An access with its end states changed by `g`; a reset undoes what `g` did. -/
def Access.mapState {α : Type} (g : State → State) : Access α → Access α
  | .done a s => .done a (g s)
  | .hold s => .hold (g s)
  | .aborted s => .aborted s

theorem Access.mapState_bind {α β : Type} {g : State → State} (m : Access α) {k k' : α → State → Access β}
    (hk : ∀ a s, k' a (g s) = (k a s).mapState g) : (m.mapState g).bind k' = (m.bind k).mapState g := by
  cases m with
  | done a s => exact hk a s
  | hold s => rfl
  | aborted s => rfl

section redress
variable (f : Vector Word Config.maxFields → Vector Word Config.maxFields) (job : Job → Job)
  (result : ResultCode → ResultCode) (s : State)

theorem receive_redress (bs : List Byte) : receive bs (s.redress f job result) = (receive bs s).redress f job result := by
  have room : hasRoom bs (s.redress f job result) = hasRoom bs s := rfl
  unfold receive
  rw [room]
  split <;> rfl

theorem gap_redress : gap (s.redress f job result) = (gap s).mapState (·.redress f job result) := by
  have live : (s.redress f job result).live = s.live := rfl
  unfold gap
  rw [live]
  split
  · rfl
  · next bs rest _ => exact congrArg (Access.done ()) (receive_redress f job result { s with live := rest } bs)
  · rfl

theorem rxAvail_redress : rxAvail (s.redress f job result) = (rxAvail s).mapState (·.redress f job result) := by
  rw [rxAvail, gap_redress]
  exact Access.mapState_bind _ fun _ _ => rfl

theorem rxPeek_redress : rxPeek (s.redress f job result) = (rxPeek s).mapState (·.redress f job result) := by
  rw [rxPeek, gap_redress]
  refine Access.mapState_bind _ fun _ t => ?_
  have rx : (t.redress f job result).rx = t.rx := rfl
  rw [rx]
  split <;> rfl

theorem rxFlush_redress : rxFlush (s.redress f job result) = (rxFlush s).mapState (·.redress f job result) := by
  rw [rxFlush, gap_redress]
  exact Access.mapState_bind _ fun _ _ => rfl

theorem rxReadWait_redress (live : List Gap) :
    rxReadWait live (s.redress f job result) = (rxReadWait live s).mapState (·.redress f job result) := by
  induction live generalizing s with
  | nil =>
    have rx : (s.redress f job result).rx = s.rx := rfl
    unfold rxReadWait
    rw [rx]
    split <;> rfl
  | cons g live ih =>
    cases g with
    | reset => rfl
    | recv bs =>
      have received : receive bs { s.redress f job result with live := live } =
          (receive bs { s with live := live }).redress f job result := receive_redress f job result { s with live := live } bs
      have rx (t : State) : (t.redress f job result).rx = t.rx := rfl
      simp only [rxReadWait]
      rw [received, rx]
      split
      · rfl
      · exact ih _

theorem rxRead_redress : rxRead (s.redress f job result) = (rxRead s).mapState (·.redress f job result) :=
  rxReadWait_redress f job result s s.live

theorem readLow_redress (acc : Bool) (hi : Byte) :
    readLow acc hi (s.redress f job result) = (readLow acc hi s).mapState (·.redress f job result) := by
  rw [readLow, rxRead_redress]
  exact Access.mapState_bind _ fun _ _ => rfl

theorem readU16_redress (acc : Bool) : readU16 acc (s.redress f job result) =
    (readU16 acc s).mapState (·.redress f job result) := by
  have latch : (s.redress f job result).latch = s.latch := rfl
  unfold readU16
  rw [latch]
  split
  · exact readLow_redress f job result s acc _
  · rw [rxRead_redress]
    exact Access.mapState_bind _ fun hi t => readLow_redress f job result { t with latch := some hi } acc hi

theorem discard_redress (n : Nat) : discard n (s.redress f job result) = (discard n s).mapState (·.redress f job result) := by
  induction n generalizing s with
  | zero => rfl
  | succ n ih =>
    rw [discard, discard, rxAvail_redress]
    refine Access.mapState_bind _ fun k t => ?_
    split
    · rfl
    rw [rxPeek_redress]
    refine Access.mapState_bind _ fun b u => ?_
    split
    · rfl
    rw [rxRead_redress]
    exact Access.mapState_bind _ fun _ v => ih v

theorem sync_redress (size : Nat) : sync size (s.redress f job result) = (sync size s).mapState (·.redress f job result) := by
  rw [sync, sync, rxAvail_redress]
  refine Access.mapState_bind _ fun k t => ?_
  split
  · rfl
  have waiting : pending (t.redress f job result) = pending t := rfl
  rw [waiting, discard_redress]
  refine Access.mapState_bind _ fun _ u => ?_
  rw [rxAvail_redress]
  refine Access.mapState_bind _ fun k v => ?_
  have rx : (v.redress f job result).rx = v.rx := rfl
  rw [rx]
  split <;> rfl

theorem frameReady_redress : frameReady (s.redress f job result) = (frameReady s).mapState (·.redress f job result) := by
  have init : (s.redress f job result).init = s.init := rfl
  have entry : configured (s.redress f job result) = configured s := rfl
  unfold frameReady
  rw [init, entry]
  split
  · rfl
  split
  · rfl
  · exact sync_redress f job result { s with phase := .sync } _

end redress

end Sys2Proof.Machine
end

section
/-!
PROOFS. Field registers that hold no value never matter (10_state.md R13, R250): F is read only by PROJECT, which reads the
validated frame and no more, and a DECODE in progress has written what it will validate.
-/
namespace Sys2Proof.Machine

/-- `F` agrees with the field registers on the validated frame, which is long enough for every projection that has no test of
its own (R12). -/
def State.Agrees (s : State) (F : Vector Word Config.maxFields) : Prop :=
  s.fvalid = true → 9 ≤ s.fcount.toNat ∧ ∀ j : Fin Config.maxFields, j.val < s.fcount.toNat → F.get j = s.f.get j

section projection
variable {s t : State} {F : Vector Word Config.maxFields}

theorem State.Agrees.of_invalid (h : s.fvalid = false) : s.Agrees F := fun valid => by simp [h] at valid

/-- The slots are taken from the validated frame (R160). -/
theorem projected_of_agrees (h : s.Agrees F) : projected { s with f := F } = projected s := by
  by_cases refused : (configured s).size = 0 ∨ s.fvalid = false
  · simp only [projected]
    rw [if_pos refused]
    exact if_pos refused
  have valid : s.fvalid = true := by simpa using fun h => refused (.inr h)
  obtain ⟨nine, agree⟩ := h valid
  have same (i : Fin Config.maxFields) (hi : i.val < s.fcount.toNat) : field { s with f := F } i = field s i := agree i hi
  have entry : configured { s with f := F } = configured s := rfl
  have maxIdx : maxCountIdx = 11 := rfl
  have envCount : Config.envFieldCount = 15 := rfl
  unfold projected
  simp only [entry, if_neg refused]
  split
  · have low (i : Fin Config.maxFields) (hi : i.val < 9) := same i (by omega)
    rw [low Config.idxPm1 (by decide), low Config.idxPm25 (by decide), low Config.idxPm10 (by decide)]
  · split
    · rfl
    · next permitted =>
      rw [not_or] at permitted
      have low (i : Fin Config.maxFields) (hi : i.val < 15) := same i (by omega)
      rw [low Config.idxPm25 (by decide), low Config.idxTemp (by decide), low Config.idxHum (by decide),
        low Config.idxHcho (by decide)]
  · split
    · rfl
    · next permitted =>
      rw [not_or] at permitted
      have slot (k : Fin Config.nSlots) (hk : (Config.countIdx.get k).val ≤ 11) :
          countField { s with f := F } k = countField s k := same _ (by omega)
      rw [slot 0 (by decide), slot 1 (by decide), slot 2 (by decide), slot 3 (by decide)]
  · rfl

theorem validFrame_of_agrees (agree : ∀ j : Fin Config.maxFields, j.val < s.fcount.toNat → F.get j = s.f.get j) :
    validFrame { s with f := F } = validFrame s := by
  refine List.ext_getElem (by simp [validFrame]) fun i hi _ => ?_
  simp only [validFrame, List.length_take, Vector.length_toList, lt_min_iff] at hi
  simp only [validFrame, List.getElem_take, Vector.getElem_toList]
  exact agree ⟨i, hi.2⟩ hi.1

/-- The notifications are raised for fields of the validated frame, from their values (R170, R171). -/
theorem eventSet_of_agrees (h : s.Agrees F) : eventSet { s with f := F } = eventSet s := by
  by_cases off : s.cfgEvEn = false ∨ eventModeOf s.cfgEvMode = .off ∨ s.fvalid = false
  · rw [eventSet, if_pos (by exact off), eventSet, if_pos off]
  have valid : s.fvalid = true := by simpa using fun h => off (.inr (.inr h))
  obtain ⟨-, agree⟩ := h valid
  rw [eventSet, if_neg (by exact off), eventSet, if_neg off, validFrame_of_agrees agree]
  refine List.map_congr_left fun i hi => ?_
  have allowed : eventAllowed s i.val = true := (List.mem_filter.1 (List.mem_filter.1 hi).1).2
  have present : i.val < s.fcount.toNat := by
    simp only [eventAllowed, Bool.and_eq_true, decide_eq_true_eq] at allowed
    exact allowed.1.1
  have same : field { s with f := F } i = field s i := agree i present
  rw [same]

end projection

section ends
variable {s t : State} {F : Vector Word Config.maxFields}

theorem State.SameButHidden.refl (s : State) : s.SameButHidden s := ⟨rfl, fun _ _ => rfl⟩

theorem State.Agrees.finish (h : s.Agrees F) (r : ResultCode) : (finish r s).SameButHidden (finish r { s with f := F }) := by
  refine ⟨rfl, fun j exposed => ?_⟩
  obtain ⟨valid, hj⟩ | ⟨busy, -⟩ := exposed
  · exact (h valid).2 j hj
  · exact absurd rfl busy

theorem State.Agrees.project (h : s.Agrees F) : (project s).SameButHidden (project { s with f := F }) := by
  by_cases hinit : s.init = true
  · have slots := projected_of_agrees h
    cases hslots : projected s with
    | none =>
      rw [project_of_none hinit hslots, project_of_none (by exact hinit) (slots.trans hslots)]
      exact h.finish _
    | some out =>
      rw [project_of_some hinit hslots, project_of_some (by exact hinit) (slots.trans hslots), eventSet_of_agrees h]
      exact State.Agrees.finish (s := { s with out := out, events := s.events ++ eventSet s }) h _
  · rw [Machine.project, Machine.project, if_pos (by simpa using hinit), if_pos (by simpa using hinit)]
    exact h.finish _

/-- Two operations whose accesses differ in F only, and whose continuations end alike. -/
theorem Access.Ends.andThen_sameButHidden {α : Type} {m m' : Access α} {k k' : α → State → State}
    {D : α → State → Prop} {H A : State → Prop} (ends : m.Ends D H A) (same : m' = m.mapState (·.redress (fun _ => F) id id))
    (done : ∀ a t, D a t → (k a t).SameButHidden (k' a { t with f := F }))
    (hold : ∀ t, H t → t.SameButHidden { t with f := F }) : (m.andThen k).SameButHidden (m'.andThen k') := by
  subst same
  cases m with
  | done a t => exact done a t ends
  | hold t => exact hold t ends
  | aborted t => exact .refl t

/-- What an access keeps of the validated frame. -/
theorem State.Agrees.of_eq (h : s.Agrees F) (f : t.f = s.f) (fvalid : t.fvalid = s.fvalid) (fcount : t.fcount = s.fcount) :
    t.Agrees F := by
  rw [State.Agrees, f, fvalid, fcount]
  exact h

theorem State.Agrees.flush_finish (h : s.Agrees F) (r : ResultCode) :
    ((rxFlush { s with phase := .flushing }).andThen fun _ s => Machine.finish r s).SameButHidden
      ((rxFlush { { s with f := F } with phase := .flushing }).andThen fun _ s => Machine.finish r s) := by
  refine (rxFlush_ends _).andThen_sameButHidden (rxFlush_redress (fun _ => F) id id { s with phase := .flushing })
    (fun _ t flushed => ?_) (fun _ => False.elim)
  exact State.Agrees.finish (h.of_eq (by rw [flushed.1.only]) (by rw [flushed.1.only]) (by rw [flushed.1.only])) r

theorem State.Agrees.decodeEnd (h : s.Agrees F) (r : ResultCode) :
    (decodeEnd r s).SameButHidden (decodeEnd r { s with f := F }) := by
  by_cases poll : s.job = .poll
  · rw [decodeEnd_of_poll poll, decodeEnd_of_poll (by exact poll)]
    cases r with
    | ok => exact h.project
    | invalidLength => exact h.flush_finish .invalidLength
    | _ => exact h.finish _
  · rw [decodeEnd_of_not_poll poll, decodeEnd_of_not_poll (by exact poll)]
    exact h.finish r

end ends

section passes
variable {s t : State} {F : Vector Word Config.maxFields} {v : Word}

/-- Two DECODEs in step: nothing is validated, and `F` agrees on the fields read so far. -/
structure State.DecodesAlike (s s' : State) : Prop where
  at_read : s.AtRead
  invalid : s.fvalid = false
  same : s.SameButHidden s'

theorem State.AtRead.redress (h : s.AtRead) : State.AtRead { s with f := F } := h.of_eq rfl rfl rfl rfl rfl

/-- A field read later, or one that is stored now, agrees (R139). -/
theorem stored_alike (agree : ∀ j : Fin Config.maxFields, j.val < s.idx.toNat → F.get j = s.f.get j)
    (j : Fin Config.maxFields) (hj : j.val < s.idx.toNat + 1) :
    (F.setIfInBounds s.idx.toNat v).get j = (s.f.setIfInBounds s.idx.toNat v).get j := by
  have stored (f : Vector Word Config.maxFields) :
      (f.setIfInBounds s.idx.toNat v).get j = if s.idx.toNat = j.val then v else f.get j := by
    simp only [Vector.get_eq_getElem, Vector.getElem_setIfInBounds]
  rw [stored, stored]
  split
  · rfl
  · exact agree j (by omega)

/-- The two sums are compared without F, and what is validated is what has been read (R141, R142). -/
theorem decodeCompare_alike (operates : s.Operates) (invalid : s.fvalid = false)
    (agree : ∀ j : Fin Config.maxFields, j.val < (configured s).nf → F.get j = s.f.get j) :
    (decodeCompare s).SameButHidden (decodeCompare { s with f := F }) := by
  unfold decodeCompare
  split
  · refine State.Agrees.decodeEnd (fun _ => ?_) _
    have nf := Operates.nf operates
    have count := configured_nf_toNat s
    exact ⟨by simp only [count]; omega, fun j hj => agree j (by simpa only [count] using hj)⟩
  · exact State.Agrees.decodeEnd (.of_invalid invalid) _

/-- Before its first field a DECODE in progress exposes no field register. -/
theorem not_exposed {j : Nat} (exposed : s.Exposed j) (invalid : s.fvalid = false) (field : s.phase = .field → s.idx = 0)
    (csum : s.phase ≠ .csum) : False := by
  obtain ⟨valid, -⟩ | ⟨-, ⟨hphase, hj⟩ | ⟨hphase, -⟩⟩ := exposed
  · simp [invalid] at valid
  · simp [field hphase] at hj
  · exact csum hphase

theorem advance_alike (at_read : t.AtRead) (invalid : t.fvalid = false)
    (agree : ∀ j : Fin Config.maxFields, t.Exposed j → F.get j = t.f.get j) :
    Pass.LeadBoth State.DecodesAlike State.SameButHidden (advance v t) (advance v { t with f := F }) := by
  have goes_on {u u' : State} (more : advance v t = .more u) (invalid : u.fvalid = false)
      (same : u.SameButHidden u') : u.DecodesAlike u' := ⟨advance_atRead at_read more, invalid, same⟩
  have failed : t.Agrees F := .of_invalid invalid
  obtain hphase | hphase | ⟨hphase, hidx⟩ | hphase := at_read.phase
  · rw [advance_of_hdr hphase] at goes_on ⊢
    rw [advance_of_hdr (by exact hphase)]
    split
    · next signature =>
      exact goes_on (if_pos signature) invalid ⟨rfl, fun j exposed => (not_exposed exposed invalid nofun nofun).elim⟩
    · exact failed.decodeEnd _
  · rw [advance_of_len hphase] at goes_on ⊢
    rw [advance_of_len (by exact hphase)]
    have expected : expectedLength { t with f := F } = expectedLength t := rfl
    rw [expected]
    split
    · next expected =>
      exact goes_on (if_pos expected) invalid
        ⟨rfl, fun j exposed => (not_exposed exposed invalid (fun _ => rfl) nofun).elim⟩
    · exact State.Agrees.decodeEnd (s := { t with diagLen := v }) failed _
  · have read (j : Fin Config.maxFields) (hj : j.val < t.idx.toNat) : F.get j = t.f.get j :=
      agree j (.inr ⟨at_read.busy, .inl ⟨hphase, hj⟩⟩)
    rw [advance_of_field hphase] at goes_on ⊢
    rw [advance_of_field (by exact hphase)]
    have entry : configured { t with f := F } = configured t := rfl
    rw [entry]
    split
    · next another =>
      refine goes_on (if_pos another) invalid ⟨rfl, fun j exposed => stored_alike read j ?_⟩
      obtain ⟨valid, -⟩ | ⟨-, ⟨-, hj⟩ | ⟨csum, -⟩⟩ := exposed
      · simp [invalid] at valid
      · exact idx_add_one hidx ▸ hj
      · simp [hphase] at csum
    · next last =>
      refine goes_on (if_neg last) invalid ⟨rfl, fun j exposed => stored_alike read j ?_⟩
      obtain ⟨valid, -⟩ | ⟨-, ⟨field, -⟩ | ⟨-, hj⟩⟩ := exposed
      · simp [invalid] at valid
      · cases field
      · have hj : j.val < (configured t).nf := hj
        omega
  · rw [advance_of_csum hphase, advance_of_csum (by exact hphase)]
    refine (rxFlush_ends _).andThen_sameButHidden
      (rxFlush_redress (fun _ => F) id id { t with sumRx := v, phase := .flushing }) (fun _ u flushed => ?_)
      (fun _ => False.elim)
    have keeps := flushed.1.only
    have entry : configured u = configured t := by rw [keeps]; rfl
    have kept : u.f = t.f := by rw [keeps]
    refine decodeCompare_alike (s := { u with phase := .cmp }) ?_ ?_ fun j hj => ?_
    · rw [keeps]
      exact at_read.operates
    · rw [keeps]
      exact invalid
    · have hj : j.val < (configured u).nf := hj
      exact (agree j (.inr ⟨at_read.busy, .inr ⟨hphase, entry ▸ hj⟩⟩)).trans (by rw [← kept])

/-- An operation in progress goes on alike (R13). -/
theorem State.DecodesAlike.resume {s' : State} (h : s.DecodesAlike s') : (resume s).SameButHidden (resume s') := by
  refine resume_lockstep (fun s s' h => ?_) h
  obtain ⟨at_read, invalid, keeps, agree⟩ := h
  obtain ⟨F, rfl⟩ : ∃ F, s' = { s with f := F } := ⟨_, keeps⟩
  have at_read' : State.AtRead { s with f := F } := at_read.redress
  refine ⟨at_read, at_read', ?_⟩
  rw [resume_of_atRead at_read, resume_of_atRead at_read']
  have read := readU16_ends (accumulates s.phase) s
  have alike : readU16 (accumulates s.phase) { s with f := F } = _ := readU16_redress (fun _ => F) id id s (accumulates s.phase)
  rw [alike]
  cases hread : readU16 (accumulates s.phase) s with
  | done v t =>
    rw [hread] at read
    refine .inr ⟨v, t, v, { t with f := F }, rfl, rfl, advance_alike (read.atRead at_read) ?_ fun j exposed => ?_⟩
    · rw [read.keeps]
      exact invalid
    · rw [read.keeps] at exposed ⊢
      exact agree j exposed
  | hold t =>
    rw [hread] at read
    refine .inl ⟨rfl, fun j exposed => ?_⟩
    have keeps := read.keeps
    simp only [Access.hold_andThen] at exposed ⊢
    rw [keeps] at exposed ⊢
    exact agree j exposed
  | aborted t => exact .inl (.refl t)

end passes

section instructions
variable {s t : State} {F : Vector Word Config.maxFields}

theorem State.SameButHidden.agrees (h : s.SameButHidden t) (frame : s.FrameOk) : s.Agrees t.f := by
  refine fun valid => ⟨?_, fun j hj => h.2 j (.inl ⟨valid, hj⟩)⟩
  have counts : ∀ n ∈ [Config.nfBase, Config.nfCountExt, Config.nfEnvExt, Config.nfReduced], 9 ≤ n := by decide
  exact counts _ (frame valid).2

theorem State.Agrees.decodeFrom (h : s.Agrees F) (job : s.job = .decode ∨ s.job = .poll) :
    (decodeFrom s).SameButHidden (decodeFrom { s with f := F }) := by
  by_cases hinit : s.init = true
  · by_cases hsize : (configured s).size = 0
    · rw [decodeFrom_of_unsupported hinit hsize, decodeFrom_of_unsupported (by exact hinit) (by exact hsize)]
      exact h.decodeEnd _
    · have operates : s.Operates := ⟨hinit, hsize⟩
      rw [decodeFrom_eq_resume job operates, decodeFrom_eq_resume (by exact job) (by exact operates)]
      exact State.DecodesAlike.resume ⟨decodeStart_atRead job operates, rfl, rfl,
        fun j exposed => (not_exposed exposed rfl nofun nofun).elim⟩
  · have not_init : s.init = false := by simpa using hinit
    rw [decodeFrom_of_not_init not_init, decodeFrom_of_not_init (by exact not_init)]
    exact h.decodeEnd _

/-- READ_U16 on its own touches no field register (R110). -/
theorem byteReader_alike (acc : Bool) (agree : ∀ j : Fin Config.maxFields, s.Exposed j → F.get j = s.f.get j) :
    (byteReader acc s).SameButHidden (byteReader acc { s with f := F }) := by
  refine (readU16_ends acc s).andThen_sameButHidden (readU16_redress (fun _ => F) id id s acc) (fun v t read => ?_)
    (fun t waits => ?_)
  · have keeps := read.keeps
    refine ⟨rfl, fun j exposed => ?_⟩
    obtain ⟨valid, hj⟩ | ⟨busy, -⟩ := exposed
    · simp only at valid hj ⊢
      rw [keeps] at valid hj ⊢
      exact agree j (.inl ⟨valid, hj⟩)
    · exact absurd rfl busy
  · have keeps := waits.keeps
    refine ⟨rfl, fun j exposed => ?_⟩
    simp only
    rw [keeps] at exposed ⊢
    exact agree j exposed

theorem State.SameButHidden.resume (h : s.SameButHidden t) (place : s.SequencerOk) :
    (resume s).SameButHidden (resume t) := by
  have job' : t.job = s.job := by rw [h.1]
  cases job : s.job with
  | none =>
    rw [resume_of_idle job, resume_of_idle (job'.trans job)]
    exact h
  | readU16 acc =>
    have reads {u : State} (job : u.job = .readU16 acc) : Machine.resume u = byteReader acc u := by rw [Machine.resume, job]
    rw [reads job, reads (job'.trans job), h.1]
    exact byteReader_alike acc h.2
  | decode | poll =>
    rw [State.SequencerOk, job] at place
    obtain ⟨operates, invalid, place⟩ := place
    refine State.DecodesAlike.resume ⟨⟨by simp [job], operates, ?_⟩, invalid, h⟩
    obtain ⟨hphase | hphase | hphase, -⟩ | field := place
    · exact .inl hphase
    · exact .inr (.inl hphase)
    · exact .inr (.inr (.inr hphase))
    · exact .inr (.inr (.inl field))

theorem State.SameButHidden.deliver (h : s.SameButHidden t) (place : s.SequencerOk) (bs : List Byte) :
    (deliver bs s).SameButHidden (deliver bs t) := by
  obtain ⟨F, rfl⟩ : ∃ F, t = { s with f := F } := ⟨_, h.1⟩
  refine State.SameButHidden.resume ⟨?_, fun j exposed => ?_⟩
    (by simpa [State.SequencerOk, State.Operates, configured] using place)
  · have received : receive bs { s with f := F } = { receive bs s with f := F } := receive_redress (fun _ => F) id id s bs
    rw [received]
  · rw [receive_f, receive_f]
    exact h.2 j (by simpa [State.Exposed, configured] using exposed)

/-- The same outcome, with next states that differ at most in hidden field registers. -/
def Alike (o o' : Outcome) : Prop :=
  match o with
  | .next s => ∃ t, o' = .next t ∧ s.SameButHidden t
  | .fault r => o' = .fault r
  | .refused r => o' = .refused r

theorem command_alike {run : State → State} (ran : s.job = .none → (run s).SameButHidden (run { s with f := F })) :
    Alike (command s run) (command { s with f := F } run) := by
  by_cases job : s.job = .none
  · rw [command_of_idle job, command_of_idle (by exact job)]
    exact ⟨_, rfl, ran job⟩
  · rw [command, if_neg job, command, if_neg (by exact job)]
    rfl

/-- Every instruction runs alike (R250). -/
theorem exec_alike (i : Instr) (place : s.SequencerOk) (frame : s.FrameOk) (h : s.SameButHidden t) :
    Alike (exec i s) (exec i t) := by
  obtain ⟨F, rfl⟩ : ∃ F, t = { s with f := F } := ⟨_, h.1⟩
  have agrees : s.Agrees F := h.agrees frame
  cases i with
  | init =>
    refine command_alike fun _ => ?_
    by_cases later : s.initDone = true
    · rw [opInit_later later, opInit_later (by exact later)]
      exact agrees.finish _
    · have first : s.initDone = false := by simpa using later
      rw [opInit_first first, opInit_first (by exact first)]
      exact State.Agrees.finish (s := { s with initDone := true, init := s.transportPresent }) agrees _
  | config variant proj evmode even =>
    simp only [exec, execConfig]
    exact command_alike fun _ => State.Agrees.finish
      (s := { s with cfgVariant := variant, cfgProj := proj, cfgEvMode := evmode, cfgEvEn := even }) agrees _
  | frameReady =>
    refine command_alike fun _ => (frameReady_ends s).andThen_sameButHidden (frameReady_redress (fun _ => F) id id s)
      (fun r t found => ?_) (fun _ => False.elim)
    have keeps := found.1.keeps
    have agrees' : t.Agrees F := agrees.of_eq (by rw [keeps]) (by rw [keeps]) (by rw [keeps])
    exact State.Agrees.finish (s := { t with ret := some (.ready (decide (r = .ok))) }) agrees' r
  | decode => exact command_alike fun _ => State.Agrees.decodeFrom (s := { s with job := .decode }) agrees (.inl rfl)
  | project => exact command_alike fun _ => agrees.project
  | checkClear =>
    refine command_alike fun _ => ?_
    by_cases hinit : s.init = true
    · rw [opCheckClear_of_init hinit, opCheckClear_of_init (by exact hinit)]
      exact State.Agrees.finish (s := { s with ret := some (.received s.valRcv), valRcv := false }) agrees _
    · have not_init : s.init = false := by simpa using hinit
      rw [opCheckClear_of_not_init not_init, opCheckClear_of_not_init (by exact not_init)]
      exact State.Agrees.finish (s := { s with ret := some (.received false) }) agrees _
  | flush =>
    refine command_alike fun _ => ?_
    by_cases hinit : s.init = false
    · rw [opFlush, opFlush, if_pos hinit, if_pos (by exact hinit)]
      exact agrees.finish _
    · rw [opFlush, opFlush, if_neg hinit, if_neg (by exact hinit)]
      exact agrees.flush_finish _
  | poll =>
    refine command_alike fun _ => (frameReady_ends s).andThen_sameButHidden (frameReady_redress (fun _ => F) id id s)
      (fun r t found => ?_) (fun _ => False.elim)
    have keeps := found.1.keeps
    have agrees' : t.Agrees F := agrees.of_eq (by rw [keeps]) (by rw [keeps]) (by rw [keeps])
    split
    · exact State.Agrees.decodeFrom (s := { t with job := .poll }) agrees' (.inr rfl)
    · exact agrees'.finish r
  | reserved0 | reserved9 | reservedAB | reservedCF => exact command_alike fun _ => agrees.finish _
  | catalog v => exact ⟨_, rfl, rfl, h.2⟩
  | readU16 acc =>
    simp only [exec, execReadU16]
    refine command_alike fun job => ?_
    rw [State.SequencerOk, job] at place
    refine byteReader_alike (s := { s with job := .readU16 acc, latch := none }) acc fun j exposed => ?_
    obtain valid | ⟨-, ⟨hphase, -⟩ | ⟨hphase, -⟩⟩ := exposed
    · exact h.2 j (.inl valid)
    · cases place.1.symm.trans hphase
    · cases place.1.symm.trans hphase
  | frame32 | frame40 | frame24 => exact ⟨_, rfl, h.deliver place _⟩

end instructions

/-- Settles O18: by the event that the step takes, which is the same in both states. -/
theorem hiddenFieldsNeverMatter : Obligations.HiddenFieldsNeverMatter := by
  intro s t ⟨place, frame, _⟩ h
  have script : t.script = s.script := by rw [h.1]
  have taken (rest : List Input) : State.SameButHidden { s with script := rest } { t with script := rest } :=
    ⟨by rw [h.1], h.2⟩
  change Alike (step s) (step t)
  match hscript : s.script with
  | [] =>
    rw [step_of_nil hscript, step_of_nil (script.trans hscript)]
    exact ⟨_, rfl, h.resume place⟩
  | .cmd w :: rest =>
    rw [step_of_cmd hscript, step_of_cmd (script.trans hscript)]
    exact exec_alike _ (by exact place) (by exact frame) (taken rest)
  | .recv bs :: rest =>
    rw [step_of_recv hscript, step_of_recv (script.trans hscript)]
    exact ⟨_, rfl, (taken rest).deliver (by exact place) bs⟩
  | .reset :: rest =>
    rw [step_of_reset hscript, step_of_reset (script.trans hscript), h.1]
    exact ⟨_, rfl, .refl _⟩

end Sys2Proof.Machine
end

section
/-!
PROOFS. The accounts of an unbounded RX (20_memory.md R46, R48): what an access takes off the head of the stream, and the
gaps it passes on the way. A reset in a gap leaves the account of what came before it (70_reset_and_hazards.md R231).
-/
namespace Sys2Proof.Machine

/-- From `s` to `t` the gaps `before` were passed, none of them a reset, and the run `gone` was taken off the head of the
stream, a byte a gap as long as there are gaps. -/
def Passes (s t : State) : Prop :=
  ∃ before gone, Gap.reset ∉ before ∧ s.live = before ++ t.live ∧
    s.rx ++ before.flatMap gapBytes = gone ++ t.rx ∧ (gone.length ≤ before.length ∨ t.live = [])

/-- An access took its bytes off an unbounded RX and did nothing else. -/
structure Takes (s t : State) : Prop where
  keeps : t = { s with rx := t.rx, live := t.live }
  passes : Passes s t

/-- A reset that an access met after it had taken what it had: the first reset there was. -/
def MetReset (s t : State) : Prop :=
  ∃ u later, Takes s u ∧ u.live = .reset :: later ∧ t = blockReset { u with live := later }

section relations
variable {s t u : State}

theorem Passes.refl (s : State) : Passes s s := ⟨[], [], by simp⟩

theorem Passes.trans (h : Passes s t) (k : Passes t u) : Passes s u := by
  obtain ⟨before, gone, hb, hlive, hrx, hle⟩ := h
  obtain ⟨before', gone', hb', hlive', hrx', hle'⟩ := k
  refine ⟨before ++ before', gone ++ gone', by simp [hb, hb'], by rw [hlive, hlive', List.append_assoc], ?_, ?_⟩
  · rw [List.flatMap_append, ← List.append_assoc, hrx, List.append_assoc, hrx', List.append_assoc]
  · obtain hle' | passed := hle'
    · obtain hle | passed := hle
      · exact .inl (by simp only [List.length_append]; omega)
      · rw [passed] at hlive'
        exact .inr (List.append_eq_nil_iff.1 hlive'.symm).2
    · exact .inr passed

theorem Takes.refl (s : State) : Takes s s := ⟨rfl, .refl s⟩

theorem Takes.trans (h : Takes s t) (k : Takes t u) : Takes s u := ⟨by rw [k.keeps, h.keeps], h.passes.trans k.passes⟩

theorem Takes.unbounded (h : Takes s t) (unbounded : s.Unbounded) : t.Unbounded := by
  rw [h.keeps]
  exact unbounded

theorem MetReset.after (h : Takes s t) (k : MetReset t u) : MetReset s u := by
  obtain ⟨v, later, takes, live, ended⟩ := k
  exact ⟨v, later, h.trans takes, live, ended⟩

theorem Passes.noReset (h : Passes s t) (noReset : s.NoReset) : t.NoReset := by
  obtain ⟨before, _, _, hlive, _⟩ := h
  rw [State.NoReset, hlive, List.mem_append, not_or] at noReset
  exact noReset.2

theorem MetReset.resets (h : MetReset s t) : ¬ s.NoReset := by
  obtain ⟨u, later, takes, live, -⟩ := h
  exact fun noReset => takes.passes.noReset noReset (by simp [live])

theorem takes_head {b : Byte} {rest : List Byte} (hrx : s.rx = b :: rest) (quiet : s.live = []) :
    Takes s { s with rx := rest } := ⟨rfl, [], [b], by simp, by simp, by simp [hrx], .inr quiet⟩

/-- In a gap bytes arrive and are appended. -/
theorem takes_gap {bs : List Byte} {rest : List Gap} (unbounded : s.Unbounded) (h : s.live = .recv bs :: rest) :
    receive bs { s with live := rest } = { s with live := rest, rx := s.rx ++ bs } ∧
      Takes s { s with live := rest, rx := s.rx ++ bs } :=
  ⟨receive_of_unbounded bs { s with live := rest } unbounded, rfl, [.recv bs], [], by simp, by simp [h],
    by simp [gapBytes], .inl (by simp)⟩

end relations

section accesses
variable {s : State}

/-- The gap before an access takes nothing. -/
theorem gap_takes (unbounded : s.Unbounded) :
    (gap s).Ends (fun _ t => Takes s t ∧ ∃ bs, t.rx = s.rx ++ bs) (fun _ => False) (MetReset s) := by
  unfold gap
  split
  · exact ⟨.refl s, [], by simp⟩
  · next bs rest h =>
    obtain ⟨received, takes⟩ := takes_gap unbounded h
    rw [received]
    exact ⟨takes, bs, rfl⟩
  · next rest h => exact ⟨s, rest, .refl s, h, rfl⟩

theorem rxAvail_takes (unbounded : s.Unbounded) :
    (rxAvail s).Ends (fun k t => k = t.rx.length ∧ Takes s t) (fun _ => False) (MetReset s) :=
  (gap_takes unbounded).bind (fun _ _ h => ⟨rfl, h.1⟩) (fun _ => id) (fun _ => id)

/-- A peek of a non-empty RX takes nothing (R42). -/
theorem rxPeek_takes (unbounded : s.Unbounded) (hrx : s.rx ≠ []) :
    (rxPeek s).Ends (fun _ => Takes s) (fun _ => False) (MetReset s) := by
  refine (gap_takes unbounded).bind (fun _ t h => ?_) (fun _ => id) (fun _ => id)
  obtain ⟨takes, bs, appended⟩ := h
  split
  · exact takes
  · next empty => exact absurd (List.append_eq_nil_iff.1 (appended.symm.trans empty)).1 hrx

theorem rxFlush_takes (unbounded : s.Unbounded) :
    (rxFlush s).Ends (fun _ t => ∃ u, Takes s u ∧ t = { u with rx := [] }) (fun _ => False) (MetReset s) :=
  (gap_takes unbounded).bind (fun _ t h => ⟨t, h.1, rfl⟩) (fun _ => id) (fun _ => id)

/-- A read takes one byte, after a gap of its own if there is one; it waits only when all gaps are passed (R43, R44). -/
theorem rxReadWait_takes (live : List Gap) (unbounded : s.Unbounded) (h : s.live = live) :
    (rxReadWait live s).Ends (fun _ => Takes s) (fun t => Takes s t ∧ t.rx = [] ∧ t.live = []) (MetReset s) := by
  induction live generalizing s with
  | nil =>
    unfold rxReadWait
    split
    · next b rest hrx => exact takes_head hrx h
    · next hrx => exact ⟨.refl s, hrx, h⟩
  | cons g live ih =>
    cases g with
    | reset => exact ⟨s, live, .refl s, h, rfl⟩
    | recv bs =>
      obtain ⟨received, takes⟩ := takes_gap unbounded h
      simp only [rxReadWait]
      rw [received]
      simp only
      split
      · next b rest hrx =>
        exact ⟨rfl, [.recv bs], [b], by simp, by simp [h], by simpa [gapBytes] using hrx, .inl (by simp)⟩
      · exact (ih (s := { s with live := live, rx := s.rx ++ bs }) unbounded rfl).mono (fun _ _ h => takes.trans h)
          (fun _ h => ⟨takes.trans h.1, h.2⟩) (fun _ h => h.after takes)

theorem rxRead_takes (unbounded : s.Unbounded) :
    (rxRead s).Ends (fun _ => Takes s) (fun t => Takes s t ∧ t.rx = [] ∧ t.live = []) (MetReset s) :=
  rxReadWait_takes s.live unbounded rfl

theorem discard_takes (n : Nat) (unbounded : s.Unbounded) :
    (discard n s).Ends (fun _ => Takes s) (fun t => Takes s t ∧ t.rx = [] ∧ t.live = []) (MetReset s) := by
  induction n generalizing s with
  | zero => exact Takes.refl s
  | succ n ih =>
    refine (rxAvail_takes unbounded).bind ?_ (fun _ => False.elim) (fun _ => id)
    rintro k t ⟨rfl, counted⟩
    split
    · exact counted
    next some =>
    refine (rxPeek_takes (counted.unbounded unbounded) (fun h => some (by simp [h]))).bind ?_ (fun _ => False.elim)
      (fun _ => .after counted)
    intro b u peeked
    have takes := counted.trans peeked
    split
    · exact takes
    refine (rxRead_takes (takes.unbounded unbounded)).bind ?_ (fun _ h => ⟨takes.trans h.1, h.2⟩) (fun _ => .after takes)
    intro _ v read
    have takes := takes.trans read
    exact (ih (takes.unbounded unbounded)).mono (fun _ _ => takes.trans) (fun _ h => ⟨takes.trans h.1, h.2⟩)
      (fun _ => .after takes)

theorem sync_takes (size : Nat) (unbounded : s.Unbounded) :
    (sync size s).Ends (fun _ => Takes s) (fun t => Takes s t ∧ t.rx = [] ∧ t.live = []) (MetReset s) := by
  refine (rxAvail_takes unbounded).bind ?_ (fun _ => False.elim) (fun _ => id)
  rintro k t ⟨-, counted⟩
  split
  · exact counted
  refine (discard_takes _ (counted.unbounded unbounded)).bind ?_ (fun _ h => ⟨counted.trans h.1, h.2⟩) (fun _ => .after counted)
  intro _ u discarded
  have takes := counted.trans discarded
  refine (rxAvail_takes (takes.unbounded unbounded)).bind ?_ (fun _ => False.elim) (fun _ => .after takes)
  rintro k v ⟨-, counted⟩
  split <;> exact takes.trans counted

end accesses

end Sys2Proof.Machine
end

section
/-!
PROOFS. FRAME_READY while bytes arrive (42_frame_synchronizer.md R122 to R130), and operations under a configuration they
refuse (40_variant_catalog.md R103, 60_exceptions.md R202).
-/
namespace Sys2Proof.Machine

section scan
variable {s : State}

/-- On a block that operates FRAME_READY scans with PHASE = SYNC (R120). -/
theorem frameReady_of_operates (operates : s.Operates) : frameReady s = sync (configured s).size { s with phase := .sync } := by
  rw [frameReady, if_neg (by simp [operates.1]), if_neg operates.2]

/-- With no reset to come, the scan of FRAME_READY answers (R125). -/
theorem exec_frameReady_of_noReset (idle : s.Idle) (operates : s.Operates) (noReset : s.NoReset) :
    ∃ r u, frameReady s = .done r u ∧ exec .frameReady s = .next (finish r { u with ret := some (.ready (decide (r = .ok))) }) ∧
      Drift { s with phase := .sync } u ∧ Scanned { s with phase := .sync } u ∧
      (r = .ok ∧ (configured s).size ≤ u.rx.length ∧ u.rx.head? = some Config.sig1 ∨ r = .notReady) ∧
      (s.Unbounded → Takes { s with phase := .sync } u) := by
  have scan := frameReady_of_operates operates
  have ends := sync_ends (configured s).size { s with phase := .sync }
  have takes := fun unbounded => sync_takes (s := { s with phase := .sync }) (configured s).size unbounded
  rw [← scan] at ends takes
  cases answer : frameReady s with
  | done r u =>
    rw [answer] at ends takes
    obtain ⟨drift, scanned, ready⟩ := ends
    refine ⟨r, u, rfl, ?_, drift, scanned, ready, takes⟩
    rw [exec, execFrameReady, command_of_idle idle.1, opFrameReady, answer, Access.done_andThen]
  | hold u =>
    rw [answer] at ends
    exact ends.elim
  | aborted u =>
    rw [answer] at ends
    exact absurd noReset ends.1

end scan

/-- Settles O24: what the scan did to RX is on record, and the end of the operation writes RESULT and the returned bit. -/
theorem frameReadyUnderArrivals : Obligations.FrameReadyUnderArrivals := by
  intro s idle operates noReset unbounded
  obtain ⟨r, u, -, answer, -, scanned, ready, takes⟩ := exec_frameReady_of_noReset idle operates noReset
  obtain ⟨gone, arrived, stream, come, clean⟩ := scanned unbounded noReset
  refine ⟨_, gone, arrived, answer, stream, come, clean, ready, ?_⟩
  have ended := finish_of_idle (s := { s with rx := u.rx, live := u.live, ret := some (.ready (decide (r = .ok))) }) idle r
  rw [(takes unbounded).keeps]
  exact ended

/-- The scan drops garbage before the signature byte, and no more (R130). -/
theorem dropWhile_garbage {garbage tail : List Byte} (clean : (0x42 : Byte) ∉ garbage) :
    (garbage ++ 0x42 :: tail).dropWhile (fun b => decide (b ≠ 0x42)) = 0x42 :: tail := by
  have other : ∀ b ∈ garbage, decide (b ≠ 0x42) = true := fun b hb => decide_eq_true fun h => clean (h ▸ hb)
  rw [List.dropWhile_append_of_pos other]
  simp

/-- Settles O25: the scan stops at the 0x42, from which the same operation starts again. -/
theorem garbageIsDiscardedExactlyOnce : Obligations.GarbageIsDiscardedExactlyOnce := by
  intro s garbage tail idle operates quiet hrx clean
  have scanned : s.rx.dropWhile (fun b => decide (b ≠ 0x42)) = 0x42 :: tail := by rw [hrx, dropWhile_garbage clean]
  have again : (0x42 :: tail).dropWhile (fun b => decide (b ≠ (0x42 : Byte))) = 0x42 :: tail := by simp
  obtain ⟨-, -, first⟩ := frameReadyScansToTheSignature s idle
  obtain ⟨short, enough⟩ := first operates quiet
  rw [scanned] at short enough
  have second (r : ResultCode) (b : Bool) := (frameReadyScansToTheSignature
    { s with rx := 0x42 :: tail, result := r, ret := some (.ready b) } idle).2.2 operates quiet
  by_cases count : (configured s).size ≤ tail.length + 1
  · refine ⟨_, enough count, rfl, ?_, by simp [count]⟩
    obtain ⟨-, enough'⟩ := second .ok true
    simp only [again] at enough'
    exact enough' count
  · refine ⟨_, short (by simpa using count), rfl, ?_, by simp [count]⟩
    obtain ⟨short', -⟩ := second .notReady false
    simp only [again] at short'
    exact short' (by simpa [configured] using count)

/-- Settles O26: RX never holds more than its capacity. -/
theorem tooSmallACapacityIsNeverReady : Obligations.TooSmallACapacityIsNeverReady := by
  intro s c idle operates noReset capacity within small
  obtain ⟨r, u, -, answer, drift, -, ready, -⟩ := exec_frameReady_of_noReset idle operates noReset
  have bounded : u.rx.length ≤ c := by
    refine drift.within (fun c' hc' => ?_) c (by rw [drift.only]; exact capacity)
    obtain rfl : c = c' := Option.some.inj (capacity.symm.trans hc')
    exact within
  obtain ⟨-, enough, -⟩ | rfl := ready
  · omega
  · exact ⟨_, answer, rfl, rfl⟩

section refusals
variable {s : State}

theorem exec_project_of_none (idle : s.Idle) (hinit : s.init = true) (refused : projected s = none) :
    exec .project s = .next { s with result := .callerError } :=
  command_of_finish idle (project_of_none hinit refused) idle

theorem projected_of_unsupported (hsize : (configured s).size = 0) : projected s = none := if_pos (.inl hsize)

end refusals

/-- Settles O27: each of the four tests the variant before it touches anything. -/
theorem unsupportedVariantTouchesNothing : Obligations.UnsupportedVariantTouchesNothing := by
  intro s idle hinit unsupported
  have hsize : (configured s).size = 0 := by rw [configured, catalog_eq_sentinel unsupported]; rfl
  have answer := frameReady_of_unsupported hinit hsize
  refine ⟨exec_frameReady_of_done idle answer, ?_⟩
  simp only [List.mem_cons, List.not_mem_nil, or_false]
  rintro i (rfl | rfl | rfl)
  · exact (decodeTestsThatTouchNothing s idle).2 hinit hsize
  · exact exec_project_of_none idle hinit (projected_of_unsupported hsize)
  · exact exec_poll_of_not_ready idle answer nofun

/-- Settles O47: each operation tests INIT before it touches anything. -/
theorem notInitializedTouchesNothing : Obligations.NotInitializedTouchesNothing := by
  intro s idle hinit
  have answer := frameReady_of_not_init hinit
  refine ⟨?_, exec_frameReady_of_done idle answer, (checkClearReadsAndClears s idle).2 hinit⟩
  simp only [List.mem_cons, List.not_mem_nil, or_false]
  rintro i (rfl | rfl | rfl | rfl)
  · exact (decodeTestsThatTouchNothing s idle).1 hinit
  · exact command_of_finish idle (if_pos hinit) idle
  · exact command_of_finish idle (if_pos hinit) idle
  · exact exec_poll_of_not_ready idle answer nofun

/-- Settles O46: a reserved code ends at once. -/
theorem reservedOpcodesOnlySetCallerError : Obligations.ReservedOpcodesOnlySetCallerError := by
  intro s idle
  have ended : command s reservedCode = .next { s with result := .callerError } := command_of_finish idle rfl idle
  exact ⟨ended, ended, fun _ => ended, fun _ => ended⟩

/-- With no reset to come a flush passes its one gap and then empties RX (R45). -/
theorem rxFlush_of_noReset {s : State} (unbounded : s.Unbounded) (noReset : s.NoReset) :
    rxFlush s = .done () { s with rx := [], live := s.live.tail } := by
  unfold rxFlush gap
  match hlive : s.live with
  | [] => simp [hlive]
  | .recv bs :: rest =>
    simp only
    rw [receive_of_unbounded _ _ (by exact unbounded)]
    rfl
  | .reset :: rest => simp [State.NoReset, hlive] at noReset

/-- Settles O45: the one gap of FLUSH is passed before RX is emptied. -/
theorem flushEmptiesRx : Obligations.FlushEmptiesRx := by
  refine fun s idle => ⟨fun hinit => command_of_finish idle (if_pos hinit) idle, fun hinit noReset unbounded => ?_⟩
  have flushed := rxFlush_of_noReset (s := { s with phase := .flushing }) unbounded noReset
  have ended : opFlush s = finish .ok { s with phase := .flushing, rx := [], live := s.live.tail } := by
    rw [opFlush, if_neg (by simp [hinit]), flushed, Access.done_andThen]
  have kept := finish_of_idle (s := { s with rx := [], live := s.live.tail }) idle .ok
  rw [exec, execFlush, command_of_idle idle.1, ended]
  exact congrArg Host.Outcome.next kept

/-- Settles O19: the four entries, and the laws over their codes. -/
theorem catalogOfSupportedVariants : Obligations.CatalogOfSupportedVariants := by
  have laws : ∀ v : BitVec 4, v.toNat < 4 →
      ((catalog v).hasCounts = true → 12 ≤ (catalog v).nf) ∧ ((catalog v).hasEnv = true → 15 ≤ (catalog v).nf) := by decide
  refine ⟨fun s => ⟨rfl, rfl, rfl, rfl⟩, fun v supported => ?_⟩
  obtain ⟨-, -, unsupported⟩ | ⟨size, -, nf⟩ := catalog_cases v
  · omega
  · exact ⟨size, by omega, by omega, laws v supported⟩

end Sys2Proof.Machine
end

section
/-!
PROOFS. PROJECT under ENV and COUNT (44_field_multiplexer.md R163 to R166): for each of the two, one equation for its slots
and its refusals. What the event qualifier lets through (R171).
-/
namespace Sys2Proof.Machine

section projections
variable {s : State}

theorem projected_of_invalid (invalid : s.fvalid = false) : projected s = none := if_pos (.inr invalid)

/-- ENV needs the capability and 15 fields (R163, R166). -/
theorem projected_env (hproj : s.cfgProj = 1) :
    projected s = if (configured s).size = 0 ∨ s.fvalid = false then none
      else if (configured s).hasEnv = false ∨ s.fcount.toNat < 15 then none
      else some #v[⟨s.f[4], .by1⟩, ⟨s.f[13], .by10⟩, ⟨s.f[14], .by10⟩, ⟨s.f[12], .by1000⟩] := by
  have env : projectionOf s.cfgProj = some .env := by rw [hproj]; rfl
  rw [projected, env]
  rfl

/-- COUNT needs the capability and the fields of COUNT_IDX (R164, R166). -/
theorem projected_count (hproj : s.cfgProj = 2) :
    projected s = if (configured s).size = 0 ∨ s.fvalid = false then none
      else if (configured s).hasCounts = false ∨ s.fcount.toNat ≤ 11 then none
      else some #v[⟨s.f[8], .by1⟩, ⟨s.f[9], .by1⟩, ⟨s.f[10], .by1⟩, ⟨s.f[11], .by1⟩] := by
  have count : projectionOf s.cfgProj = some .count := by rw [hproj]; rfl
  rw [projected, count]
  rfl

/-- The projection code 3 is reserved (R20). -/
theorem projected_reserved (hproj : s.cfgProj = 3) : projected s = none := by
  have reserved : projectionOf s.cfgProj = none := by rw [hproj]; rfl
  rw [projected, reserved]
  exact ite_self none

/-- Only ENV_EXT has environmental fields (R101). -/
theorem hasEnv_of_ne (h : s.cfgVariant ≠ 2) : (configured s).hasEnv = false := by
  have table : ∀ v : BitVec 4, v ≠ 2 → (catalog v).hasEnv = false := by decide
  exact table _ h

theorem configured_of_variant {v : BitVec 4} (h : s.cfgVariant = v) : configured s = catalog v := congrArg catalog h

end projections

/-- Settles O38: the equation of ENV under its variant, and the refusal for want of the capability under the others. -/
theorem projectEnv : Obligations.ProjectEnv := by
  intro s idle hinit hproj
  have slots := projected_env hproj
  refine ⟨fun variant valid count => ?_, fun other => ?_⟩
  · have entry : configured s = ⟨40, 17, true, true⟩ := configured_of_variant variant
    rw [if_neg (by simp [entry, valid]), if_neg (by simp [entry, count])] at slots
    refine ⟨eventSet s, _, exec_project_of_some idle hinit slots, slotValue_by1 _, ?_, ?_, ?_⟩ <;>
      simp [slotValue, divisor, Config.divisorTen, Config.divisorThousand]
  · have refused : (configured s).hasEnv = false ∨ s.fcount.toNat < 15 := .inl (hasEnv_of_ne other)
    rw [if_pos refused, ite_self] at slots
    exact exec_project_of_none idle hinit slots

/-- Settles O39: both variants have the capability. -/
theorem projectCount : Obligations.ProjectCount := by
  intro s idle hinit variant valid count hproj
  have entry : (configured s).size ≠ 0 ∧ (configured s).hasCounts = true := by
    obtain variant | variant := variant <;> rw [configured_of_variant variant] <;> decide
  have slots := projected_count hproj
  rw [if_neg (by simp [entry, valid]), if_neg (by simp [entry, count])] at slots
  exact ⟨eventSet s, exec_project_of_some idle hinit slots⟩

/-- Settles O40: in each case PROJECT has no slots to write. -/
theorem projectRefusals : Obligations.ProjectRefusals := by
  intro s idle hinit cases
  apply exec_project_of_none idle hinit
  obtain unsupported | invalid | ⟨hproj, short⟩ | ⟨hproj, short⟩ | hproj := cases
  · exact projected_of_unsupported (by rw [configured, catalog_eq_sentinel unsupported]; rfl)
  · exact projected_of_invalid invalid
  · rw [projected_env hproj, if_pos (short.imp_left hasEnv_of_ne), ite_self]
  · have noCounts : s.cfgVariant = 0 ∨ s.cfgVariant = 3 → (configured s).hasCounts = false := by
      rintro (variant | variant) <;> rw [configured_of_variant variant] <;> decide
    rw [projected_count hproj, if_pos ((or_assoc.2 short).imp_left noCounts), ite_self]
  · exact projected_reserved hproj

section events
variable {s : State}

/-- The notifications are off unless enabled, in a mode other than none, for a validated frame (R171 (a), (e)). -/
theorem eventSet_of_off (off : s.cfgEvEn = false ∨ s.cfgEvMode = 0 ∨ s.cfgEvMode = 3 ∨ s.fvalid = false) : eventSet s = [] := by
  refine if_pos ?_
  obtain off | mode | mode | invalid := off
  · exact .inl off
  · exact .inr (.inl (by rw [mode]; rfl))
  · exact .inr (.inl (by rw [mode]; rfl))
  · exact .inr (.inr invalid)

/-- A notification is a field that the event qualifier allows, with the value a slot would hold (R171). -/
theorem mem_eventSet {n : Notification} (h : n ∈ eventSet s) :
    ∃ i : Fin Config.maxFields, eventAllowed s i.val = true ∧ n = ⟨i.val, ⟨field s i, fieldScale i.val⟩⟩ := by
  unfold eventSet at h
  split at h
  · cases h
  · obtain ⟨i, selected, rfl⟩ := List.mem_map.1 h
    exact ⟨i, (List.mem_filter.1 (List.mem_filter.1 selected).1).2, rfl⟩

theorem isCountField_iff (i : Nat) : isCountField i = true ↔ 6 ≤ i ∧ i ≤ 11 := by
  simp only [isCountField, Bool.and_eq_true, decide_eq_true_eq]
  rfl

theorem isEnvField_iff (i : Nat) : isEnvField i = true ↔ i = 12 ∨ i = 13 ∨ i = 14 := by
  simp only [isEnvField, Bool.or_eq_true, beq_iff_eq, or_assoc]
  rfl

/-- What the event qualifier lets through, by the number of the field (R13, R74, R171 (b), (c)). -/
theorem allowed_field {i : Nat} (h : eventAllowed s i = true) :
    i < s.fcount.toNat ∧ i < 15 ∧ (6 ≤ i ∧ i ≤ 11 → (configured s).hasCounts = true ∧ s.cfgEvMode = 2) ∧
      (12 ≤ i → (configured s).hasEnv = true) := by
  have modes : ∀ m : BitVec 2, eventModeOf m = .basicCounts → m = 2 := by decide
  have last : (Config.idxPm10 : Nat) = 5 := rfl
  simp only [eventAllowed, hasMeaning, Bool.and_eq_true, Bool.or_eq_true, decide_eq_true_eq, Bool.not_eq_true',
    isCountField_iff, isEnvField_iff, last] at h
  obtain ⟨⟨present, meaning⟩, mode⟩ := h
  have counts : 6 ≤ i ∧ i ≤ 11 → s.cfgEvMode = 2 := by
    intro count
    obtain noCount | mode := mode
    · rw [(isCountField_iff i).2 count] at noCount
      cases noCount
    · exact modes _ mode
  obtain (low | ⟨count, hasCounts⟩) | ⟨env, hasEnv⟩ := meaning
  · exact ⟨present, by omega, fun _ => by omega, fun _ => by omega⟩
  · exact ⟨present, by omega, fun range => ⟨hasCounts, counts range⟩, fun _ => by omega⟩
  · exact ⟨present, by omega, fun _ => by omega, fun _ => hasEnv⟩

/-- The value of a notification is its field with the field's divisor (R79). -/
theorem slotValue_fieldScale (x : Word) (i : Nat) :
    slotValue ⟨x, fieldScale i⟩ = x.toNat / (if i = 12 then 1000 else if i = 13 ∨ i = 14 then 10 else 1) := by
  have hcho : (Config.idxHcho : Nat) = 12 := rfl
  have temp : (Config.idxTemp : Nat) = 13 := rfl
  have hum : (Config.idxHum : Nat) = 14 := rfl
  simp only [slotValue, fieldScale, hcho, temp, hum]
  split
  · simp [divisor, Config.divisorThousand]
  split <;> simp [divisor, Config.divisorTen]

end events

/-- Settles O41: PROJECT appends the event set where it projects, and nothing where it refuses. -/
theorem eventsMeetTheirConstraints : Obligations.EventsMeetTheirConstraints := by
  intro s t idle answer
  obtain ⟨-, rfl⟩ := command_next answer
  by_cases hinit : s.init = true
  · cases hslots : projected s with
    | none =>
      rw [project_of_none hinit hslots]
      exact ⟨[], by simp, fun _ => rfl, nofun⟩
    | some slots =>
      rw [project_of_some hinit hslots]
      refine ⟨eventSet s, rfl, fun off => eventSet_of_off ?_, fun n hn => ?_⟩
      · simpa using off
      · obtain ⟨i, allowed, rfl⟩ := mem_eventSet hn
        obtain ⟨present, low, counts, env⟩ := allowed_field allowed
        exact ⟨i, rfl, low, present, counts, env, slotValue_fieldScale _ _⟩
  · rw [project, if_pos (by simpa using hinit)]
    exact ⟨[], by simp, fun _ => rfl, nofun⟩

end Sys2Proof.Machine
end

section
/-!
PROOFS. Two DECODEs in step that differ in the transport, in the operation they belong to and in RESULT: what a DECODE does
depends on none of these (20_memory.md section 3, 43_frame_decoder.md R135, R136).
-/
namespace Sys2Proof.Machine

section steps
variable {s t t' u : State} {v : Word}

/-- Steps 4 and 5 behind the checksum field: the flush, then the comparison (R141). -/
def closeFrame (v : Word) (s : State) : State :=
  (rxFlush { s with sumRx := v, phase := .flushing }).andThen fun _ s => decodeCompare { s with phase := .cmp }

theorem decodeCompare_idle (s : State) : (decodeCompare s).Idle := by
  unfold decodeCompare
  split <;> exact (decodeEnd_concludes _ _).idle

/-- A DECODE that is past its last byte is over (R45). -/
theorem closeFrame_idle (v : Word) (s : State) : (closeFrame v s).Idle :=
  (rxFlush_ends _).andThen (fun _ _ _ => decodeCompare_idle _) (fun _ => False.elim) (fun _ aborted => aborted.concludes.idle)

/-- A pass that does not lead to another READ_U16 leads to the end of the operation. -/
theorem advance_last_idle (at_read : t.AtRead) (last : advance v t = .last u) : u.Idle := by
  obtain hphase | hphase | ⟨hphase, -⟩ | hphase := at_read.phase
  · rw [advance_of_hdr hphase] at last
    split at last <;> cases last
    exact (decodeEnd_concludes _ _).idle
  · rw [advance_of_len hphase] at last
    split at last <;> cases last
    exact (decodeEnd_concludes _ _).idle
  · rw [advance_of_field hphase] at last
    split at last <;> cases last
  · rw [advance_of_csum hphase] at last
    cases last
    exact closeFrame_idle v t

/-- A pass from a READ_U16 to the next touches no transport. -/
theorem advance_more_transport (at_read : t.AtRead) (more : advance v t = .more u) :
    u.rx = t.rx ∧ u.live = t.live ∧ u.latch = t.latch ∧ u.rxCapacity = t.rxCapacity ∧ u.job = t.job ∧
      u.result = t.result := by
  obtain hphase | hphase | ⟨hphase, -⟩ | hphase := at_read.phase
  · rw [advance_of_hdr hphase] at more
    split at more <;> cases more
    exact ⟨rfl, rfl, rfl, rfl, rfl, rfl⟩
  · rw [advance_of_len hphase] at more
    split at more <;> cases more
    exact ⟨rfl, rfl, rfl, rfl, rfl, rfl⟩
  · rw [advance_of_field hphase] at more
    split at more <;> cases more <;> exact ⟨rfl, rfl, rfl, rfl, rfl, rfl⟩
  · rw [advance_of_csum hphase] at more
    cases more

/-- The same value leads two DECODEs the same way. -/
theorem advance_in_step {R P : State → State → Prop} (at_read : t.AtRead)
    (same : t' = { t with job := t'.job, result := t'.result, rx := t'.rx, live := t'.live })
    (more : ∀ u, advance v t = .more u → R u { u with job := t'.job, result := t'.result, rx := t'.rx, live := t'.live })
    (fails : ∀ r d, r ≠ .ok → P (decodeEnd r { t with diagLen := d }) (decodeEnd r { t' with diagLen := d }))
    (closes : P (closeFrame v t) (closeFrame v t')) : Pass.LeadBoth R P (advance v t) (advance v t') := by
  have phase : t'.phase = t.phase := by rw [same]
  have diagLen : t'.diagLen = t.diagLen := by rw [same]
  have entry : configured t' = configured t := by rw [same]; rfl
  have expected : expectedLength t' = expectedLength t := by rw [same]; rfl
  have idx : t'.idx = t.idx := by rw [same]
  obtain hphase | hphase | ⟨hphase, -⟩ | hphase := at_read.phase
  · rw [advance_of_hdr hphase] at more ⊢
    rw [advance_of_hdr (phase.trans hphase)]
    split
    · next signature =>
      have led := more _ (if_pos signature)
      rw [same]
      exact led
    · have failed := fails .framingMismatch t.diagLen nofun
      have kept : { t' with diagLen := t.diagLen } = t' := by rw [← diagLen]
      rw [kept] at failed
      exact failed
  · rw [advance_of_len hphase] at more ⊢
    rw [advance_of_len (phase.trans hphase), expected]
    split
    · next expected =>
      have led := more _ (if_pos expected)
      rw [same]
      exact led
    · exact fails .invalidLength v nofun
  · rw [advance_of_field hphase] at more ⊢
    rw [advance_of_field (phase.trans hphase), entry, idx]
    split
    · next another =>
      have led := more _ (if_pos another)
      rw [same]
      exact led
    · next last =>
      have led := more _ (if_neg last)
      rw [same]
      exact led
  · rw [advance_of_csum hphase, advance_of_csum (phase.trans hphase)]
    exact closes

end steps

section cut
variable {s t u : State}

/-- A DECODE in a quiet environment on an unbounded RX, at the start of a READ_U16, and the same with `more` behind what is
in RX. -/
structure CutStream (more : List Byte) (s u : State) : Prop where
  at_read : s.AtRead
  quiet : s.live = []
  latch : s.latch = none
  unbounded : s.rxCapacity = none
  longer : u = { s with rx := s.rx ++ more }

/-- Where the byte of the second half of a READ_U16 is still to come, its first byte may as well be in RX (R115). -/
theorem readU16_of_held {hi : Byte} {rest : List Byte} (acc : Bool) (quiet : s.live = []) (latch : s.latch = none)
    (hrx : s.rx = hi :: rest) : readU16 acc s = readU16 acc { s with rx := rest, latch := some hi } := by
  rw [readU16, latch]
  simp only [rxRead_quiet quiet hrx, Access.done_bind]
  rfl

/-- A DECODE that waits goes on, when `more` comes, as the one that had it from the start. -/
theorem CutStream.goes_on {more : List Byte} (h : CutStream more s u) (waits : (resume s).job ≠ .none) :
    resume u = deliver more (resume s) := by
  refine resume_lockstep (R := CutStream more) (P := fun t u => t.job ≠ .none → u = deliver more t) ?_ h waits
  rintro s u ⟨at_read, quiet, latch, unbounded, rfl⟩
  have at_read' : State.AtRead { s with rx := s.rx ++ more } := at_read.of_eq rfl rfl rfl rfl rfl
  have delivered (t : State) (ht : t.rxCapacity = none) : deliver more t = resume { t with rx := t.rx ++ more } := by
    rw [deliver, receive_of_unbounded more t ht]
  refine ⟨at_read, at_read', ?_⟩
  match hrx : s.rx with
  | [] =>
    have held : resume s = s := by
      rw [resume_of_atRead at_read, readU16_quiet_empty _ quiet latch hrx, Access.hold_andThen]
    refine .inl fun _ => ?_
    rw [held, delivered s unbounded, hrx]
  | [hi] =>
    have held : resume s = { s with rx := [], latch := some hi } := by
      rw [resume_of_atRead at_read, readU16_quiet_one _ quiet latch hrx, Access.hold_andThen]
    have at_held : State.AtRead { s with rx := more, latch := some hi } := at_read.of_eq rfl rfl rfl rfl rfl
    refine .inl fun _ => ?_
    rw [hrx] at at_read'
    have same := readU16_of_held (s := { s with rx := hi :: more }) (accumulates s.phase) quiet latch rfl
    rw [held, delivered _ (by exact unbounded)]
    exact (resume_of_atRead at_read').trans ((congrArg (Access.andThen · _) same).trans (resume_of_atRead at_held).symm)
  | hi :: lo :: rest =>
    refine .inr ⟨_, _, _, _, readU16_quiet _ quiet latch hrx,
      readU16_quiet (s := { s with rx := hi :: lo :: rest ++ more }) (rest := rest ++ more) _ quiet latch rfl, ?_⟩
    have at_t : ∀ sum, State.AtRead { s with rx := rest, sum := sum } := fun _ => at_read.of_eq rfl rfl rfl rfl rfl
    refine advance_in_step (at_t _) rfl (fun w led => ?_) (fun r d _ busy => ?_) (fun busy => ?_)
    · obtain ⟨rx, live, hlatch, capacity, job, result⟩ := advance_more_transport (at_t _) led
      refine ⟨advance_atRead (at_t _) led, live.trans quiet, hlatch.trans latch, capacity.trans unbounded, ?_⟩
      simp only at rx live job result ⊢
      rw [rx, ← live, ← job, ← result]
    · exact absurd (decodeEnd_concludes r _).idle.1 busy
    · exact absurd (closeFrame_idle _ _).1 busy

end cut

/-- On an idle block that operates, DECODE starts at the READ_U16 of its header (R135). -/
theorem exec_decode_of_operates {s : State} (idle : s.Idle) (operates : s.Operates) :
    exec .decode s = .next (resume (decodeStart { s with job := .decode })) := by
  rw [exec, execDecode, command_of_idle idle.1, opDecode, decodeFrom_eq_resume (by exact .inl rfl) (by exact operates)]

/-- A DECODE that waits has passed its two tests (R144). -/
theorem operates_of_decode_waits {s t : State} (idle : s.Idle) (answer : exec .decode s = .next t) (waits : t.job ≠ .none) :
    s.Operates := by
  obtain ⟨not_init, unsupported⟩ := decodeTestsThatTouchNothing s idle
  by_contra refused
  refine waits ?_
  by_cases hinit : s.init = true
  · have hsize : (configured s).size = 0 := by_contra fun h => refused ⟨hinit, h⟩
    cases answer.symm.trans (unsupported hinit hsize)
    exact idle.1
  · cases answer.symm.trans (not_init (by simpa using hinit))
    exact idle.1

/-- Settles O35: the two DECODEs start together, and the first one waits. -/
theorem decodeGoesOnWhereItWaited : Obligations.DecodeGoesOnWhereItWaited := by
  rintro s t first more idle quiet unbounded rfl answer waits
  have operates := operates_of_decode_waits idle answer waits
  rw [exec_decode_of_operates idle operates] at answer
  cases answer
  rw [exec_decode_of_operates (by exact idle) (by exact operates)]
  refine congrArg Host.Outcome.next (CutStream.goes_on ?_ waits)
  exact ⟨decodeStart_atRead (.inl rfl) operates, quiet, rfl, unbounded, rfl⟩

end Sys2Proof.Machine
end

section
/-!
PROOFS. A DECODE that starts with SIZE bytes in RX never waits (43_frame_decoder.md R136), whatever arrives meanwhile, and
what arrives changes no register (20_memory.md section 3, monotonic availability).
-/
namespace Sys2Proof.Machine

section stocked
variable {s t u : State} {v : Word}

/-- DECODE is at the start of a READ_U16, and RX holds all the bytes it will read. -/
structure State.Stocked (s : State) : Prop where
  at_read : s.AtRead
  enough : 2 * readsLeft s ≤ s.rx.length

theorem readsLeft_pos (s : State) : 0 < readsLeft s := by
  unfold readsLeft
  split <;> omega

/-- DECODE starts with as many READ_U16s to make as a frame has words (R70). -/
theorem stocked_decodeStart (job : s.job = .decode ∨ s.job = .poll) (operates : s.Operates)
    (enough : (configured s).size ≤ s.rx.length) : (decodeStart s).Stocked := by
  have words : 2 * readsLeft (decodeStart s) = (configured s).size := by
    rw [Operates.size operates]
    change 2 * ((configured s).nf + 3) = _
    omega
  exact ⟨decodeStart_atRead job operates, words ▸ enough⟩

/-- A pass leaves the bytes of the following ones. -/
theorem State.Stocked.after_pass {acc : Bool} (h : s.Stocked) (read : ReadDone acc s t) (more : advance v t = .more u) :
    u.Stocked := by
  have at_t := read.atRead h.at_read
  have left := advance_readsLeft at_t more
  have same : readsLeft t = readsLeft s := by rw [read.keeps]; rfl
  have rx := (advance_more_transport at_t more).1
  have taken := read.taken
  have enough := h.enough
  exact ⟨advance_atRead at_t more, by rw [rx]; omega⟩

theorem State.Stocked.not_waits (h : s.Stocked) (waits : ReadWaits s t) : False := by
  have := h.enough
  have := readsLeft_pos s
  have := waits.wanting
  omega

/-- However bytes arrive, with overruns and with resets, such a DECODE runs to its end. -/
theorem State.Stocked.resume_idle (h : s.Stocked) : (resume s).Idle := by
  refine resume_induction (fun s h => ⟨h.at_read, (readU16_ends _ s).mono (fun v t read => ?_)
    (fun _ waits => (h.not_waits waits).elim)
    (fun _ aborted => aborted.concludes.idle)⟩) h
  cases pass : advance v t with
  | more u => exact h.after_pass read pass
  | last u => exact advance_last_idle (read.atRead h.at_read) pass

end stocked

/-- Settles O50: DECODE starts only when FRAME_READY has found SIZE bytes. -/
theorem pollNeverHolds : Obligations.PollNeverHolds := by
  intro s idle
  refine ⟨_, command_of_idle idle.1 opPoll, ?_⟩
  refine (frameReady_ends s).andThen (fun r t found => ?_) (fun _ => False.elim) (fun _ => Concludes.idle)
  obtain ⟨closing, ready⟩ := found
  split
  · next ok =>
    obtain ⟨operates, enough, -⟩ := ready ok
    have entry : configured t = configured s := by rw [closing.keeps]; rfl
    have operates' : State.Operates { t with job := .poll } := by rw [closing.keeps]; exact operates
    rw [decodeFrom_eq_resume (by exact .inr rfl) operates']
    exact (stocked_decodeStart (by exact .inr rfl) operates' (by rw [← entry] at enough; exact enough)).resume_idle
  · exact finish_idle r t

section arrivals
variable {s t u : State}

/-- A read of a non-empty RX takes its head, and what arrives in the gap before it is appended (R43, R46). -/
theorem rxRead_of_cons {b : Byte} {rest : List Byte} (unbounded : s.Unbounded) (noReset : s.NoReset) (hrx : s.rx = b :: rest) :
    ∃ bs, rxRead s = .done b { s with rx := rest ++ bs, live := s.live.tail } := by
  unfold rxRead
  match hlive : s.live with
  | [] =>
    refine ⟨[], ?_⟩
    simp only [rxReadWait, hrx, List.append_nil, List.tail_nil]
    rw [← hlive]
  | .recv bs :: live =>
    refine ⟨bs, ?_⟩
    simp only [rxReadWait]
    rw [receive_of_unbounded _ _ (by exact unbounded)]
    simp only [hrx, List.cons_append, List.tail_cons]
  | .reset :: live => simp [State.NoReset, hlive] at noReset

theorem noReset_tail (noReset : s.NoReset) : Gap.reset ∉ s.live.tail := fun h => noReset (List.mem_of_mem_tail h)

theorem readU16_of_cons {hi lo : Byte} {rest : List Byte} (acc : Bool) (unbounded : s.Unbounded) (noReset : s.NoReset)
    (latch : s.latch = none) (hrx : s.rx = hi :: lo :: rest) :
    ∃ bs, readU16 acc s = .done (u16 hi lo) { s with
      rx := rest ++ bs, live := s.live.tail.tail
      sum := if acc then s.sum + hi.setWidth 16 + lo.setWidth 16 else s.sum } := by
  obtain ⟨bs, first⟩ := rxRead_of_cons unbounded noReset hrx
  obtain ⟨bs', second⟩ := rxRead_of_cons (rest := rest ++ bs)
    (s := { s with rx := lo :: rest ++ bs, live := s.live.tail, latch := some hi }) unbounded (noReset_tail noReset) rfl
  refine ⟨bs ++ bs', ?_⟩
  rw [readU16, latch]
  simp only [first, Access.done_bind, readLow]
  simp only [second, Access.done_bind, List.append_assoc]

/-- What is still to come does not matter to the comparison (R141). -/
theorem decodeCompare_live (job : s.job = .decode) (live : List Gap) :
    decodeCompare { s with live := live } = { decodeCompare s with live := live } := by
  have not_poll : s.job ≠ .poll := by simp [job]
  unfold decodeCompare
  split
  · rw [decodeEnd_of_not_poll (by exact not_poll), decodeEnd_of_not_poll (by exact not_poll)]
    rfl
  · rw [decodeEnd_of_not_poll (by exact not_poll), decodeEnd_of_not_poll not_poll]
    rfl

/-- A DECODE of its own while bytes arrive, and the same in a quiet environment. -/
structure Undisturbed (s u : State) : Prop where
  job : u.job = .decode
  latch : u.latch = none
  quiet : u.live = []
  unbounded : s.Unbounded
  noReset : s.NoReset
  same : s = { u with rx := s.rx, live := s.live }
  ahead : u.rx <+: s.rx

/-- Both read the same two bytes if the quiet one has them. -/
theorem Undisturbed.read (h : Undisturbed s u) (enough : 2 ≤ u.rx.length) :
    ∃ v t t', readU16 (accumulates u.phase) u = .done v t ∧ readU16 (accumulates s.phase) s = .done v t' ∧
      Undisturbed t' t := by
  obtain ⟨job, latch, quiet, unbounded, noReset, same, more, ahead⟩ := h
  match hrx : u.rx with
  | [] | [_] => simp only [hrx, List.length_cons, List.length_nil] at enough; omega
  | hi :: lo :: rest =>
    have latch' : s.latch = none := by rw [same]; exact latch
    obtain ⟨bs, done⟩ := readU16_of_cons (rest := rest ++ more) (accumulates s.phase) unbounded noReset latch'
      (by rw [← ahead, hrx]; rfl)
    refine ⟨_, _, _, readU16_quiet _ quiet latch hrx, done, job, latch, quiet, unbounded, ?_, ?_, ?_⟩
    · exact noReset_tail (s := { s with live := s.live.tail }) (noReset_tail noReset)
    · rw [same]
    · exact ⟨more ++ bs, (List.append_assoc ..).symm⟩

/-- A pass leaves them so. -/
theorem Undisturbed.after_pass {w : State} {v : Word} (h : Undisturbed s u) (at_read : u.AtRead)
    (more : advance v u = .more w) :
    Undisturbed { w with job := s.job, result := s.result, rx := s.rx, live := s.live } w := by
  obtain ⟨job, latch, quiet, unbounded, noReset, same, ahead⟩ := h
  obtain ⟨rx, live, hlatch, capacity, hjob, hresult⟩ := advance_more_transport at_read more
  have same_job : s.job = u.job := by rw [same]
  have same_result : s.result = u.result := by rw [same]
  have same_capacity : s.rxCapacity = u.rxCapacity := by rw [same]
  refine ⟨hjob.trans job, hlatch.trans latch, live.trans quiet, ?_, noReset, ?_, by rw [rx]; exact ahead⟩
  · exact (capacity.trans same_capacity.symm).trans unbounded
  · rw [same_job, same_result, ← hjob, ← hresult]

/-- Without a byte to read any more they end alike, but for RX and what is still to come. -/
theorem Undisturbed.ends (h : Undisturbed s u) (r : ResultCode) (d : Word) :
    (decodeEnd r { s with diagLen := d }).Idle ∧ decodeEnd r { s with diagLen := d } =
      { decodeEnd r { u with diagLen := d } with
        rx := (decodeEnd r { s with diagLen := d }).rx, live := (decodeEnd r { s with diagLen := d }).live } := by
  have not_poll : u.job ≠ .poll := by simp [h.job]
  have not_poll' : s.job ≠ .poll := by rw [h.same]; exact not_poll
  rw [decodeEnd_of_not_poll (by exact not_poll'), decodeEnd_of_not_poll (by exact not_poll)]
  refine ⟨finish_idle _ _, ?_⟩
  rw [h.same]
  rfl

theorem Undisturbed.closes (h : Undisturbed s u) (v : Word) :
    closeFrame v s = { closeFrame v u with rx := (closeFrame v s).rx, live := (closeFrame v s).live } := by
  have closed : closeFrame v u = decodeCompare { u with sumRx := v, phase := .cmp, rx := [] } := by
    rw [closeFrame, rxFlush_quiet (by exact h.quiet), Access.done_andThen]
  have closed' : closeFrame v s = { closeFrame v u with live := s.live.tail } := by
    rw [closeFrame, rxFlush_of_noReset (by exact h.unbounded) (by exact h.noReset), Access.done_andThen, closed,
      ← decodeCompare_live (by exact h.job), h.same]
  rw [closed']

/-- They end alike, but for RX and what is still to come. -/
theorem Undisturbed.resume (h : Undisturbed s u) (stocked : u.Stocked) :
    (resume s).Idle ∧ resume s = { resume u with rx := (resume s).rx, live := (resume s).live } := by
  refine resume_lockstep (R := fun u s => Undisturbed s u ∧ u.Stocked)
    (P := fun w t => t.Idle ∧ t = { w with rx := t.rx, live := t.live }) ?_ ⟨h, stocked⟩
  rintro u s ⟨h, stocked⟩
  have at_s : s.AtRead := by rw [h.same]; exact stocked.at_read.of_eq rfl rfl rfl rfl rfl
  have pos := readsLeft_pos u
  have enough := stocked.enough
  obtain ⟨v, t, t', done, done', both⟩ := h.read (by omega)
  have read := readU16_ends (accumulates u.phase) u
  rw [done] at read
  have at_t := read.atRead stocked.at_read
  refine ⟨stocked.at_read, at_s, .inr ⟨v, t, v, t', done, done', advance_in_step at_t ?_ (fun w more => ?_)
    (fun r d _ => both.ends r d) ⟨closeFrame_idle v t', both.closes v⟩⟩⟩
  · rw [both.same]
  · exact ⟨both.after_pass at_t more, stocked.after_pass read more⟩

end arrivals

/-- Settles O36: the two DECODEs start with the same SIZE bytes at the head of RX. -/
theorem arrivalsDuringDecodeChangeNoRegister : Obligations.ArrivalsDuringDecodeChangeNoRegister := by
  intro s idle operates noReset unbounded enough
  have stocked : (decodeStart { s with job := .decode, live := [] }).Stocked :=
    stocked_decodeStart (.inl rfl) operates enough
  have both : Undisturbed (decodeStart { s with job := .decode }) (decodeStart { s with job := .decode, live := [] }) :=
    ⟨rfl, rfl, rfl, unbounded, noReset, rfl, List.prefix_rfl⟩
  obtain ⟨ended, same⟩ := both.resume stocked
  exact ⟨_, _, exec_decode_of_operates idle operates, exec_decode_of_operates (s := { s with live := [] }) idle operates,
    ended, same⟩

end Sys2Proof.Machine
end

section
/-!
PROOFS. POLL as its parts (45_host_operations.md R190): after FRAME_READY its DECODE goes in step with a DECODE of its own,
and what POLL does behind it is what FLUSH and PROJECT do on the idle block that the other one leaves.
-/
namespace Sys2Proof.Machine

section parts
variable {s t u w : State}

/-- `x` is where a POLL ends whose DECODE, run on its own, ends in `w` (R190, R191). -/
structure PollEnds (w x : State) : Prop where
  flushes : w.result = .invalidLength → ∃ v, exec .flush w = .next v ∧ x = { v with result := .invalidLength }
  projects : w.result = .ok → exec .project w = .next x
  returns : w.result ≠ .ok → w.result ≠ .invalidLength → x = w

/-- With no reset to come a flush is the same whatever the block holds (R45). -/
theorem rxFlush_beside (noReset : s.NoReset) (rx : t.rx = s.rx) (live : t.live = s.live)
    (capacity : t.rxCapacity = s.rxCapacity)
    (fresh : t.fresh = s.fresh) :
    ∃ n, rxFlush s = .done () { s with rx := [], live := s.live.tail, fresh := n } ∧
      rxFlush t = .done () { t with rx := [], live := s.live.tail, fresh := n } := by
  unfold rxFlush gap
  rw [live]
  match hlive : s.live with
  | [] => exact ⟨s.fresh, by simp [hlive], by simp [live, hlive, ← fresh]⟩
  | .recv bs :: rest =>
    have room : hasRoom bs { t with live := rest } = hasRoom bs { s with live := rest } := by
      simp only [hasRoom, capacity, rx]
    simp only [Access.done_bind, receive, room]
    split
    · exact ⟨s.fresh, rfl, by rw [fresh]; rfl⟩
    · exact ⟨s.fresh + 1, rfl, by rw [fresh]; rfl⟩
  | .reset :: rest => simp [State.NoReset, hlive] at noReset

/-- PROJECT reads nothing that the end of an operation writes (R160). -/
theorem project_beside (same : t = { s with job := t.job, result := t.result }) : project (finish .ok s) = project t := by
  have init : t.init = s.init := by rw [same]
  have slots : projected t = projected s := by rw [same]; rfl
  by_cases hinit : s.init = true
  · cases hslots : projected s with
    | none =>
      rw [project_of_none (by exact hinit) (by exact hslots), project_of_none (init.trans hinit) (slots.trans hslots), same]
      rfl
    | some out =>
      rw [project_of_some (by exact hinit) (by exact hslots), project_of_some (init.trans hinit) (slots.trans hslots), same]
      rfl
  · rw [project, project, if_pos (by simpa using hinit), if_pos (by simpa [init] using hinit), same]
    rfl

/-- What POLL does after its DECODE is what its parts do after one of its own. -/
theorem pollEnds_decodeEnd (r : ResultCode) (hinit : s.init = true) (noReset : s.NoReset) (job : s.job = .decode)
    (job' : t.job = .poll) (same : t = { s with job := t.job, result := t.result }) :
    PollEnds (decodeEnd r s) (decodeEnd r t) := by
  have not_poll : s.job ≠ .poll := by simp [job]
  rw [decodeEnd_of_not_poll not_poll, decodeEnd_of_poll job']
  refine ⟨?_, ?_, ?_⟩
  · rintro (rfl : r = _)
    obtain ⟨n, flushed, flushed'⟩ := rxFlush_beside (s := { finish .invalidLength s with phase := .flushing })
      (t := { t with phase := .flushing }) noReset (by rw [same]; rfl) (by rw [same]; rfl) (by rw [same]; rfl)
        (by rw [same]; rfl)
    refine ⟨_, command_of_idle (finish_idle _ _).1 opFlush, ?_⟩
    rw [opFlush, if_neg (by simp [hinit]), flushed]
    simp only [pollEnd, flushed', Access.done_andThen]
    rw [same]
    rfl
  · rintro (rfl : r = _)
    refine (command_of_idle (finish_idle _ _).1 project).trans (congrArg Host.Outcome.next ?_)
    exact project_beside same
  · intro not_ok not_length
    have other : pollEnd r t = finish r t := by
      cases r with
      | ok => exact absurd rfl not_ok
      | invalidLength => exact absurd rfl not_length
      | _ => rfl
    rw [other, same]
    rfl

/-- A DECODE of its own and that of a POLL, with all the bytes they will read in RX. -/
structure InParts (s t : State) : Prop where
  stocked : s.Stocked
  noReset : s.NoReset
  job : s.job = .decode
  job' : t.job = .poll
  same : t = { s with job := t.job, result := t.result }

theorem pollEnds_decodeCompare (hinit : s.init = true) (noReset : s.NoReset) (job : s.job = .decode) (job' : t.job = .poll)
    (same : t = { s with job := t.job, result := t.result }) : PollEnds (decodeCompare s) (decodeCompare t) := by
  have sum : t.sum = s.sum := by rw [same]
  have sumRx : t.sumRx = s.sumRx := by rw [same]
  unfold decodeCompare
  rw [sum, sumRx]
  split
  · exact pollEnds_decodeEnd _ hinit noReset job job' (by rw [same]; rfl)
  · exact pollEnds_decodeEnd _ hinit noReset job job' same

theorem pollEnds_closeFrame (hinit : s.init = true) (noReset : s.NoReset) (job : s.job = .decode) (job' : t.job = .poll)
    (same : t = { s with job := t.job, result := t.result }) (v : Word) : PollEnds (closeFrame v s) (closeFrame v t) := by
  obtain ⟨n, flushed, flushed'⟩ := rxFlush_beside (s := { s with sumRx := v, phase := .flushing })
    (t := { t with sumRx := v, phase := .flushing }) noReset (by rw [same]) (by rw [same]) (by rw [same]) (by rw [same])
  rw [closeFrame, flushed, closeFrame, flushed', Access.done_andThen, Access.done_andThen]
  exact pollEnds_decodeCompare hinit (noReset_tail noReset) job job' (by rw [same])

/-- The two go in step to the end. -/
theorem InParts.resume (h : InParts s t) : PollEnds (resume s) (resume t) := by
  refine resume_lockstep (fun s t h => ?_) h
  obtain ⟨stocked, noReset, job, job', same⟩ := h
  have at_t : t.AtRead := by
    rw [same]
    exact ⟨.inr job', stocked.at_read.operates, stocked.at_read.phase⟩
  have phase : t.phase = s.phase := by rw [same]
  have read := readU16_ends (accumulates s.phase) s
  have beside := readU16_redress id (fun _ => t.job) (fun _ => t.result) s (accumulates s.phase)
  have redressed : s.redress id (fun _ => t.job) (fun _ => t.result) = t := same.symm
  rw [redressed, ← phase] at beside
  rw [← phase] at read
  refine ⟨stocked.at_read, at_t, .inr ?_⟩
  rw [← phase]
  cases done : readU16 (accumulates t.phase) s with
  | hold w => rw [done] at read; exact (stocked.not_waits read).elim
  | aborted w => rw [done] at read; exact absurd noReset read.1
  | done v w =>
    rw [done] at read beside
    have at_w := read.atRead stocked.at_read
    have noReset_w := read.noReset noReset
    have job_w : w.job = .decode := by rw [read.keeps]; exact job
    refine ⟨v, w, v, _, rfl, beside, advance_in_step at_w rfl (fun u more => ?_) (fun r d _ => ?_) ?_⟩
    · obtain ⟨rx, live, -, -, hjob, -⟩ := advance_more_transport at_w more
      refine ⟨stocked.after_pass read more, by rw [State.NoReset, live]; exact noReset_w, hjob.trans job_w, job', ?_⟩
      change { u with job := t.job, result := t.result, rx := w.rx, live := w.live } =
        { u with job := t.job, result := t.result }
      rw [← rx, ← live]
    · exact pollEnds_decodeEnd r (by exact at_w.operates.1) noReset_w job_w job' rfl
    · exact pollEnds_closeFrame (t := w.redress id (fun _ => t.job) fun _ => t.result)
        at_w.operates.1 noReset_w job_w job' rfl v

end parts

/-- Settles O49: FRAME_READY is the same inside POLL; where it is ready, the DECODEs start in step. -/
theorem pollIsItsParts : Obligations.PollIsItsParts := by
  intro s idle noReset
  have ends := frameReady_ends s
  have advances := frameReady_advances s
  cases answer : frameReady s with
  | hold t => rw [answer] at ends; exact ends.elim
  | aborted t =>
    rw [answer] at advances
    obtain ⟨-, before, -, live⟩ := advances
    exact absurd (by simp [live]) noReset
  | done r t =>
    rw [answer] at ends advances
    obtain ⟨closing, ready⟩ := ends
    have ret : t.ret = s.ret := (Prod.ext_iff.1 (Prod.ext_iff.1 advances.outside).2).1
    have asked : exec .frameReady s = .next (finish r { t with ret := some (.ready (decide (r = .ok))) }) := by
      rw [exec, execFrameReady, command_of_idle idle.1, opFrameReady, answer, Access.done_andThen]
    have undelivered : { finish r { t with ret := some (.ready (decide (r = .ok))) } with ret := s.ret } = finish r t := by
      rw [← ret]
      rfl
    by_cases ok : r = .ok
    · subst ok
      obtain ⟨operates, enough, -⟩ := ready rfl
      have operates' : (finish .ok t).Operates := by rw [closing.keeps]; exact operates
      have enough' : (configured (finish .ok t)).size ≤ t.rx.length := by rw [closing.keeps] at enough ⊢; exact enough
      have decoded := exec_decode_of_operates (finish_idle .ok t) operates'
      have polled : exec .poll s = .next (resume (decodeStart { t with job := .poll })) := by
        rw [exec_poll_of_ready idle answer, decodeFrom_eq_resume (by exact .inr rfl) (by exact operates')]
      have both : InParts (decodeStart { finish .ok t with job := .decode }) (decodeStart { t with job := .poll }) :=
        ⟨stocked_decodeStart (.inl rfl) operates' enough', closing.noReset noReset, rfl, rfl, rfl⟩
      obtain ⟨flushes, projects, returns⟩ := both.resume
      refine ⟨_, _, asked, fun not_ok => absurd rfl not_ok, fun _ => ⟨by rw [undelivered]; exact decoded, ?_, ?_, ?_⟩⟩
      · intro length
        obtain ⟨v, flushed, ended⟩ := flushes length
        exact ⟨v, flushed, by rw [polled, ended]⟩
      · exact fun ok => polled.trans (projects ok).symm
      · exact fun not_ok not_length => polled.trans (congrArg Host.Outcome.next (returns not_ok not_length))
    · refine ⟨_, s, asked, fun _ => ?_, fun r_ok => absurd r_ok ok⟩
      rw [undelivered, exec, execPoll, command_of_idle idle.1, opPoll, answer, Access.done_andThen, if_neg ok]

end Sys2Proof.Machine
end

section
/-!
PROOFS. Whole frames in a quiet environment: which result DECODE gives for each, and what POLL does with it
(43_frame_decoder.md R141 to R148, 45_host_operations.md R190, R191).
-/
namespace Sys2Proof

/-- The byte sum does not see the order of the two bytes of a value (R148). -/
theorem byteSum_be16_exchanged (w : Word) : byteSum (be16 (w.extractLsb' 0 8 ++ w.extractLsb' 8 8)) = byteSum (be16 w) := by
  have bytes : be16 (w.extractLsb' 0 8 ++ w.extractLsb' 8 8) = [w.extractLsb' 0 8, w.extractLsb' 8 8] := be16_u16 _ _
  rw [bytes, be16]
  simp only [byteSum_cons, ← BitVec.add_assoc]
  rw [BitVec.add_comm (BitVec.setWidth _ _)]

/-- A field replaced by one of the same byte sum leaves the sum of all fields. -/
theorem byteSum_flatMap_set {fields : List Word} {i : Nat} {v : Word} (h : i < fields.length)
    (same : byteSum (be16 v) = byteSum (be16 fields[i])) :
    byteSum ((fields.set i v).flatMap be16) = byteSum (fields.flatMap be16) := by
  induction fields generalizing i with
  | nil => rfl
  | cons w ws ih =>
    cases i with
    | zero =>
      rw [List.set_cons_zero, List.flatMap_cons, List.flatMap_cons, byteSum_append, byteSum_append]
      exact congrArg (· + _) same
    | succ i =>
      rw [List.set_cons_succ, List.flatMap_cons, List.flatMap_cons, byteSum_append, byteSum_append]
      exact congrArg (_ + ·) (ih (by simpa using h) same)

theorem frameChecksum_exchanged (size : Nat) {fields : List Word} {i : Nat} (h : i < fields.length) :
    frameChecksum size (fields.set i (fields[i].extractLsb' 0 8 ++ fields[i].extractLsb' 8 8)) = frameChecksum size fields := by
  simp only [frameChecksum, byteSum_append, byteSum_flatMap_set h (byteSum_be16_exchanged _)]

namespace Machine

/-- The registers as a validated frame leaves them, RX flushed (R141, R142). -/
def loaded (s : State) (fields : List Word) (checksum : Word) : State :=
  { s with
    f := loadFields s.f 0 fields, rx := [], sum := checksum, sumRx := checksum, fvalid := true
    fcount := BitVec.ofNat 5 (configured s).nf, valRcv := true, phase := .cmp, idx := 0, latch := none }

section quiet
variable {s : State} {fields : List Word} {checksum : Word}

/-- DECODE of a frame of the configured variant, with any tail: OK exactly if the checksum agrees (R142, R207). -/
theorem exec_decode_frame {tail : List Byte} (idle : s.Idle) (operates : s.Operates) (quiet : s.Quiet)
    (hlen : fields.length = (configured s).nf) (hrx : s.rx = frameBytes (configured s).size fields checksum ++ tail) :
    (frameChecksum (configured s).size fields = checksum → exec .decode s = .next (finish .ok (loaded s fields checksum))) ∧
      (frameChecksum (configured s).size fields ≠ checksum → Rejects s .checksumMismatch) := by
  refine ⟨fun right => ?_, rejects_wrong_checksum idle operates quiet hlen hrx⟩
  have decoded : decodeFrom { s with job := .decode } = decodeEnd .ok { loaded s fields checksum with job := .decode } :=
    decodeFrom_frame_of_checksum operates quiet hlen hrx right
  exact exec_decode_of_end (t := { loaded s fields checksum with job := .decode }) idle decoded rfl

/-- The field registers of a validated frame (R139). -/
theorem loadFields_getElem (f : Vector Word Config.maxFields) {i : Nat} (hi : i < Config.maxFields) (hlen : i < fields.length) :
    fields[i]? = some (loadFields f 0 fields)[i] := by
  have get := loadFields_get f 0 fields ⟨i, hi⟩
  rw [dif_pos ⟨Nat.zero_le _, hlen⟩] at get
  rw [List.getElem?_eq_getElem hlen]
  exact congrArg some get.symm

end quiet

/-- Settles O34: the sum does not change, so the checksum still agrees. -/
theorem exchangedBytesAreNotDetected : Obligations.ExchangedBytesAreNotDetected := by
  intro s fields checksum i h t idle operates quiet hlen hrx answer ok _
  obtain ⟨accepts, rejects⟩ := exec_decode_frame (tail := []) idle operates quiet hlen (by rw [hrx, List.append_nil])
  have right : frameChecksum (configured s).size fields = checksum := by
    by_contra wrong
    obtain ⟨u, rejected, result, -⟩ := rejects wrong
    cases answer.symm.trans rejected
    cases ok.symm.trans result
  cases answer.symm.trans (accepts right)
  have exchanged := exec_decode_frame (s := { s with
    rx := frameBytes (configured s).size (fields.set i (fields[i].extractLsb' 0 8 ++ fields[i].extractLsb' 8 8)) checksum })
    (tail := []) idle operates quiet (by rw [List.length_set]; exact hlen) (List.append_nil _).symm
  exact ⟨_, exchanged.1 ((frameChecksum_exchanged _ h).trans right), rfl, rfl, rfl⟩

section poll
variable {s : State} {fields : List Word} {checksum : Word} {garbage tail : List Byte}

/-- POLL on a good frame behind garbage is PROJECT on the validated frame (R190). -/
theorem exec_poll_frame (idle : s.Idle) (operates : s.Operates) (quiet : s.Quiet) (clean : (0x42 : Byte) ∉ garbage)
    (hlen : fields.length = (configured s).nf)
    (hrx : s.rx = garbage ++ frameBytes (configured s).size fields checksum ++ tail)
    (right : frameChecksum (configured s).size fields = checksum) :
    exec .poll s = .next (project { loaded s fields checksum with job := .poll }) := by
  have frame : frameBytes (configured s).size fields checksum ++ tail =
      0x42 :: 0x4D :: (be16 (lengthField (configured s).size) ++ (fields.flatMap be16 ++ (be16 checksum ++ tail))) :=
    frameBytes_append ..
  have scanned : s.rx.dropWhile (fun b => decide (b ≠ 0x42)) = frameBytes (configured s).size fields checksum ++ tail := by
    rw [hrx, List.append_assoc, frame, dropWhile_garbage clean]
  have enough : ¬ (frameBytes (configured s).size fields checksum ++ tail).length < (configured s).size := by
    rw [List.length_append, frameBytes_length, Operates.size operates, hlen]
    omega
  have ready := frameReady_quiet operates quiet
  rw [scanned, if_neg enough] at ready
  have decoded := decodeFrom_frame_of_checksum (tail := tail)
    (s := { s with rx := frameBytes (configured s).size fields checksum ++ tail, phase := .sync, job := .poll })
    operates quiet hlen rfl right
  rw [exec_poll_of_ready idle ready, decoded, decodeEnd_of_poll (by rfl)]
  rfl

end poll

theorem State.Operates.supported {s : State} (h : s.Operates) : s.cfgVariant.toNat < 4 := by
  obtain ⟨unsupported, -⟩ | ⟨-, supported, -⟩ := catalog_cases s.cfgVariant
  · exact absurd unsupported h.2
  · exact supported

/-- Settles O48: the frame is decoded, and its projection has all the fields it needs. -/
theorem pollDeliversAGoodFrame : Obligations.PollDeliversAGoodFrame := by
  intro s garbage tail fields checksum idle operates quiet clean hlen hrx sum permitted
  have right : frameChecksum (configured s).size fields = checksum := by
    rw [sum, ← List.append_nil (frameBytes _ _ _)]
    exact frameChecksum_eq_sum_take checksum [] (by rw [Operates.size operates, hlen])
  have polled := exec_poll_frame idle operates quiet clean hlen hrx right
  have count := configured_nf_toNat s
  have counted : (loaded s fields checksum).fcount.toNat = fields.length := count.trans hlen.symm
  have registers {i : Nat} (hi : i < Config.maxFields) (h : i < fields.length) :
      fields[i]? = some (loaded s fields checksum).f[i] := loadFields_getElem s.f hi h
  have ends {slots : Vector Slot Config.nSlots} (h : projected (loaded s fields checksum) = some slots) :=
    polled.trans (congrArg Host.Outcome.next (project_of_some (by exact operates.1) (by exact h)))
  have entry : configured (loaded s fields checksum) = configured s := rfl
  have valid : ¬ ((configured s).size = 0 ∨ (loaded s fields checksum).fvalid = false) := by
    rintro (unsupported | invalid)
    · exact operates.2 unsupported
    · cases invalid
  have nf := Operates.nf operates
  obtain ⟨-, -, -, counts_nf, env_nf⟩ := catalogOfSupportedVariants.2 s.cfgVariant operates.supported
  obtain mass | ⟨env, hasEnv⟩ | ⟨count, hasCounts⟩ := permitted
  · refine ⟨_, ends (projected_mass operates.2 rfl mass), rfl, rfl, rfl, rfl, counted, fun i hi h => (registers hi h).symm, ?_⟩
    rw [if_pos mass, registers (i := 3), registers (i := 4), registers (i := 5)]
    · rfl
    all_goals omega
  · have enough : 15 ≤ (configured s).nf := env_nf hasEnv
    have slots := projected_env (s := loaded s fields checksum) env
    rw [entry, if_neg valid, if_neg (not_or.2 ⟨ne_false_of_eq_true hasEnv, by omega⟩)] at slots
    refine ⟨_, ends slots, rfl, rfl, rfl, rfl, counted, fun i hi h => (registers hi h).symm, ?_⟩
    rw [if_neg (by rw [env]; decide), if_pos env, registers (i := 4), registers (i := 13), registers (i := 14),
      registers (i := 12)]
    · rfl
    all_goals omega
  · have enough : 12 ≤ (configured s).nf := counts_nf hasCounts
    have slots := projected_count (s := loaded s fields checksum) count
    rw [entry, if_neg valid, if_neg (not_or.2 ⟨ne_false_of_eq_true hasCounts, by omega⟩)] at slots
    refine ⟨_, ends slots, rfl, rfl, rfl, rfl, counted, fun i hi h => (registers hi h).symm, ?_⟩
    rw [if_neg (by rw [count]; decide), if_neg (by rw [count]; decide), registers (i := 8), registers (i := 9),
      registers (i := 10), registers (i := 11)]
    · rfl
    all_goals omega

section candidate
variable {s : State}

/-- PROJECT never ends with FramingMismatch, and leaves RX alone (R165). -/
theorem project_rx_result (s : State) : (project s).rx = s.rx ∧ (project s).result ≠ .framingMismatch := by
  by_cases hinit : s.init = true
  · cases slots : projected s with
    | none => rw [project_of_none hinit slots]; exact ⟨rfl, nofun⟩
    | some out => rw [project_of_some hinit slots]; exact ⟨rfl, nofun⟩
  · rw [project, if_pos (by simpa using hinit)]
    exact ⟨rfl, nofun⟩

/-- SIZE bytes with the right header are a frame and a tail (R70). -/
theorem frame_of_header {rest : List Byte} (operates : s.Operates)
    (hrx : s.rx = be16 Config.sig ++ (be16 (lengthField (configured s).size) ++ rest))
    (enough : (configured s).size ≤ s.rx.length) :
    ∃ fields checksum tail, fields.length = (configured s).nf ∧
      s.rx = frameBytes (configured s).size fields checksum ++ tail := by
  have size := Operates.size operates
  have long : 2 * (configured s).nf + 2 ≤ rest.length := by
    rw [hrx] at enough
    simp only [List.length_append, be16_length] at enough
    omega
  obtain ⟨fields, count, bytes⟩ := exists_words (configured s).nf (rest.take (2 * (configured s).nf))
    (by rw [List.length_take]; omega)
  match sum : rest.drop (2 * (configured s).nf) with
  | [] | [_] => have := congrArg List.length sum; simp only [List.length_drop, List.length_cons, List.length_nil] at this; omega
  | hi :: lo :: tail =>
    refine ⟨fields, u16 hi lo, tail, count, ?_⟩
    rw [frameBytes_append, be16_u16, ← bytes, List.cons_append, List.cons_append, List.nil_append, ← sum,
      List.take_append_drop, hrx]

/-- The DECODE of a POLL on a candidate with the right signature ends with RX empty and with another result (R191). -/
theorem decodeFrom_of_signature {rest : List Byte} (job : s.job = .poll) (operates : s.Operates) (quiet : s.Quiet)
    (hrx : s.rx = 0x42 :: 0x4D :: rest) (enough : (configured s).size ≤ s.rx.length) :
    (decodeFrom s).rx = [] ∧ (decodeFrom s).result ≠ .framingMismatch := by
  have nf := Operates.nf operates
  have size := Operates.size operates
  match rest with
  | [] | [_] => simp only [hrx, List.length_cons, List.length_nil] at enough; omega
  | l0 :: l1 :: rest =>
    by_cases length : l0.toNat * 256 + l1.toNat = (configured s).size - 4
    · have declared : u16 l0 l1 = lengthField (configured s).size :=
        BitVec.eq_of_toNat_eq (by rw [u16_toNat, length, lengthField_toNat])
      obtain ⟨fields, checksum, tail, count, frame⟩ := frame_of_header (rest := rest) operates
        (by rw [← declared, be16_u16]; exact hrx) enough
      by_cases right : frameChecksum (configured s).size fields = checksum
      · rw [decodeFrom_frame_of_checksum operates quiet count frame right, decodeEnd_of_poll (by exact job)]
        exact project_rx_result _
      · rw [decodeFrom_frame_of_wrong_checksum operates quiet count frame right, decodeEnd_of_poll (by exact job)]
        exact ⟨rfl, nofun⟩
    · rw [decodeFrom_of_wrong_length operates quiet hrx length, decodeEnd_invalidLength_of_poll (by exact job) (by exact quiet)]
      exact ⟨rfl, nofun⟩

end candidate

/-- Settles O51: the header tells the two cases apart. -/
theorem pollFlushesButAfterFramingMismatch : Obligations.PollFlushesButAfterFramingMismatch := by
  intro s b1 rest idle operates quiet hrx enough
  have polled := exec_poll_of_ready idle (frameReady_quiet_of_candidate operates quiet hrx enough)
  refine ⟨fun other => ?_, fun same => ?_⟩
  · have ne : u16 0x42 b1 ≠ Config.sig := fun same => other (u16_inj (c := 0x42) (d := 0x4D) same).2
    have decoded := (decodeFrom_of_operates (s := { s with phase := .sync, job := .poll }) operates).trans
      (decodeHeader_quiet_of_ne_sig quiet rfl hrx ne)
    rw [polled, decoded, decodeEnd_of_poll (by rfl), add_bytes_eq_ofNat]
    have ended := finish_of_idle
      (s := { s with rx := rest, sum := BitVec.ofNat 16 (0x42 + b1.toNat), fvalid := false }) idle .framingMismatch
    rw [← ended]
    rfl
  · subst same
    exact ⟨_, polled, decodeFrom_of_signature rfl operates quiet hrx enough⟩

section arriving
variable {s t : State} {fields : List Word} {checksum : Word}

/-- DECODE judges a frame of any format by its declared length, and then by its checksum (R136, R138, R142). -/
theorem exec_decode_judges {size : Nat} (idle : s.Idle) (operates : s.Operates) (quiet : s.Quiet)
    (hsize : size = 6 + 2 * fields.length) (small : size < 65536) (hrx : s.rx = frameBytes size fields checksum) :
    ∃ u, exec .decode s = .next u ∧ u.Idle ∧ u.result = if (configured s).size ≠ size then .invalidLength
      else if checksum = frameChecksum size fields then .ok else .checksumMismatch := by
  have conf := Operates.size operates
  by_cases format : (configured s).size = size
  · have count : fields.length = (configured s).nf := by omega
    subst format
    rw [← List.append_nil (frameBytes _ _ _)] at hrx
    by_cases right : frameChecksum (configured s).size fields = checksum
    · refine ⟨_, (exec_decode_frame idle operates quiet count hrx).1 right, finish_idle _ _, ?_⟩
      rw [if_neg (not_not.2 rfl), if_pos right.symm]
      rfl
    · have decoded := decodeFrom_frame_of_wrong_checksum (s := { s with job := .decode }) operates quiet count hrx right
      refine ⟨_, exec_decode_of_end idle decoded rfl, finish_idle _ _, ?_⟩
      rw [if_neg (not_not.2 rfl), if_neg (Ne.symm right)]
      rfl
  · have declared : (lengthField size).toNat = size - 4 := Nat.mod_eq_of_lt (show size - 4 < 65536 by omega)
    rw [← u16_be16 (lengthField size), u16_toNat] at declared
    rw [← List.append_nil (frameBytes _ _ _), frameBytes_append] at hrx
    have decoded := decodeFrom_of_wrong_length (s := { s with job := .decode }) operates quiet hrx
      (by change _ ≠ (configured s).size - 4; omega)
    refine ⟨_, exec_decode_of_end idle decoded rfl, finish_idle _ _, ?_⟩
    rw [if_pos format]
    rfl

/-- A DECODE on an empty RX waits, and a frame that arrives then is decoded as if it had been there (R44, R115). -/
theorem exec_frame_of_waiting {i : Instr} {bs : List Byte} (idle : s.Idle) (operates : s.Operates) (quiet : s.Quiet)
    (unbounded : s.Unbounded) (hrx : s.rx = []) (answer : exec .decode s = .next t) (frame : encode i = some (.stream bs)) :
    exec i t = exec .decode { s with rx := bs } := by
  have started := exec_decode_of_operates idle operates
  rw [resume_of_atRead (decodeStart_atRead (.inl rfl) (by exact operates)),
    readU16_quiet_empty _ (by exact quiet) rfl (by exact hrx),
    Access.hold_andThen] at started
  have waits : t.job ≠ .none := by
    cases answer.symm.trans started
    nofun
  rw [exec_of_encode_stream frame]
  exact (decodeGoesOnWhereItWaited s t [] bs idle quiet unbounded hrx answer waits).symm

end arriving

/-- Settles O54: each format is that of its variants. -/
theorem waitingDecodeJudgesTheArrivingFrame : Obligations.WaitingDecodeJudgesTheArrivingFrame := by
  intro s t fields checksum idle operates quiet unbounded hrx answer
  have judged {i : Instr} {size : Nat} (frame : encode i = some (.stream (frameBytes size fields checksum)))
      (hsize : size = 6 + 2 * fields.length) (small : size < 65536) :
      ∃ u, exec i t = .next u ∧ u.Idle ∧ u.result = if (configured s).size ≠ size then .invalidLength
        else if checksum = frameChecksum size fields then .ok else .checksumMismatch := by
    rw [exec_frame_of_waiting idle operates quiet unbounded hrx answer frame]
    exact exec_decode_judges (s := { s with rx := frameBytes size fields checksum }) idle operates quiet hsize small rfl
  have formats : ∀ v : BitVec 4, ((catalog v).size ≠ 32 ↔ ¬ (v = 0 ∨ v = 1)) ∧ ((catalog v).size ≠ 40 ↔ v ≠ 2) ∧
      ((catalog v).size ≠ 24 ↔ v ≠ 3) := by decide
  obtain ⟨format32, format40, format24⟩ := formats s.cfgVariant
  refine ⟨fun count => ?_, fun count => ?_, fun count => ?_⟩
  · obtain ⟨u, next, ended, result⟩ := judged (i := .frame32 fields checksum) (size := 32) rfl (by omega) (by decide)
    exact ⟨u, next, ended, by rw [result]; exact if_congr format32 rfl rfl⟩
  · obtain ⟨u, next, ended, result⟩ := judged (i := .frame40 fields checksum) (size := 40) rfl (by omega) (by decide)
    exact ⟨u, next, ended, by rw [result]; exact if_congr format40 rfl rfl⟩
  · obtain ⟨u, next, ended, result⟩ := judged (i := .frame24 fields checksum) (size := 24) rfl (by omega) (by decide)
    exact ⟨u, next, ended, by rw [result]; exact if_congr format24 rfl rfl⟩

end Machine
end Sys2Proof
end

section
/-!
PROOFS. Which registers an operation writes as long as no reset aborts it (10_state.md R27): a DECODE from wherever it goes
on, and each operation of the host.
-/
namespace Sys2Proof.Machine

section decoding
variable {s t u : State}

/-- A DECODE on its way: only registers of the decoder and the transport have changed (R27). -/
structure Decoding (s t : State) : Prop where
  keeps : t = { s with
    f := t.f, fvalid := t.fvalid, fcount := t.fcount, sum := t.sum, sumRx := t.sumRx, valRcv := t.valRcv, diagLen := t.diagLen
    phase := t.phase, idx := t.idx, latch := t.latch, rx := t.rx, live := t.live, fresh := t.fresh }
  noReset : s.NoReset → t.NoReset

/-- Where a DECODE that goes on from anywhere gets: it waits, it ends, or it meets a reset. -/
inductive Decoded (s t : State) : Prop
  | waits (decoding : Decoding s t)
  | ended (r : ResultCode) (u : State) (decoding : Decoding s u) (last : t = decodeEnd r u)
  | aborted (resets : ¬ s.NoReset)

/-- An update of registers of the decoder; both premises are evident. -/
theorem Decoding.of_update
    (keeps : t = { s with
      f := t.f, fvalid := t.fvalid, fcount := t.fcount, sum := t.sum, sumRx := t.sumRx, valRcv := t.valRcv, diagLen := t.diagLen
      phase := t.phase, idx := t.idx, latch := t.latch, rx := t.rx, live := t.live, fresh := t.fresh } := by rfl)
    (live : t.live = s.live := by rfl) : Decoding s t :=
  ⟨keeps, by rw [State.NoReset, State.NoReset, live]; exact id⟩

theorem Decoding.trans (h : Decoding s t) (k : Decoding t u) : Decoding s u :=
  ⟨by rw [k.keeps, h.keeps], k.noReset ∘ h.noReset⟩

theorem Decoding.of_drift (drift : Drift s t) : Decoding s t := ⟨by rw [drift.only], drift.noReset⟩

theorem decoding_receive (bs : List Byte) (s : State) : Decoding s (receive bs s) := by
  have only : OnlyTransport s (receive bs s) := onlyTransport_receive bs s.live s
  refine ⟨by rw [only], ?_⟩
  rw [State.NoReset, State.NoReset, receive_live]
  exact id

theorem Decoded.after (h : Decoding s t) (k : Decoded t u) : Decoded s u := by
  cases k with
  | waits decoding => exact .waits (h.trans decoding)
  | ended r v decoding last => exact .ended r v (h.trans decoding) last
  | aborted resets => exact .aborted (resets ∘ h.noReset)

/-- A DECODE that goes on from an update of registers of the decoder. -/
theorem Decoded.of_update (k : Decoded t u)
    (keeps : t = { s with
      f := t.f, fvalid := t.fvalid, fcount := t.fcount, sum := t.sum, sumRx := t.sumRx, valRcv := t.valRcv, diagLen := t.diagLen
      phase := t.phase, idx := t.idx, latch := t.latch, rx := t.rx, live := t.live, fresh := t.fresh } := by rfl)
    (live : t.live = s.live := by rfl) : Decoded s u := .after (.of_update keeps live) k

theorem decodeEnd_decoded (r : ResultCode) (s : State) : Decoded s (decodeEnd r s) := .ended r s .of_update rfl

/-- One READ_U16 of a DECODE and what follows it. -/
theorem readU16_decoded (acc : Bool) {k : Word → State → State} (hk : ∀ v t, Decoded t (k v t)) :
    Decoded s ((readU16 acc s).andThen k) :=
  (readU16_ends acc s).andThen (fun v t read => .after ⟨by rw [read.keeps], read.noReset⟩ (hk v t))
    (fun t waits => .waits ⟨by rw [waits.keeps], fun _ => by simp [State.NoReset, waits.live]⟩)
      (fun _ aborted => .aborted aborted.1)

theorem decodeCompare_decoded (s : State) : Decoded s (decodeCompare s) := by
  unfold decodeCompare
  split
  · exact (decodeEnd_decoded _ _).of_update
  · exact decodeEnd_decoded _ s

theorem decodeChecksum_decoded (s : State) : Decoded s (decodeChecksum s) :=
  readU16_decoded false fun _ _ => .of_update ((rxFlush_ends _).andThen
    (fun _ u flushed => .after (.of_drift flushed.1) (decodeCompare_decoded _).of_update) (fun _ => False.elim)
    (fun _ aborted => .aborted aborted.1))

theorem decodeFields_decoded (n : Nat) (s : State) : Decoded s (decodeFields n s) := by
  induction n generalizing s with
  | zero => exact (decodeChecksum_decoded _).of_update
  | succ n ih => exact readU16_decoded true fun _ _ => (ih _).of_update

theorem decodeLength_decoded (s : State) : Decoded s (decodeLength s) := by
  refine readU16_decoded true fun v t => ?_
  split
  · exact (decodeFields_decoded _ _).of_update
  · exact (decodeEnd_decoded _ _).of_update

theorem decodeHeader_decoded (s : State) : Decoded s (decodeHeader s) := by
  refine readU16_decoded true fun v t => ?_
  split
  · exact (decodeLength_decoded _).of_update
  · exact decodeEnd_decoded _ t

theorem decodeFrom_decoded (s : State) : Decoded s (decodeFrom s) := by
  unfold decodeFrom
  split
  · exact decodeEnd_decoded _ s
  split
  · exact decodeEnd_decoded _ s
  · exact (decodeHeader_decoded _).of_update

theorem resume_decoded (job : s.job = .decode ∨ s.job = .poll) : Decoded s (resume s) := by
  have kept : Decoded s s := .waits .of_update
  obtain job | job := job <;>
    (simp only [resume, job]
     split
     · exact decodeHeader_decoded s
     · exact decodeLength_decoded s
     · exact decodeFields_decoded _ s
     · exact decodeChecksum_decoded s
     all_goals exact kept)

theorem deliver_decoded (bs : List Byte) (job : s.job = .decode ∨ s.job = .poll) : Decoded s (deliver bs s) :=
  .after (decoding_receive bs s) (resume_decoded (by rw [receive_job]; exact job))

end decoding

section slots
variable {s t : State}

/-- PROJECT writes OUT only where it ends OK with a validated frame (R165, R167). -/
theorem project_changes_out (changed : (project s).out ≠ s.out) : (project s).result = .ok ∧ (project s).fvalid = true := by
  by_cases hinit : s.init = true
  · cases slots : projected s with
    | none =>
      rw [project_of_none hinit slots] at changed
      exact absurd rfl changed
    | some out =>
      rw [project_of_some hinit slots]
      refine ⟨rfl, ?_⟩
      by_contra invalid
      rw [projected_of_invalid (by simpa using invalid)] at slots
      cases slots
  · rw [project, if_pos (by simpa using hinit)] at changed
    exact absurd rfl changed

/-- The flush after InvalidLength leaves OUT alone (R191). -/
theorem flush_finish_out (noReset : s.NoReset) (r : ResultCode) :
    ((rxFlush { s with phase := .flushing }).andThen fun _ s => finish r s).out = s.out :=
  (rxFlush_ends _).andThen (P := fun t => t.out = s.out) (fun _ t flushed => by rw [flushed.1.only]; rfl) (fun _ => False.elim)
    (fun _ aborted => absurd noReset aborted.1)

theorem decodeEnd_changes_out {r : ResultCode} (noReset : s.NoReset) (changed : (decodeEnd r s).out ≠ s.out) :
    s.job = .poll ∧ (decodeEnd r s).result = .ok ∧ (decodeEnd r s).fvalid = true := by
  by_cases job : s.job = .poll
  · rw [decodeEnd_of_poll job] at changed ⊢
    cases r with
    | ok => exact ⟨job, project_changes_out changed⟩
    | invalidLength => exact absurd (flush_finish_out noReset _) changed
    | _ => exact absurd rfl changed
  · rw [decodeEnd_of_not_poll job] at changed
    exact absurd rfl changed

/-- A DECODE writes OUT only in the PROJECT that ends its POLL (R167, R190). -/
theorem Decoded.changes_out (h : Decoded s t) (noReset : s.NoReset) (changed : t.out ≠ s.out) :
    s.job = .poll ∧ t.result = .ok ∧ t.fvalid = true := by
  cases h with
  | waits decoding => exact absurd (by rw [decoding.keeps]) changed
  | ended r u decoding last =>
    have out : u.out = s.out := by rw [decoding.keeps]
    have job : u.job = s.job := by rw [decoding.keeps]
    rw [last, ← out] at changed
    rw [last, ← job]
    exact decodeEnd_changes_out (decoding.noReset noReset) changed
  | aborted resets => exact absurd noReset resets

end slots

section standing
variable {s t : State}

/-- What only CONFIG and INIT write, and what no operation writes (R27). -/
def State.standing (s : State) :
    (BitVec 4 × BitVec 2 × BitVec 2 × Bool) × (Bool × Bool) × Bool × Option Nat × List Input :=
  ((s.cfgVariant, s.cfgProj, s.cfgEvMode, s.cfgEvEn), (s.init, s.initDone), s.transportPresent, s.rxCapacity, s.script)

theorem Concludes.standing (h : Concludes s t) (noReset : s.NoReset) : t.standing = s.standing := by
  cases h with
  | finished r u closing ended => rw [ended, closing.keeps]; rfl
  | aborted u resets => exact absurd noReset resets

theorem Decoded.standing (h : Decoded s t) (noReset : s.NoReset) : t.standing = s.standing := by
  cases h with
  | waits decoding => rw [decoding.keeps]; rfl
  | ended r u decoding last =>
    rw [last, (decodeEnd_concludes r u).standing (decoding.noReset noReset), decoding.keeps]
    rfl
  | aborted resets => exact absurd noReset resets

/-- The state `s` with what `t` has in the registers that every operation may write when it ends, and in what the model adds. -/
def State.ending (s t : State) : State :=
  { s with
    result := t.result, phase := t.phase, idx := t.idx, job := t.job, latch := t.latch, ret := t.ret, events := t.events
    fresh := t.fresh }

/-- READ_U16 on its own writes SUM and the byte held, and takes from RX (R110). -/
theorem byteReader_writes (acc : Bool) (noReset : s.NoReset) :
    byteReader acc s = { s.ending (byteReader acc s) with
      sum := (byteReader acc s).sum, rx := (byteReader acc s).rx, live := (byteReader acc s).live, result := s.result } := by
  refine (readU16_ends acc s).andThen
    (P := fun t => t = { s.ending t with sum := t.sum, rx := t.rx, live := t.live, result := s.result })
    (fun v t read => ?_) (fun t waits => ?_) (fun _ aborted => absurd noReset aborted.1)
  · rw [read.keeps]; rfl
  · rw [waits.keeps]; rfl

/-- FRAME_READY up to its answer takes from RX (R122). -/
theorem frameReady_drifts (s : State) :
    (frameReady s).Ends (fun _ t => Drift { s with phase := t.phase } t) (fun _ => False) (fun _ => ¬ s.NoReset) := by
  obtain (answer | answer) | ⟨-, scan⟩ := frameReady_cases s
  · rw [answer]; exact Drift.refl s
  · rw [answer]; exact Drift.refl s
  · rw [scan]
    refine (sync_ends _ _).mono (fun _ t found => ?_) (fun _ => id) (fun _ aborted => aborted.1)
    have phase : t.phase = .sync := by rw [found.1.only]
    rw [phase]
    exact found.1

theorem opFrameReady_writes (noReset : s.NoReset) :
    opFrameReady s = { s.ending (opFrameReady s) with rx := (opFrameReady s).rx, live := (opFrameReady s).live } :=
  (frameReady_drifts s).andThen (P := fun t => t = { s.ending t with rx := t.rx, live := t.live })
    (fun _ t drift => by rw [drift.only]; rfl) (fun _ => False.elim) (fun _ resets => absurd noReset resets)

theorem opFlush_writes (noReset : s.NoReset) :
    opFlush s = { s.ending (opFlush s) with rx := (opFlush s).rx, live := (opFlush s).live } := by
  unfold opFlush
  split
  · rfl
  · exact (rxFlush_ends _).andThen (P := fun t => t = { s.ending t with rx := t.rx, live := t.live })
      (fun _ t flushed => by rw [flushed.1.only]; rfl) (fun _ => False.elim) (fun _ aborted => absurd noReset aborted.1)

theorem opInit_writes (s : State) :
    opInit s = { s.ending (opInit s) with init := (opInit s).init, initDone := (opInit s).initDone } := by
  unfold opInit
  split
  · rfl
  split <;> rfl

theorem opCheckClear_writes (s : State) :
    opCheckClear s = { s.ending (opCheckClear s) with valRcv := (opCheckClear s).valRcv } := by
  unfold opCheckClear
  split <;> rfl

theorem project_writes (s : State) : project s = { s.ending (project s) with out := (project s).out } := by
  obtain ⟨r, out, events, ended⟩ := project_eq_finish s
  rw [ended]
  rfl

end standing

section polling
variable {s t : State}

/-- POLL up to its DECODE, and that DECODE (R190): only its PROJECT writes OUT. -/
theorem opPoll_changes_out (noReset : s.NoReset) (changed : (opPoll s).out ≠ s.out) :
    (opPoll s).result = .ok ∧ (opPoll s).fvalid = true := by
  revert changed
  refine (frameReady_drifts s).andThen (P := fun t => t.out ≠ s.out → t.result = .ok ∧ t.fvalid = true)
    (fun r t drift => ?_) (fun _ => False.elim) (fun _ resets => absurd noReset resets)
  have out : t.out = s.out := by rw [drift.only]
  split
  · intro changed
    exact ((decodeFrom_decoded _).changes_out (by exact drift.noReset noReset) (by rw [← out] at changed; exact changed)).2
  · exact fun changed => absurd out changed

theorem opPoll_standing (noReset : s.NoReset) : (opPoll s).standing = s.standing := by
  refine (frameReady_drifts s).andThen (P := fun t => t.standing = s.standing)
    (fun r t drift => ?_) (fun _ => False.elim) (fun _ resets => absurd noReset resets)
  have standing : t.standing = s.standing := by rw [drift.only]; rfl
  split
  · exact ((decodeFrom_decoded _).standing (by exact drift.noReset noReset)).trans standing
  · exact standing

/-- Bytes that arrive where no DECODE is in progress: they join RX, and a READ_U16 that waits goes on (R44, R46). -/
theorem deliver_writes (bs : List Byte) (noReset : s.NoReset) (not_decode : s.job ≠ .decode) (not_poll : s.job ≠ .poll) :
    deliver bs s = { s.ending (deliver bs s) with
        sum := (deliver bs s).sum, rx := (deliver bs s).rx, live := (deliver bs s).live, result := s.result } ∧
      ((∀ acc, s.job ≠ .readU16 acc) → (deliver bs s).sum = s.sum) := by
  have only : OnlyTransport s (receive bs s) := onlyTransport_receive bs s.live s
  cases job : s.job with
  | none =>
    rw [deliver_of_idle job bs]
    exact ⟨by rw [only]; rfl, fun _ => by rw [only]⟩
  | readU16 acc =>
    have resumed : deliver bs s = byteReader acc (receive bs s) := by
      rw [deliver, resume, receive_job, job]
    have writes := byteReader_writes (s := receive bs s) acc (by rw [State.NoReset, receive_live]; exact noReset)
    rw [resumed]
    refine ⟨?_, fun other => absurd rfl (other acc)⟩
    rw [writes, only]
    rfl
  | decode => exact absurd job not_decode
  | poll => exact absurd job not_poll

end polling

/-- What a frame that arrives writes (R27, R44, R46; log entry 15). -/
theorem arrival_writes {i : Instr} {s t : State} {bs : List Byte} (noReset : s.NoReset) (frame : encode i = some (.stream bs))
    (answer : exec i s = .next t) :
    t.standing = s.standing ∧
      (s.job ≠ .decode → s.job ≠ .poll → t.f = s.f ∧ t.fvalid = s.fvalid ∧ t.fcount = s.fcount ∧ t.sumRx = s.sumRx ∧
        t.diagLen = s.diagLen ∧ ((∀ acc, s.job ≠ .readU16 acc) → t.sum = s.sum) ∧ t.valRcv = s.valRcv ∧ t.result = s.result) ∧
      (s.job ≠ .poll → t.out = s.out) ∧ (s.job = .none → t = receive bs s) := by
  cases answer.symm.trans (exec_of_encode_stream frame s)
  refine ⟨?_, fun not_decode not_poll => ?_, fun not_poll => ?_, fun job => deliver_of_idle job bs⟩
  · by_cases decodes : s.job = .decode ∨ s.job = .poll
    · exact (deliver_decoded bs decodes).standing noReset
    · obtain ⟨not_decode, not_poll⟩ := not_or.1 decodes
      rw [(deliver_writes bs noReset not_decode not_poll).1]
      rfl
  · obtain ⟨writes, sum⟩ := deliver_writes bs noReset not_decode not_poll
    rw [writes]
    exact ⟨rfl, rfl, rfl, rfl, rfl, sum, rfl, rfl⟩
  · by_cases decodes : s.job = .decode
    · by_contra changed
      exact not_poll ((deliver_decoded bs (.inl decodes)).changes_out noReset changed).1
    · rw [(deliver_writes bs noReset decodes not_poll).1]
      rfl

/-- Settles O57: by the instruction, from what each operation writes. -/
theorem registersAreWrittenOnlyByTheirOperations : Obligations.RegistersAreWrittenOnlyByTheirOperations := by
  intro i s t noReset answer
  cases i with
  | init =>
    obtain ⟨-, rfl⟩ := command_next answer
    rw [opInit_writes s]
    simp [State.ending, encode, commandWord]
  | config v p m e =>
    simp only [exec, execConfig] at answer
    obtain ⟨-, rfl⟩ := command_next answer
    refine ⟨fun other => absurd rfl (other v p m e), ?_⟩
    simp [finish, encode, commandWord]
  | frameReady =>
    obtain ⟨-, rfl⟩ := command_next answer
    rw [opFrameReady_writes noReset]
    simp [State.ending, encode, commandWord]
  | flush =>
    obtain ⟨-, rfl⟩ := command_next answer
    rw [opFlush_writes noReset]
    simp [State.ending, encode, commandWord]
  | project =>
    obtain ⟨-, rfl⟩ := command_next answer
    rw [project_writes s]
    simp [State.ending, encode, commandWord]
  | checkClear =>
    obtain ⟨-, rfl⟩ := command_next answer
    rw [opCheckClear_writes s]
    simp [State.ending, encode, commandWord]
  | reserved0 | reserved9 | reservedAB | reservedCF =>
    obtain ⟨-, rfl⟩ := command_next answer
    simp [reservedCode, finish, encode, commandWord]
  | catalog =>
    cases answer
    simp [encode]
  | readU16 acc =>
    simp only [exec, execReadU16] at answer
    obtain ⟨-, rfl⟩ := command_next answer
    rw [byteReader_writes (s := { s with job := .readU16 acc, latch := none }) acc noReset]
    simp [State.ending, encode]
  | decode =>
    obtain ⟨-, ended⟩ := command_next answer
    have decoded : Decoded { s with job := .decode } t := ended ▸ decodeFrom_decoded _
    have standing : t.standing = s.standing := decoded.standing noReset
    simp only [State.standing, Prod.mk.injEq] at standing
    have out : t.out = s.out := by
      by_contra changed
      exact absurd (decoded.changes_out noReset changed).1 nofun
    simp [standing, out, encode, commandWord]
  | poll =>
    obtain ⟨-, ended⟩ := command_next answer
    have standing := opPoll_standing noReset
    rw [← ended] at standing
    simp only [State.standing, Prod.mk.injEq] at standing
    simp [standing, encode, commandWord]
  | frame32 | frame40 | frame24 =>
    obtain ⟨standing, registers, out, received⟩ := arrival_writes noReset rfl answer
    simp only [State.standing, Prod.mk.injEq] at standing
    simp +contextual [standing, out, registers, received, encode]

/-- Settles O56: of what may write OUT, by the instruction. -/
theorem slotsChangeOnlyInAProjectThatEndsOk : Obligations.SlotsChangeOnlyInAProjectThatEndsOk := by
  intro i s t noReset answer changed
  have named : i = .project ∨ i = .poll ∨ s.job = .poll := by
    by_contra other
    simp only [not_or] at other
    obtain ⟨not_project, not_poll, not_polling⟩ := other
    obtain ⟨-, -, -, out, -⟩ := registersAreWrittenOnlyByTheirOperations i s t noReset answer
    exact changed (out not_project not_poll not_polling)
  cases i with
  | project =>
    obtain ⟨-, ended⟩ := command_next answer
    have slots := project_changes_out (s := s) (ended ▸ changed)
    exact ⟨ended ▸ slots.1, ended ▸ slots.2, named⟩
  | poll =>
    obtain ⟨-, ended⟩ := command_next answer
    have slots := opPoll_changes_out noReset (ended ▸ changed)
    exact ⟨ended ▸ slots.1, ended ▸ slots.2, named⟩
  | frame32 | frame40 | frame24 =>
    cases answer
    have polling : s.job = .poll := by simpa using named
    obtain ⟨-, ok, valid⟩ := (deliver_decoded _ (.inr polling)).changes_out noReset changed
    exact ⟨ok, valid, named⟩
  | catalog => cases answer; exact absurd rfl changed
  | config =>
    have polling : s.job = .poll := by simpa using named
    simp [exec, execConfig, command, polling] at answer
  | readU16 =>
    have polling : s.job = .poll := by simpa using named
    simp [exec, execReadU16, command, polling] at answer
  | _ =>
    have polling : s.job = .poll := by simpa using named
    cases polling.symm.trans (command_next answer).1

end Sys2Proof.Machine
end

section
/-!
PROOFS. An operation and the reset it may meet (70_reset_and_hazards.md R231, D19): it ends or waits before the reset, or it
is aborted with only what it had read gone from RX. The flush is the last access of every operation, so no abort follows one.
-/
namespace Sys2Proof.Machine

section reading
variable {s t u : State} {v : Word}

/-- An operation on its way: it has read a run off an unbounded RX, and has left alone what lies outside the block. -/
structure Reading (s t : State) : Prop where
  passes : Passes s t
  outside : t.outside = s.outside

/-- An operation meets no reset, or the first reset there is aborts it after what it has read. -/
inductive Runs (s t : State) : Prop
  | missed (passed : ∃ before, Gap.reset ∉ before ∧ s.live = before ++ t.live)
  | aborted (u : State) (later : List Gap) (reading : Reading s u) (live : u.live = .reset :: later)
      (ended : t = blockReset { u with live := later })

theorem Reading.trans (h : Reading s t) (k : Reading t u) : Reading s u := ⟨h.passes.trans k.passes, k.outside.trans h.outside⟩

/-- An update outside the transport; all premises are evident. -/
theorem Reading.of_update (rx : t.rx = s.rx := by rfl) (live : t.live = s.live := by rfl)
    (outside : t.outside = s.outside := by rfl) :
    Reading s t := by
  refine ⟨?_, outside⟩
  rw [Passes, rx, live]
  exact Passes.refl s

theorem Takes.reading (h : Takes s t) : Reading s t := ⟨h.passes, by rw [h.keeps]; rfl⟩

theorem Reading.unbounded (h : Reading s t) (unbounded : s.Unbounded) : t.Unbounded := by
  have outside := h.outside
  simp only [State.outside, Prod.mk.injEq] at outside
  exact outside.2.2.2.2.trans unbounded

theorem Reading.missed (h : Reading s t) : Runs s t := by
  obtain ⟨before, -, clean, live, -⟩ := h.passes
  exact .missed ⟨before, clean, live⟩

theorem Runs.after (h : Reading s t) (k : Runs t u) : Runs s u := by
  cases k with
  | missed passed =>
    obtain ⟨before, -, clean, live, -⟩ := h.passes
    obtain ⟨between, clean', live'⟩ := passed
    exact .missed ⟨before ++ between, by simp [clean, clean'], by rw [live, live', List.append_assoc]⟩
  | aborted w later reading live ended => exact .aborted w later (h.trans reading) live ended

theorem MetReset.runs (h : MetReset s t) : Runs s t := by
  obtain ⟨u, later, takes, live, ended⟩ := h
  exact .aborted u later takes.reading live ended

/-- What touches no gap misses every reset. -/
theorem Runs.of_live (live : t.live = s.live) : Runs s t := .missed ⟨[], by simp, by rw [live]; rfl⟩

/-- The last access of an operation, a flush, and what follows it without a gap. -/
theorem flush_runs {k : Unit → State → State} (unbounded : s.Unbounded) (hk : ∀ t, (k () t).live = t.live) :
    Runs s ((rxFlush s).andThen k) := by
  refine (rxFlush_takes unbounded).andThen ?_ (fun _ => False.elim) (fun _ => MetReset.runs)
  rintro _ t ⟨u, takes, rfl⟩
  exact .after takes.reading (.of_live (hk _))

theorem project_live (s : State) : (project s).live = s.live := by
  rw [project_writes s]
  rfl

theorem decodeEnd_runs (r : ResultCode) (unbounded : s.Unbounded) : Runs s (decodeEnd r s) := by
  by_cases job : s.job = .poll
  · rw [decodeEnd_of_poll job]
    cases r with
    | ok => exact .of_live (project_live s)
    | invalidLength =>
      exact .after (t := { s with phase := .flushing }) .of_update (flush_runs unbounded fun _ => rfl)
    | _ => exact .of_live rfl
  · rw [decodeEnd_of_not_poll job]
    exact .of_live rfl

/-- Behind the flush of DECODE comes no gap: what follows is a projection or the end (R141, R190). -/
theorem decodeCompare_live_kept (s : State) : (decodeCompare s).live = s.live := by
  have ended (r : ResultCode) (t : State) (not_length : r ≠ .invalidLength) : (decodeEnd r t).live = t.live := by
    by_cases job : t.job = .poll
    · rw [decodeEnd_of_poll job]
      cases r with
      | ok => exact project_live t
      | invalidLength => exact absurd rfl not_length
      | _ => rfl
    · rw [decodeEnd_of_not_poll job]
      rfl
  unfold decodeCompare
  split <;> exact ended _ _ nofun

/-- READ_U16 takes its bytes off the stream. -/
theorem readU16_runs (acc : Bool) (unbounded : s.Unbounded) :
    (readU16 acc s).Ends (fun _ => Reading s) (Reading s) (Runs s) := by
  have low (hi : Byte) (t : State) (unbounded : t.Unbounded) :
      (readLow acc hi t).Ends (fun _ => Reading t) (Reading t) (Runs t) :=
    (rxRead_takes unbounded).bind (fun _ _ takes => takes.reading.trans .of_update) (fun _ waits => waits.1.reading)
      (fun _ => MetReset.runs)
  unfold readU16
  split
  · exact low _ s unbounded
  · refine (rxRead_takes unbounded).bind (fun hi t takes => ?_) (fun _ waits => waits.1.reading) (fun _ => MetReset.runs)
    have first : Reading s { t with latch := some hi } := takes.reading.trans .of_update
    exact (low hi _ (first.unbounded unbounded)).mono (fun _ _ => first.trans) (fun _ => first.trans) (fun _ => .after first)

/-- One pass of DECODE reads no more, or ends. -/
theorem advance_runs (v : Word) (at_read : t.AtRead) (reading : Reading s t) (unbounded : s.Unbounded) :
    (advance v t).Leads (fun u => u.AtRead ∧ Reading s u) (Runs s) := by
  have unbounded_t := reading.unbounded unbounded
  have goes_on {u : State} (more : advance v t = .more u) (kept : Reading t u) : u.AtRead ∧ Reading s u :=
    ⟨advance_atRead at_read more, reading.trans kept⟩
  obtain hphase | hphase | ⟨hphase, -⟩ | hphase := at_read.phase
  · rw [advance_of_hdr hphase] at goes_on ⊢
    split
    · next signature => exact goes_on (if_pos signature) .of_update
    · exact .after reading (decodeEnd_runs _ unbounded_t)
  · rw [advance_of_len hphase] at goes_on ⊢
    split
    · next expected => exact goes_on (if_pos expected) .of_update
    · exact .after (reading.trans .of_update) (decodeEnd_runs _ (by exact unbounded_t))
  · rw [advance_of_field hphase] at goes_on ⊢
    split
    · next another => exact goes_on (if_pos another) .of_update
    · next last => exact goes_on (if_neg last) .of_update
  · rw [advance_of_csum hphase]
    exact .after (reading.trans .of_update) (flush_runs (by exact unbounded_t) fun _ => decodeCompare_live_kept _)

theorem resume_runs (at_read : s.AtRead) (unbounded : s.Unbounded) : Runs s (resume s) := by
  refine resume_induction (I := fun u => u.AtRead ∧ Reading s u) (fun u h => ⟨h.1, ?_⟩) ⟨at_read, .of_update⟩
  obtain ⟨at_u, reading⟩ := h
  have unbounded_u := reading.unbounded unbounded
  have ends := readU16_ends (accumulates u.phase) u
  have runs := readU16_runs (accumulates u.phase) unbounded_u
  cases done : readU16 (accumulates u.phase) u with
  | done v t =>
    rw [done] at ends runs
    exact advance_runs v (ReadDone.atRead ends at_u) (reading.trans runs) unbounded
  | hold t => rw [done] at runs; exact (reading.trans runs).missed
  | aborted t => rw [done] at runs; exact .after reading runs

theorem decodeFrom_runs (job : s.job = .decode ∨ s.job = .poll) (unbounded : s.Unbounded) : Runs s (decodeFrom s) := by
  obtain (ended | ended) | ⟨operates, started⟩ := decodeFrom_cases job
  · exact ended ▸ decodeEnd_runs _ unbounded
  · exact ended ▸ decodeEnd_runs _ unbounded
  · rw [started]
    exact .after (t := decodeStart s) .of_update (resume_runs (decodeStart_atRead job operates) unbounded)

theorem frameReady_runs (unbounded : s.Unbounded) :
    (frameReady s).Ends (fun _ => Reading s) (Runs s) (Runs s) := by
  obtain (answer | answer) | ⟨-, scan⟩ := frameReady_cases s
  · rw [answer]; exact Reading.of_update
  · rw [answer]; exact Reading.of_update
  · have scanning : Reading s { s with phase := .sync } := .of_update
    rw [scan]
    exact (sync_takes _ (by exact unbounded)).mono (fun _ _ takes => scanning.trans takes.reading)
      (fun _ waits => (scanning.trans waits.1.reading).missed) (fun _ met => .after scanning met.runs)

theorem opPoll_runs (unbounded : s.Unbounded) : Runs s (opPoll s) := by
  refine (frameReady_runs unbounded).andThen (fun r t reading => ?_) (fun _ => id) (fun _ => id)
  split
  · exact .after (reading.trans .of_update) (decodeFrom_runs (.inr rfl) (by exact reading.unbounded unbounded))
  · exact .after reading (.of_live rfl)

theorem opFlush_runs (unbounded : s.Unbounded) : Runs s (opFlush s) := by
  unfold opFlush
  split
  · exact .of_live rfl
  · exact .after (t := { s with phase := .flushing }) .of_update (flush_runs unbounded fun _ => rfl)

theorem opCheckClear_live (s : State) : (opCheckClear s).live = s.live := by
  rw [opCheckClear_writes s]
  rfl

theorem opInit_live (s : State) : (opInit s).live = s.live := by
  rw [opInit_writes s]
  rfl

/-- Every operation, and every arrival, from an idle block. -/
theorem exec_runs {i : Instr} (idle : s.Idle) (unbounded : s.Unbounded) (answer : exec i s = .next t) : Runs s t := by
  have ran {run : State → State} (answer : command s run = .next t) (runs : Runs s (run s)) : Runs s t :=
    (command_next answer).2 ▸ runs
  cases i with
  | init => exact ran answer (.of_live (opInit_live s))
  | config =>
    simp only [exec, execConfig] at answer
    exact ran answer (.of_live rfl)
  | frameReady =>
    exact ran answer ((frameReady_runs unbounded).andThen (fun _ _ reading => .after reading (.of_live rfl)) (fun _ => id)
      (fun _ => id))
  | decode =>
    exact ran answer (.after (t := { s with job := .decode }) .of_update (decodeFrom_runs (.inl rfl) (by exact unbounded)))
  | project => exact ran answer (.of_live (project_live s))
  | checkClear => exact ran answer (.of_live (opCheckClear_live s))
  | flush => exact ran answer (opFlush_runs unbounded)
  | poll => exact ran answer (opPoll_runs unbounded)
  | reserved0 | reserved9 | reservedAB | reservedCF => exact ran answer (.of_live rfl)
  | catalog => cases answer; exact .of_live rfl
  | readU16 acc =>
    simp only [exec, execReadU16] at answer
    refine ran answer (.after (t := { s with job := .readU16 acc, latch := none }) .of_update ?_)
    exact (readU16_runs acc (by exact unbounded)).andThen (fun _ _ reading => .after reading (.of_live rfl))
      (fun _ => Reading.missed) (fun _ => id)
  | frame32 | frame40 | frame24 =>
    cases answer.symm.trans (exec_of_encode_stream rfl s)
    rw [deliver_of_idle idle.1]
    exact .of_live (receive_live _ s)

end reading

/-- A reset gives every block register its reset value and leaves what lies outside the block (R231; log entry 21). -/
theorem resetTo_blockReset {s u : State} (outside : u.outside = s.outside) (later : List Gap) :
    s.ResetTo (blockReset { u with live := later }) u.rx later := by
  simp only [State.outside, Prod.mk.injEq] at outside
  obtain ⟨script, ret, events, present, capacity⟩ := outside
  refine ⟨(blockReset u).f, u.fresh + 1, ?_⟩
  rw [← script, ← ret, ← events, ← present, ← capacity]
  rfl

/-- A run of gaps without a reset ends before the first reset there is. -/
theorem first_reset {before before' later live : List Gap} (clean' : Gap.reset ∉ before')
    (same : before ++ .reset :: later = before' ++ live) :
    ∃ left, live = left ++ .reset :: later ∧ before = before' ++ left := by
  obtain ⟨left, split, rest⟩ | ⟨left, split, rest⟩ := List.append_eq_append_iff.1 same
  · cases left with
    | nil => exact ⟨[], by simpa using rest.symm, by simpa using split.symm⟩
    | cons g left =>
      rw [List.cons_append, List.cons.injEq] at rest
      exact absurd (by rw [split, ← rest.1]; simp) clean'
  · exact ⟨left, rest, split⟩

/-- Settles O59: where a reset is met, it is the one that `before` leads to. -/
theorem resetAbortsWithoutAFlush : Obligations.ResetAbortsWithoutAFlush := by
  intro i s t before later idle unbounded clean live answer
  cases exec_runs idle unbounded answer with
  | missed passed =>
    obtain ⟨before', clean', live'⟩ := passed
    obtain ⟨left, rest, split⟩ := first_reset clean' (live.symm.trans live')
    exact .inl ⟨left, rest, before', split.symm⟩
  | aborted u later' reading met ended =>
    obtain ⟨before', gone, clean', live', stream, count⟩ := reading.passes
    rw [met] at live' count
    obtain ⟨left, rest, split⟩ := first_reset clean' (live.symm.trans live')
    obtain rfl : left = [] := by
      cases left with
      | nil => rfl
      | cons g left =>
        rw [List.cons_append, List.cons.injEq] at rest
        exact absurd (by rw [split, ← rest.1]; simp) clean
    rw [List.append_nil] at split
    subst split
    obtain rfl : later' = later := by simpa using rest
    have rx : t.rx = u.rx := by rw [ended]; rfl
    have reset := resetTo_blockReset reading.outside later'
    rw [← ended] at reset
    refine .inr ⟨gone, ?_, count.resolve_right (by simp), ?_⟩ <;> rw [rx]
    · exact stream
    · exact reset

end Sys2Proof.Machine
end

section
/-!
PROOFS. A reset after `n` gaps in which nothing happens (70_reset_and_hazards.md R231, D19): every access before it passes
one such gap, so the reset aborts the operation at its primitive `n + 1`, with what was read until then gone from RX.
-/
namespace Sys2Proof.Machine

section accesses
variable {s t : State} {n : Nat} {later : List Gap}

/-- The state with `rx` in RX and a reset after `n` gaps in which nothing happens. -/
def State.toReset (s : State) (n : Nat) (later : List Gap) (rx : List Byte) : State :=
  { s with rx := rx, live := List.replicate n (.recv []) ++ .reset :: later }

theorem resetAfter_toReset (s : State) (n : Nat) (later : List Gap) (rx : List Byte) :
    (s.toReset n later rx).ResetAfter n later := rfl

theorem receive_nil (s : State) : receive [] s = s := by
  have room : hasRoom [] s = true := by
    unfold hasRoom
    split <;> rfl
  rw [receive_of_room [] s room, List.append_nil]

theorem State.ResetTo.of_outside {w : State} {rx : List Byte} (h : t.ResetTo w rx later) (outside : t.outside = s.outside) :
    s.ResetTo w rx later := by
  simp only [State.outside, Prod.mk.injEq] at outside
  obtain ⟨script, ret, events, present, capacity⟩ := outside
  obtain ⟨f, fresh, ended⟩ := h
  rw [script, ret, events, present, capacity] at ended
  exact ⟨f, fresh, ended⟩

/-- An access, or what is left of it, is aborted by the coming reset with `rx` in RX. -/
def Access.AbortsTo {α : Type} (m : Access α) (s : State) (rx : List Byte) (later : List Gap) : Prop :=
  ∃ w, m = .aborted w ∧ s.ResetTo w rx later

theorem Access.AbortsTo.bind {α β : Type} {m : Access α} {rx : List Byte} (h : m.AbortsTo s rx later)
    (k : α → State → Access β) :
    (m.bind k).AbortsTo s rx later := by
  obtain ⟨w, rfl, reset⟩ := h
  exact ⟨w, rfl, reset⟩

theorem Access.AbortsTo.andThen {α : Type} {m : Access α} {rx : List Byte} (h : m.AbortsTo s rx later) (k : α → State → State) :
    s.ResetTo (m.andThen k) rx later := by
  obtain ⟨w, rfl, reset⟩ := h
  exact reset

theorem Access.AbortsTo.of_outside {α : Type} {m : Access α} {rx : List Byte} (h : m.AbortsTo t rx later)
    (outside : t.outside = s.outside) : m.AbortsTo s rx later := by
  obtain ⟨w, ended, reset⟩ := h
  exact ⟨w, ended, reset.of_outside outside⟩

theorem gap_meets (h : s.ResetAfter 0 later) : (gap s).AbortsTo s s.rx later := by
  have live : s.live = .reset :: later := h
  exact ⟨blockReset { s with live := later }, by rw [gap, live], resetTo_blockReset rfl later⟩

theorem gap_passes (h : s.ResetAfter (n + 1) later) : gap s = .done () (s.toReset n later s.rx) := by
  have live : s.live = .recv [] :: (List.replicate n (.recv []) ++ .reset :: later) := h
  rw [gap, live]
  exact congrArg (Access.done ()) (receive_nil _)

theorem rxAvail_passes (h : s.ResetAfter (n + 1) later) : rxAvail s = .done s.rx.length (s.toReset n later s.rx) := by
  rw [rxAvail, gap_passes h]
  rfl

theorem rxPeek_passes {b : Byte} {rest : List Byte} (h : s.ResetAfter (n + 1) later) (hrx : s.rx = b :: rest) :
    rxPeek s = .done b (s.toReset n later s.rx) := by
  rw [rxPeek, gap_passes h, Access.done_bind, hrx]
  rfl

theorem rxRead_meets (h : s.ResetAfter 0 later) : (rxRead s).AbortsTo s s.rx later := by
  have live : s.live = .reset :: later := h
  exact ⟨blockReset { s with live := later }, by rw [rxRead, live]; rfl, resetTo_blockReset rfl later⟩

theorem rxRead_passes {b : Byte} {rest : List Byte} (h : s.ResetAfter (n + 1) later) (hrx : s.rx = b :: rest) :
    rxRead s = .done b (s.toReset n later rest) := by
  have live : s.live = .recv [] :: (List.replicate n (.recv []) ++ .reset :: later) := h
  rw [rxRead, live]
  simp only [rxReadWait, receive_nil, hrx]
  rfl

/-- A read of an empty RX waits through the empty gaps for the reset (R44). -/
theorem rxRead_empty (h : s.ResetAfter n later) (hrx : s.rx = []) : (rxRead s).AbortsTo s [] later := by
  unfold rxRead
  rw [h]
  induction n generalizing s with
  | zero => exact ⟨blockReset { s with live := later }, rfl, hrx ▸ resetTo_blockReset rfl later⟩
  | succ n ih =>
    simp only [List.replicate_succ, List.cons_append, rxReadWait, receive_nil, hrx]
    exact (ih (s := s.toReset n later []) rfl rfl).of_outside rfl

/-- A READ_U16 either meets the reset or completes two primitives nearer to it. -/
theorem readU16_toReset (acc : Bool) (latch : s.latch = none) (h : s.ResetAfter n later) :
    (readU16 acc s).AbortsTo s (s.rx.drop n) later ∨
      ∃ hi lo rest m t, n = m + 2 ∧ s.rx = hi :: lo :: rest ∧ readU16 acc s = .done (u16 hi lo) t ∧
        t.rx = rest ∧ t.ResetAfter m later ∧ t.latch = none ∧ t.outside = s.outside := by
  have first : readU16 acc s = (rxRead s).bind fun hi s => readLow acc hi { s with latch := some hi } := by rw [readU16, latch]
  rw [first]
  match hrx : s.rx, n with
  | rx, 0 => exact .inl (hrx ▸ (rxRead_meets h).bind _)
  | [], n + 1 => exact .inl ((rxRead_empty h hrx).bind _)
  | hi :: rest, n + 1 =>
    rw [rxRead_passes h hrx, Access.done_bind, readLow]
    have next : ({ s.toReset n later rest with latch := some hi } : State).ResetAfter n later := rfl
    match rest, n with
    | rest, 0 => exact .inl (((rxRead_meets next).bind _).of_outside rfl)
    | [], n + 1 => exact .inl (((rxRead_empty next rfl).bind _).of_outside rfl)
    | lo :: rest, n + 1 =>
      rw [rxRead_passes next rfl]
      exact .inr ⟨hi, lo, rest, n, _, rfl, rfl, rfl, rfl, rfl, rfl, rfl⟩

end accesses

section decode
variable {s t : State} {n : Nat} {later : List Gap}

theorem flush_meets {k : Unit → State → State} (h : s.ResetAfter 0 later) : s.ResetTo ((rxFlush s).andThen k) s.rx later :=
  ((gap_meets h).bind _).andThen k

theorem outside_of_more {v : Word} {u : State} (at_read : t.AtRead) (more : advance v t = .more u) : u.outside = t.outside := by
  obtain hphase | hphase | ⟨hphase, -⟩ | hphase := at_read.phase
  · rw [advance_of_hdr hphase] at more
    split at more <;> cases more
    rfl
  · rw [advance_of_len hphase] at more
    split at more <;> cases more
    rfl
  · rw [advance_of_field hphase] at more
    split at more <;> cases more <;> rfl
  · rw [advance_of_csum hphase] at more
    cases more

/-- DECODE behind a completed READ_U16, with `rest` in RX and the reset `m` gaps away. -/
structure Nearer (t w : State) (m : Nat) (rest : List Byte) (later : List Gap) : Prop where
  at_read : w.AtRead
  phase : w.phase = t.phase
  job : w.job = t.job
  entry : configured w = configured t
  reads : readsLeft w = readsLeft t
  rx : w.rx = rest
  reset : w.ResetAfter m later
  latch : w.latch = none
  outside : w.outside = t.outside

/-- DECODE at a READ_U16 either meets the reset in it or goes on with its value. -/
theorem resume_toReset (at_read : t.AtRead) (latch : t.latch = none) (reset : t.ResetAfter n later) :
    (readU16 (accumulates t.phase) t).AbortsTo t (t.rx.drop n) later ∨ ∃ hi lo rest m w, n = m + 2 ∧ t.rx = hi :: lo :: rest ∧
      readU16 (accumulates t.phase) t = .done (u16 hi lo) w ∧ Nearer t w m rest later := by
  have ends := readU16_ends (accumulates t.phase) t
  obtain met | ⟨hi, lo, rest, m, w, count, hrx, done, rx, reset', latch', outside⟩ :=
    readU16_toReset (accumulates t.phase) latch reset
  · exact .inl met
  · rw [done] at ends
    have keeps := ReadDone.keeps ends
    exact .inr ⟨hi, lo, rest, m, w, count, hrx, done, ReadDone.atRead ends at_read, by rw [keeps], by rw [keeps],
      by rw [keeps]; rfl,
      by rw [keeps]; rfl, rx, reset', latch', outside⟩

/-- DECODE among its fields, with a reset that comes no later than its last byte has been read. -/
structure AmongFields (s t : State) (left : List Byte) (later : List Gap) (n : Nat) : Prop where
  at_read : t.AtRead
  phase : t.phase = .field ∨ t.phase = .csum
  latch : t.latch = none
  reset : t.ResetAfter n later
  outside : t.outside = s.outside
  left : t.rx.drop n = left
  near : n ≤ 2 * readsLeft t

/-- It stays so to the abort: there is no end of DECODE on the way, and behind the last byte comes the flush. -/
theorem AmongFields.pass {left : List Byte} (h : AmongFields s t left later n) :
    (readU16 (accumulates t.phase) t).Ends
      (fun v t => (advance v t).Leads (fun u => ∃ n, AmongFields s u left later n) (fun w => s.ResetTo w left later))
      (fun w => s.ResetTo w left later) (fun w => s.ResetTo w left later) := by
  obtain ⟨at_read, phase, latch, reset, outside, rfl, near⟩ := h
  obtain ⟨w, met, aborted⟩ | ⟨hi, lo, rest, m, w, rfl, hrx, done, nearer⟩ := resume_toReset at_read latch reset
  · rw [met]
    exact aborted.of_outside outside
  obtain ⟨at_w, samePhase, -, -, reads, rfl, reset', latch', outside'⟩ := nearer
  rw [done, hrx, List.drop_succ_cons, List.drop_succ_cons]
  change (advance (u16 hi lo) w).Leads _ _
  obtain field | csum := phase
  · have goes_on {u : State} (more : advance (u16 hi lo) w = .more u) (phase : u.phase = .field ∨ u.phase = .csum) :
        ∃ n, AmongFields s u (w.rx.drop m) later n := by
      have fewer := advance_readsLeft at_w more
      obtain ⟨rx, live, hlatch, -⟩ := advance_more_transport at_w more
      exact ⟨m, advance_atRead at_w more, phase, hlatch.trans latch', live.trans reset',
        (outside_of_more at_w more).trans (outside'.trans outside), by rw [rx], by omega⟩
    rw [advance_of_field (samePhase.trans field)] at goes_on ⊢
    split
    · next another => exact goes_on (if_pos another) (.inl (samePhase.trans field))
    · next last => exact goes_on (if_neg last) (.inr rfl)
  · have last : readsLeft t = 1 := by rw [readsLeft, csum]
    obtain rfl : m = 0 := by omega
    rw [advance_of_csum (samePhase.trans csum)]
    have flushed : w.ResetTo (closeFrame (u16 hi lo) w) w.rx later :=
      (flush_meets (s := { w with sumRx := u16 hi lo, phase := .flushing }) reset').of_outside rfl
    exact flushed.of_outside (outside'.trans outside)

theorem AmongFields.resume {left : List Byte} (h : AmongFields s t left later n) : s.ResetTo (resume t) left later :=
  resume_induction (I := fun t => ∃ n, AmongFields s t left later n)
    (fun _ ⟨_, h⟩ => ⟨h.at_read, h.pass⟩) ⟨n, h⟩

/-- DECODE at the READ_U16 of the length: the reset comes before the length is read, before the flush of a POLL, or after the
right length. -/
theorem resume_length_toReset (at_read : t.AtRead) (phase : t.phase = .len) (latch : t.latch = none)
    (reset : t.ResetAfter n later) (near : n ≤ 1 ∨ n ≤ 2 ∧ t.job = .poll ∨ t.rx.length < 2 ∨
      ∃ rest, t.rx = be16 (expectedLength t) ++ rest ∧ n ≤ 2 * readsLeft t) :
    t.ResetTo (resume t) (t.rx.drop n) later := by
  rw [resume_of_atRead at_read]
  obtain met | ⟨hi, lo, rest, m, w, rfl, hrx, done, nearer⟩ := resume_toReset at_read latch reset
  · exact met.andThen _
  obtain ⟨at_w, samePhase, job, entry, reads, rfl, reset', latch', outside⟩ := nearer
  have long : ¬ t.rx.length < 2 := by simp [hrx]
  rw [done, Access.done_andThen, hrx, List.drop_succ_cons, List.drop_succ_cons]
  by_cases expected : u16 hi lo = expectedLength w
  · have more : advance (u16 hi lo) w = .more { w with phase := .field, idx := 0 } := by
      rw [advance_of_len (samePhase.trans phase), if_pos expected]
    have fewer := advance_readsLeft at_w more
    have near : m ≤ 2 * (readsLeft t - 1) := by
      obtain few | ⟨few, -⟩ | short | ⟨-, -, few⟩ := near <;> omega
    have among : AmongFields w { w with phase := .field, idx := 0 } (w.rx.drop m) later m :=
      ⟨advance_atRead at_w more, .inl rfl, latch', reset', rfl, rfl, by omega⟩
    rw [more]
    exact among.resume.of_outside outside
  · have poll : m = 0 ∧ t.job = .poll := by
      obtain few | ⟨few, job⟩ | short | ⟨rest, expect, -⟩ := near
      · omega
      · exact ⟨by omega, job⟩
      · exact absurd short long
      · refine absurd ?_ expected
        rw [hrx] at expect
        obtain ⟨rfl, rfl, -⟩ := (List.cons_eq_cons.1 expect).imp_right List.cons_eq_cons.1
        rw [u16_be16, expectedLength, expectedLength, entry]
    obtain ⟨rfl, hjob⟩ := poll
    rw [advance_of_len (samePhase.trans phase), if_neg expected]
    have flushed : w.ResetTo (decodeEnd .invalidLength { w with diagLen := u16 hi lo }) w.rx later := by
      rw [decodeEnd_of_poll (by exact job.trans hjob)]
      exact (flush_meets (s := { w with diagLen := u16 hi lo, phase := .flushing }) reset').of_outside rfl
    exact flushed.of_outside outside

/-- The bytes at which DECODE goes on reading up to a reset after `n` of them: its header, and behind it the length. -/
def LeadsOn (size n : Nat) (poll : Prop) (rx : List Byte) : Prop :=
  n ≤ 1 ∨ rx.length < 2 ∨ ∃ rest, rx = be16 Config.sig ++ rest ∧
    (n ≤ 3 ∨ n ≤ 4 ∧ poll ∨ rest.length < 2 ∨ ∃ rest', rest = be16 (lengthField size) ++ rest' ∧ n ≤ size)

/-- DECODE from its start (R135, R231). -/
theorem resume_start_toReset (job : t.job = .decode ∨ t.job = .poll) (operates : t.Operates) (reset : t.ResetAfter n later)
    (leads : LeadsOn (configured t).size n (t.job = .poll) t.rx) : t.ResetTo (resume (decodeStart t)) (t.rx.drop n) later := by
  have at_read := decodeStart_atRead job operates
  have words : 2 * readsLeft (decodeStart t) = (configured t).size := by
    rw [Operates.size operates]
    change 2 * ((configured t).nf + 3) = _
    omega
  refine State.ResetTo.of_outside (t := decodeStart t) ?_ rfl
  rw [resume_of_atRead at_read]
  obtain met | ⟨hi, lo, rest, m, w, rfl, hrx, done, nearer⟩ := resume_toReset (n := n) (later := later) at_read rfl reset
  · exact met.andThen _
  obtain ⟨at_w, samePhase, sameJob, entry, reads, rfl, reset', latch', outside⟩ := nearer
  have hrx : t.rx = hi :: lo :: w.rx := hrx
  rw [done, Access.done_andThen, hrx, List.drop_succ_cons, List.drop_succ_cons]
  obtain few | short | ⟨rest, sig, near⟩ := leads
  · omega
  · simp [hrx] at short
  rw [hrx] at sig
  obtain ⟨rfl, rfl, rfl⟩ := (List.cons_eq_cons.1 sig).imp_right List.cons_eq_cons.1
  have more : advance (u16 (Config.sig.extractLsb' 8 8) (Config.sig.extractLsb' 0 8)) w = .more { w with phase := .len } := by
    rw [advance_of_hdr (samePhase.trans rfl), u16_be16, if_pos rfl]
  have fewer := advance_readsLeft at_w more
  rw [more]
  refine State.ResetTo.of_outside ?_ outside
  refine (resume_length_toReset (n := m) (later := later) (advance_atRead at_w more) rfl latch' reset' ?_).of_outside rfl
  obtain few | ⟨few, poll⟩ | short | ⟨rest, expect, few⟩ := near
  · exact .inl (by omega)
  · exact .inr (.inl ⟨by omega, sameJob.trans poll⟩)
  · exact .inr (.inr (.inl short))
  · have expected : expectedLength { w with phase := .len } = lengthField (configured t).size :=
      congrArg (fun e : CatalogEntry => lengthField e.size) entry
    exact .inr (.inr (.inr ⟨rest, expected.symm ▸ expect, by omega⟩))

/-- Any part of a frame of the configured variant, with any tail, leads DECODE on (R70). -/
theorem leadsOn_frame {size : Nat} (fields : List Word) (checksum : Word) (tail : List Byte) (m : Nat) (poll : Prop)
    (near : n ≤ size) : LeadsOn size n poll ((frameBytes size fields checksum ++ tail).take m) := by
  rw [frameBytes_append]
  match m with
  | 0 | 1 => exact .inr (.inl (by simp))
  | m + 2 =>
    refine .inr (.inr ⟨_, rfl, .inr (.inr ?_)⟩)
    match m with
    | 0 | 1 => exact .inl (by simp)
    | m + 2 => exact .inr ⟨_, rfl, near⟩

end decode

/-- Settles O13: what is in RX leads DECODE on until the reset. -/
theorem resetInsideDecodeKeepsConsumedBytes : Obligations.ResetInsideDecodeKeepsConsumedBytes := by
  intro s n later idle operates reset bytes
  refine ⟨_, exec_decode_of_operates idle operates, ?_⟩
  refine (resume_start_toReset (t := { s with job := .decode }) (.inl rfl) operates reset ?_).of_outside rfl
  obtain ⟨fields, checksum, tail, m, -, hrx, near⟩ | ⟨rest, hrx, near⟩ | near := bytes
  · exact hrx ▸ leadsOn_frame fields checksum tail m _ near
  · exact .inr (.inr ⟨rest, hrx, .inl near⟩)
  · exact .inl near

section scan
variable {s t : State} {n : Nat} {later : List Gap}

theorem rxAvail_meets (h : s.ResetAfter 0 later) : (rxAvail s).AbortsTo s s.rx later := (gap_meets h).bind _

/-- The loop counts first, and peeks only then (R122). -/
theorem discard_meets {b : Byte} {rest : List Byte} (fuel : Nat) (hrx : s.rx = b :: rest) (reset : s.ResetAfter n later)
    (early : n ≤ 1) :
    (discard (fuel + 1) s).AbortsTo s s.rx later := by
  match n with
  | 0 => exact (rxAvail_meets reset).bind _
  | 1 =>
    rw [discard, rxAvail_passes reset, Access.done_bind, if_neg (by simp [hrx])]
    exact (((gap_meets (resetAfter_toReset s 0 later s.rx)).bind _).bind _).of_outside rfl

/-- The loop peeks at a head and leaves the signature byte where it is (R122). -/
theorem discard_stops {rest : List Byte} (fuel : Nat) (hrx : s.rx = 0x42 :: rest) (reset : s.ResetAfter (n + 2) later) :
    discard (fuel + 1) s = .done () (s.toReset n later s.rx) := by
  rw [discard, rxAvail_passes reset, Access.done_bind, if_neg (by simp [hrx]),
    rxPeek_passes (resetAfter_toReset s (n + 1) later s.rx) hrx, Access.done_bind,
    if_pos (show (0x42 : Byte) = Config.sig1 from rfl)]
  rfl

theorem discard_empty (fuel : Nat) (hrx : s.rx = []) (reset : s.ResetAfter (n + 1) later) :
    discard (fuel + 1) s = .done () (s.toReset n later []) := by
  rw [discard, rxAvail_passes reset, Access.done_bind, if_pos (by simp [hrx]), hrx]

/-- Any other head is read, if the reset does not come first (R122). -/
theorem discard_drops {b : Byte} {rest : List Byte} (fuel : Nat) (hrx : s.rx = b :: rest) (other : b ≠ 0x42)
    (reset : s.ResetAfter (n + 2) later) :
    discard (fuel + 1) s = (rxRead (s.toReset n later s.rx)).bind fun _ s => discard fuel s := by
  rw [discard, rxAvail_passes reset, Access.done_bind, if_neg (by simp [hrx]),
    rxPeek_passes (resetAfter_toReset s (n + 1) later s.rx) hrx, Access.done_bind, if_neg (show ¬ b = Config.sig1 from other)]
  rfl

/-- The discard loop under a coming reset: three primitives for each byte of garbage, and `last` more to see its end (R122). -/
theorem discard_toReset {garbage rest : List Byte} {last fuel : Nat} (clean : (0x42 : Byte) ∉ garbage)
    (hrx : s.rx = garbage ++ rest) (stop : rest.head? = some 0x42 ∧ last = 2 ∨ rest = [] ∧ last = 1)
    (fueled : garbage.length < fuel) (reset : s.ResetAfter n later) :
    (n < 3 * garbage.length + last → (discard fuel s).AbortsTo s (s.rx.drop (min garbage.length (n / 3))) later) ∧
      ∀ m, n = 3 * garbage.length + last + m → discard fuel s = .done () (s.toReset m later rest) := by
  obtain ⟨fuel, rfl⟩ : ∃ k, fuel = k + 1 := ⟨fuel - 1, by omega⟩
  induction garbage generalizing s n fuel with
  | nil =>
    rw [List.nil_append] at hrx
    simp only [List.length_nil, Nat.mul_zero, Nat.zero_add, Nat.zero_min, List.drop_zero]
    obtain ⟨head, rfl⟩ | ⟨rfl, rfl⟩ := stop
    · obtain ⟨rest', rfl⟩ := List.head?_eq_some_iff.1 head
      refine ⟨fun early => discard_meets fuel hrx reset (by omega), ?_⟩
      rintro m rfl
      rw [Nat.add_comm] at reset
      exact hrx ▸ discard_stops fuel hrx reset
    · refine ⟨fun early => ?_, ?_⟩
      · obtain rfl : n = 0 := by omega
        exact (rxAvail_meets reset).bind _
      · rintro m rfl
        rw [Nat.add_comm] at reset
        exact discard_empty fuel hrx reset
  | cons b garbage ih =>
    obtain ⟨other, clean⟩ := not_or.1 (fun h => clean (List.mem_cons.2 h))
    rw [List.cons_append] at hrx
    simp only [List.length_cons] at fueled ⊢
    match n with
    | 0 | 1 => exact ⟨fun _ => by simpa using discard_meets fuel hrx reset (by omega), by omega⟩
    | 2 =>
      refine ⟨fun _ => ?_, by omega⟩
      rw [discard_drops fuel hrx (Ne.symm other) reset]
      have stays : s.rx.drop (min (garbage.length + 1) (2 / 3)) = s.rx := by simp
      rw [stays]
      exact ((rxRead_meets (resetAfter_toReset s 0 later s.rx)).bind _).of_outside rfl
    | n + 3 =>
      rw [discard_drops (n := n + 1) fuel hrx (Ne.symm other) reset,
        rxRead_passes (resetAfter_toReset s (n + 1) later s.rx) hrx, Access.done_bind]
      obtain ⟨fuel, rfl⟩ : ∃ k, fuel = k + 1 := ⟨fuel - 1, by omega⟩
      obtain ⟨aborts, stops⟩ := ih (s := (s.toReset (n + 1) later s.rx).toReset n later (garbage ++ rest)) (n := n)
        clean rfl rfl fuel (by omega)
      refine ⟨fun early => ?_, fun m count => ?_⟩
      · have dropped : s.rx.drop (min (garbage.length + 1) ((n + 3) / 3)) =
            (garbage ++ rest).drop (min garbage.length (n / 3)) := by
          rw [hrx, show (n + 3) / 3 = n / 3 + 1 by omega, Nat.succ_min_succ, List.drop_succ_cons]
        rw [dropped]
        exact (aborts (by omega)).of_outside rfl
      · exact stops m (by omega)

/-- The scan of FRAME_READY under a coming reset (R122 to R124): one primitive before the loop and one behind it. -/
theorem sync_toReset {garbage rest : List Byte} {last : Nat} (size : Nat) (clean : (0x42 : Byte) ∉ garbage)
    (hrx : s.rx = garbage ++ rest) (stop : rest.head? = some 0x42 ∧ last = 2 ∨ rest = [] ∧ last = 1)
    (reset : s.ResetAfter n later) :
    ((n ≤ 3 * garbage.length + last + 1 ∧ s.rx ≠ [] ∨ n = 0) →
        (sync size s).AbortsTo s (s.rx.drop (min garbage.length ((n - 1) / 3))) later) ∧
      ∀ m, n = 3 * garbage.length + last + 2 + m → size ≤ rest.length → rest.head? = some 0x42 →
        sync size s = .done .ok (s.toReset m later rest) := by
  match n with
  | 0 =>
    have stays : s.rx.drop (min garbage.length ((0 - 1) / 3)) = s.rx := by simp
    exact ⟨fun _ => stays.symm ▸ (rxAvail_meets reset).bind _, by omega⟩
  | n + 1 =>
    have counted := rxAvail_passes reset
    have fueled : garbage.length < pending (s.toReset n later s.rx) + 1 := by
      have : (s.toReset n later s.rx).rx.length = garbage.length + rest.length := by rw [← List.length_append, ← hrx]; rfl
      unfold pending
      omega
    obtain ⟨aborts, stops⟩ := discard_toReset (s := s.toReset n later s.rx) clean hrx stop fueled rfl
    refine ⟨fun near => ?_, fun m count enough head => ?_⟩
    · obtain ⟨near, some⟩ : n + 1 ≤ 3 * garbage.length + last + 1 ∧ s.rx ≠ [] := near.resolve_right (by omega)
      rw [sync, counted, Access.done_bind, if_neg (by simp [some])]
      by_cases early : n < 3 * garbage.length + last
      · exact ((aborts early).bind _).of_outside rfl
      · have scanned := stops 0 (by omega)
        rw [scanned, Access.done_bind]
        have dropped : s.rx.drop (min garbage.length ((n + 1 - 1) / 3)) = rest := by
          rw [Nat.min_eq_left (by omega), hrx, List.drop_left]
        rw [dropped]
        exact ((rxAvail_meets (s := (s.toReset n later s.rx).toReset 0 later rest) rfl).bind _).of_outside rfl
    · obtain ⟨rest', rfl⟩ := List.head?_eq_some_iff.1 head
      rw [sync, counted, Access.done_bind, if_neg (by simp [hrx]), stops (m + 1) (by omega), Access.done_bind,
        rxAvail_passes (n := m) rfl, Access.done_bind]
      exact if_neg (not_or.2 ⟨Nat.not_lt.2 enough, not_not.2 head⟩)

end scan

/-- Settles O58: FRAME_READY and POLL scan alike, and POLL goes on with a DECODE from where the scan stops. -/
theorem resetInsideTheOtherOperations : Obligations.ResetInsideTheOtherOperations := by
  intro s n later idle reset
  refine ⟨fun hinit atOnce => ?_, fun acc few => ?_, fun operates garbage rest hrx clean => ⟨fun near i listed => ?_, ?_⟩⟩
  · subst atOnce
    refine ⟨_, command_of_idle idle.1 opFlush, ?_⟩
    rw [opFlush, if_neg (by simp [hinit])]
    exact (flush_meets (s := { s with phase := .flushing }) reset).of_outside rfl
  · refine ⟨_, exec_readU16_of_idle idle acc, ?_⟩
    obtain met | ⟨-, -, -, m, -, rfl, -⟩ := readU16_toReset (s := { s with job := .readU16 acc }) acc idle.2.2.2 reset
    · exact (met.andThen _).of_outside rfl
    · omega
  · obtain ⟨last, stop, near⟩ : ∃ last, (rest.head? = some 0x42 ∧ last = 2 ∨ rest = [] ∧ last = 1) ∧
        (n ≤ 3 * garbage.length + last + 1 ∧ s.rx ≠ [] ∨ n = 0) := by
      obtain ⟨head, near⟩ | ⟨rfl, ⟨near, some⟩ | atOnce⟩ := near
      · refine ⟨2, .inl ⟨head, rfl⟩, .inl ⟨near, ?_⟩⟩
        obtain ⟨rest', rfl⟩ := List.head?_eq_some_iff.1 head
        simp [hrx]
      · exact ⟨1, .inr ⟨rfl, rfl⟩, .inl ⟨near, by simpa [hrx] using some⟩⟩
      · exact ⟨1, .inr ⟨rfl, rfl⟩, .inr atOnce⟩
    have met := (sync_toReset (s := { s with phase := .sync }) (configured s).size clean hrx stop reset).1 near
    rw [← frameReady_of_operates operates] at met
    simp only [List.mem_cons, List.not_mem_nil, or_false] at listed
    obtain rfl | rfl := listed
    · exact ⟨_, command_of_idle idle.1 opFrameReady, (met.andThen _).of_outside rfl⟩
    · exact ⟨_, command_of_idle idle.1 opPoll, (met.andThen _).of_outside rfl⟩
  · intro k count enough bytes
    have head : rest.head? = some 0x42 := by
      obtain ⟨fields, checksum, tail, -, frame, -⟩ | ⟨tail, header, -⟩ | ⟨head, -⟩ := bytes
      · rw [frame, frameBytes_append]
        rfl
      · rw [header]
        rfl
      · exact head
    have scanned := (sync_toReset (s := { s with phase := .sync }) (configured s).size clean hrx (.inl ⟨head, rfl⟩)
      reset).2 k count enough head
    rw [← frameReady_of_operates operates] at scanned
    refine ⟨_, exec_poll_of_ready idle scanned, ?_⟩
    have started := decodeFrom_eq_resume
      (s := { State.toReset { s with phase := .sync } k later rest with job := .poll }) (.inr rfl) operates
    have left : s.rx.drop (garbage.length + k) = rest.drop k := by rw [hrx, List.drop_append]; simp
    rw [started, left]
    refine (resume_start_toReset (t := { State.toReset { s with phase := .sync } k later rest with job := .poll })
      (.inr rfl) operates rfl ?_).of_outside rfl
    obtain ⟨fields, checksum, tail, -, frame, few⟩ | ⟨tail, header, few⟩ | ⟨-, few⟩ := bytes
    · have leads := leadsOn_frame fields checksum tail rest.length (State.job { s with job := .poll } = .poll) few
      rw [← frame, List.take_length] at leads
      exact leads
    · exact .inr (.inr ⟨tail, header, .inr (.inl ⟨few, rfl⟩)⟩)
    · exact .inl few

end Sys2Proof.Machine
end
